-- ==== Sys2Proof/Word.lean ====
section
/-!
DEFINITION. The two word types of the machine (R14, R17): bytes and 16-bit addresses.
-/
namespace Sys2Proof

/-- An unsigned 8-bit value, `u8` (R17). -/
abbrev Byte := BitVec 8

/-- An unsigned 16-bit value, `u16` (R17): a CPU address, the program counter. -/
abbrev Word := BitVec 16

end Sys2Proof
end

