-- ==== Sys2Proof/Config.lean ====
section
/-!
DEFINITION. What the spec leaves OPEN (R15, 92_eei_decisions.md): each open value is a constant with no
body, so that no proof can see what it is and a claim holds whatever it is. The constants that give a
fresh value at every use take the counter `State.draws`.
-/
namespace Sys2Proof

/-- The nametable arrangement a cartridge reports (R184, R202). -/
inductive Mirroring where
  | horizontal
  | vertical
  | oneScreenLow
  | oneScreenHigh
deriving DecidableEq, Repr, Inhabited

/-- One output colour (R80, R671). -/
structure Rgba where
  red : Byte
  green : Byte
  blue : Byte
  alpha : Byte
deriving DecidableEq, Repr, Inhabited

/-- The eight buttons of a controller, in the document's order (R650). -/
inductive Button where
  | a | b | select | start | up | down | left | right
deriving DecidableEq, Repr, Inhabited

namespace Config

/-- `ILLEGAL_LEN(op)` less one, so that the length is 1, 2 or 3 (R612, D10; log 9). -/
opaque illegalLenPred : Byte → Fin 3

/-- `ILLEGAL_CYCLES(op)` less one, so that the count is at least 1 (R612, D10; log 9). -/
opaque illegalCyclesPred : Byte → Nat

/-- `PPU_OPEN_BITS`: the undriven bits of the n-th draw (R641, R642, D18; log 5). -/
opaque ppuOpenBits : Nat → Byte

/-- PPUSTATUS bits 6 and 5 as the open `SPRITE_UNIT` returns them at the n-th draw (R672, D34; log 6). -/
opaque spriteStatus : Nat → BitVec 2

/-- The pixel the open `SPRITE_UNIT` composes at the n-th draw (R672, D34; log 6). -/
opaque spritePixel : Nat → Rgba

/-- `HW_PALETTE`, the 64-entry colour table (R671, D35; log 7). -/
opaque hwPalette : BitVec 6 → Rgba

/-- What the frame buffer holds at power-on at pixel y * 256 + x (R89, D9; log 8). -/
opaque powerOnPixel : Nat → Rgba

/-- `DEBUG_READ(addr)`, which may differ from one moment to the next (R162, D24; log 13). -/
opaque debugRead : (draws master : Nat) → (addr : Word) → Byte

/-- The nametable arrangement while no cartridge is inserted, which the spec does not state (log 10). -/
opaque noCartridgeMirroring : Mirroring

/-- Where mapper 1's 32 KiB window reads with a bank number and an offset in the window when the cartridge has a single
16 KiB bank, which R185 bounds to the program store and the spec does not state (log 11). -/
opaque oneBankOffset : (bank offset : Nat) → Nat

/-- `BUTTON_BIT` at the spec's default, the document's order with bit 0 = A (R650, D17; log 14). -/
def buttonBit : Button → Fin 8
  | .a => 0
  | .b => 1
  | .select => 2
  | .start => 3
  | .up => 4
  | .down => 5
  | .left => 6
  | .right => 7

end Config
end Sys2Proof
end

