-- ==== Sys2Proof/Syntax.lean ====
section
/-!
DEFINITION. The instruction set as syntax: 56 documented mnemonics and the illegal opcodes (R2, R320, R324).
A row of the opcode table is a mnemonic together with an addressing mode, so each constructor of `Instr` is
a mnemonic and its operand is the mode with the operand bytes already assembled (R301, R303).
-/
namespace Sys2Proof

/-- The nine modes with an effective address (R353-R359, R361, R362), with their assembled operand. -/
inductive Addr where
  /-- IMM: the byte after the opcode. -/
  | imm (v : Byte)
  /-- ZP0: an address in page zero. -/
  | zp0 (z : Byte)
  /-- ZPX: page zero, indexed by X. -/
  | zpx (z : Byte)
  /-- ZPY: page zero, indexed by Y. -/
  | zpy (z : Byte)
  /-- ABS: a 16-bit address. -/
  | abs (w : Word)
  /-- ABX: a 16-bit base, indexed by X. -/
  | abx (w : Word)
  /-- ABY: a 16-bit base, indexed by Y. -/
  | aby (w : Word)
  /-- IZX: the pre-indexed pointer in page zero. -/
  | izx (z : Byte)
  /-- IZY: the post-indexed pointer in page zero. -/
  | izy (z : Byte)
deriving DecidableEq, Repr, Inhabited

/-- The tags of the nine modes of `Addr` (R301). -/
inductive AddrTag where
  | imm | zp0 | zpx | zpy | abs | abx | aby | izx | izy
deriving DecidableEq, Repr, Inhabited

/-- The operand of a shift or rotate: the accumulator (ACC, R352) or memory (R23). -/
inductive ShiftOperand where
  | acc
  | mem (m : Addr)
deriving DecidableEq, Repr, Inhabited

/-- The operand of JMP: ABS (R357) or IND (R360). -/
inductive JumpTarget where
  | abs (w : Word)
  | ind (ptr : Word)
deriving DecidableEq, Repr, Inhabited

/-- The instructions, in the order of the family files 41 to 49. -/
inductive Instr where
  | adc (m : Addr)
  | sbc (m : Addr)
  | and (m : Addr)
  | ora (m : Addr)
  | eor (m : Addr)
  | bit (m : Addr)
  | asl (t : ShiftOperand)
  | lsr (t : ShiftOperand)
  | rol (t : ShiftOperand)
  | ror (t : ShiftOperand)
  | bcc (rel : Byte)
  | bcs (rel : Byte)
  | beq (rel : Byte)
  | bne (rel : Byte)
  | bmi (rel : Byte)
  | bpl (rel : Byte)
  | bvc (rel : Byte)
  | bvs (rel : Byte)
  | cmp (m : Addr)
  | cpx (m : Addr)
  | cpy (m : Addr)
  | inc (m : Addr)
  | dec (m : Addr)
  | inx
  | iny
  | dex
  | dey
  | lda (m : Addr)
  | ldx (m : Addr)
  | ldy (m : Addr)
  | sta (m : Addr)
  | stx (m : Addr)
  | sty (m : Addr)
  | tax
  | tay
  | txa
  | tya
  | tsx
  | txs
  | pha
  | pla
  | php
  | plp
  | jmp (t : JumpTarget)
  | jsr (target : Word)
  | rts
  | brk
  | rti
  | clc
  | sec
  | cli
  | sei
  | cld
  | sed
  | clv
  | nop
  /-- One of the 105 illegal opcode bytes (R324, R612). -/
  | illegal (op : Byte)
deriving DecidableEq, Repr, Inhabited

end Sys2Proof
end

