-- ==== Sys2Proof/WellFormed.lean ====
section
/-!
DEFINITION. Which (mnemonic, mode) pairs the opcode table has a row for (R320), and which bytes are illegal
opcodes (R324). Every operand byte is legal (R325), so nothing else is checked.
-/
namespace Sys2Proof

/-- The mode tag of an operand (R301). -/
def Addr.tag : Addr → AddrTag
  | .imm _ => .imm
  | .zp0 _ => .zp0
  | .zpx _ => .zpx
  | .zpy _ => .zpy
  | .abs _ => .abs
  | .abx _ => .abx
  | .aby _ => .aby
  | .izx _ => .izx
  | .izy _ => .izy

/-- The operand's mode is one of those listed. -/
def Addr.among (m : Addr) (tags : List AddrTag) : Bool := tags.contains m.tag

/-- A shift takes the accumulator, or memory in one of the modes listed. -/
def ShiftOperand.among (t : ShiftOperand) (tags : List AddrTag) : Bool :=
  match t with
  | .acc => true
  | .mem m => m.among tags

/-- The eight modes of ADC, SBC, AND, ORA, EOR, CMP and LDA (R401, R402, R420-R422, R481, R520). -/
def accumulatorModes : List AddrTag := [.imm, .zp0, .zpx, .abs, .abx, .aby, .izx, .izy]

/-- The four memory modes of the shifts, INC and DEC (R440-R443, R500, R501). -/
def modifyModes : List AddrTag := [.zp0, .zpx, .abs, .abx]

/-- The 105 illegal opcode bytes, as R324 lists them. -/
def illegalOpcodes : List Byte :=
  [0x02, 0x03, 0x04, 0x07, 0x0B, 0x0C, 0x0F, 0x12, 0x13, 0x14, 0x17, 0x1A, 0x1B, 0x1C, 0x1F, 0x22, 0x23,
   0x27, 0x2B, 0x2F, 0x32, 0x33, 0x34, 0x37, 0x3A, 0x3B, 0x3C, 0x3F] ++
  [0x42, 0x43, 0x44, 0x47, 0x4B, 0x4F, 0x52, 0x53, 0x54, 0x57, 0x5A, 0x5B, 0x5C, 0x5F, 0x62, 0x63, 0x64,
   0x67, 0x6B, 0x6F, 0x72, 0x73, 0x74, 0x77, 0x7A, 0x7B, 0x7C, 0x7F] ++
  [0x80, 0x82, 0x83, 0x87, 0x89, 0x8B, 0x8F, 0x92, 0x93, 0x97, 0x9B, 0x9C, 0x9E, 0x9F, 0xA3, 0xA7, 0xAB,
   0xAF, 0xB2, 0xB3, 0xB7, 0xBB, 0xBF] ++
  [0xC2, 0xC3, 0xC7, 0xCB, 0xCF, 0xD2, 0xD3, 0xD4, 0xD7, 0xDA, 0xDB, 0xDC, 0xDF, 0xE2, 0xE3, 0xE7, 0xEB,
   0xEF, 0xF2, 0xF3, 0xF4, 0xF7, 0xFA, 0xFB, 0xFC, 0xFF]

/-- The instruction stands in the opcode table (R320, R324). -/
def Instr.wellFormed : Instr → Bool
  | .adc m => m.among accumulatorModes
  | .sbc m => m.among accumulatorModes
  | .and m => m.among accumulatorModes
  | .ora m => m.among accumulatorModes
  | .eor m => m.among accumulatorModes
  | .bit m => m.among [.zp0, .abs]
  | .asl t => t.among modifyModes
  | .lsr t => t.among modifyModes
  | .rol t => t.among modifyModes
  | .ror t => t.among modifyModes
  | .bcc _ => true
  | .bcs _ => true
  | .beq _ => true
  | .bne _ => true
  | .bmi _ => true
  | .bpl _ => true
  | .bvc _ => true
  | .bvs _ => true
  | .cmp m => m.among accumulatorModes
  | .cpx m => m.among [.imm, .zp0, .abs]
  | .cpy m => m.among [.imm, .zp0, .abs]
  | .inc m => m.among modifyModes
  | .dec m => m.among modifyModes
  | .inx => true
  | .iny => true
  | .dex => true
  | .dey => true
  | .lda m => m.among accumulatorModes
  | .ldx m => m.among [.imm, .zp0, .zpy, .abs, .aby]
  | .ldy m => m.among [.imm, .zp0, .zpx, .abs, .abx]
  | .sta m => m.among [.zp0, .zpx, .abs, .abx, .aby, .izx, .izy]
  | .stx m => m.among [.zp0, .zpy, .abs]
  | .sty m => m.among [.zp0, .zpx, .abs]
  | .tax => true
  | .tay => true
  | .txa => true
  | .tya => true
  | .tsx => true
  | .txs => true
  | .pha => true
  | .pla => true
  | .php => true
  | .plp => true
  | .jmp _ => true
  | .jsr _ => true
  | .rts => true
  | .brk => true
  | .rti => true
  | .clc => true
  | .sec => true
  | .cli => true
  | .sei => true
  | .cld => true
  | .sed => true
  | .clv => true
  | .nop => true
  | .illegal op => illegalOpcodes.contains op

/-- The instruction stands in the opcode table (R320, R324), as a proposition. -/
abbrev Instr.WellFormed (i : Instr) : Prop := i.wellFormed = true

end Sys2Proof
end

