-- ==== Sys2Proof/Decode.lean ====
section
/-!
DEFINITION. The decoder, from the 256-entry opcode table (R320, R323), and after it the encoder, from the
Encoding lines of the instruction rules (files 41 to 49). Decoding is total: every opcode byte has an entry
(R325), and the one thing a list of bytes can lack is operand bytes.
-/
namespace Sys2Proof

/-- `hi:lo`, the 16-bit value of two bytes (R17, R303). -/
def word16 (hi lo : Byte) : Word := hi ++ lo

/-- Bits 15:8 of an address. -/
def hiByte (w : Word) : Byte := w.extractLsb' 8 8

/-- Bits 7:0 of an address. -/
def loByte (w : Word) : Byte := w.extractLsb' 0 8

/-- An address in page zero (R303). -/
def zeroPage (z : Byte) : Word := z.setWidth 16

/-- `sext_16(rel8)`, the displacement of a branch (R303, R363). -/
def relOffset (rel : Byte) : Word := rel.signExtend 16

/-- What an opcode's entry builds from the operand bytes, one alternative per format (R301). -/
inductive OpcodeFormat where
  /-- IMP: no operand byte. -/
  | implied (i : Instr)
  /-- ACC: no operand byte, the accumulator is the operand. -/
  | shiftAcc (mk : ShiftOperand → Instr)
  /-- A shift of memory. -/
  | shiftMem (mk : ShiftOperand → Instr) (t : AddrTag)
  /-- A mode with an effective address. -/
  | ea (mk : Addr → Instr) (t : AddrTag)
  /-- REL: one displacement byte. -/
  | branch (mk : Byte → Instr)
  /-- JMP and JSR: a 16-bit target or pointer. -/
  | target (mk : Word → Instr)
  /-- An illegal opcode: its operand bytes are not read (R612). -/
  | illegal

/-- An entry of the instruction table: what it builds and its base cycle count (R67, R320). -/
structure OpcodeEntry where
  format : OpcodeFormat
  cycles : Nat

/-- The entry of an illegal opcode, whose cycle count is open (R324, D10). -/
def ill : OpcodeEntry := ⟨.illegal, 0⟩

/-- Opcodes 00 to 0F (R320, R323). -/
def opcodeRow0 : List OpcodeEntry :=
  [⟨.implied .brk, 7⟩, ⟨.ea .ora .izx, 6⟩, ill, ill,
   ill, ⟨.ea .ora .zp0, 3⟩, ⟨.shiftMem .asl .zp0, 5⟩, ill,
   ⟨.implied .php, 3⟩, ⟨.ea .ora .imm, 2⟩, ⟨.shiftAcc .asl, 2⟩, ill,
   ill, ⟨.ea .ora .abs, 4⟩, ⟨.shiftMem .asl .abs, 6⟩, ill]

/-- Opcodes 10 to 1F (R320, R323). -/
def opcodeRow1 : List OpcodeEntry :=
  [⟨.branch .bpl, 2⟩, ⟨.ea .ora .izy, 5⟩, ill, ill,
   ill, ⟨.ea .ora .zpx, 4⟩, ⟨.shiftMem .asl .zpx, 6⟩, ill,
   ⟨.implied .clc, 2⟩, ⟨.ea .ora .aby, 4⟩, ill, ill,
   ill, ⟨.ea .ora .abx, 4⟩, ⟨.shiftMem .asl .abx, 7⟩, ill]

/-- Opcodes 20 to 2F (R320, R323). -/
def opcodeRow2 : List OpcodeEntry :=
  [⟨.target .jsr, 6⟩, ⟨.ea .and .izx, 6⟩, ill, ill,
   ⟨.ea .bit .zp0, 3⟩, ⟨.ea .and .zp0, 3⟩, ⟨.shiftMem .rol .zp0, 5⟩, ill,
   ⟨.implied .plp, 4⟩, ⟨.ea .and .imm, 2⟩, ⟨.shiftAcc .rol, 2⟩, ill,
   ⟨.ea .bit .abs, 4⟩, ⟨.ea .and .abs, 4⟩, ⟨.shiftMem .rol .abs, 6⟩, ill]

/-- Opcodes 30 to 3F (R320, R323). -/
def opcodeRow3 : List OpcodeEntry :=
  [⟨.branch .bmi, 2⟩, ⟨.ea .and .izy, 5⟩, ill, ill,
   ill, ⟨.ea .and .zpx, 4⟩, ⟨.shiftMem .rol .zpx, 6⟩, ill,
   ⟨.implied .sec, 2⟩, ⟨.ea .and .aby, 4⟩, ill, ill,
   ill, ⟨.ea .and .abx, 4⟩, ⟨.shiftMem .rol .abx, 7⟩, ill]

/-- Opcodes 40 to 4F (R320, R323). -/
def opcodeRow4 : List OpcodeEntry :=
  [⟨.implied .rti, 6⟩, ⟨.ea .eor .izx, 6⟩, ill, ill,
   ill, ⟨.ea .eor .zp0, 3⟩, ⟨.shiftMem .lsr .zp0, 5⟩, ill,
   ⟨.implied .pha, 3⟩, ⟨.ea .eor .imm, 2⟩, ⟨.shiftAcc .lsr, 2⟩, ill,
   ⟨.target (fun w => .jmp (.abs w)), 3⟩, ⟨.ea .eor .abs, 4⟩, ⟨.shiftMem .lsr .abs, 6⟩, ill]

/-- Opcodes 50 to 5F (R320, R323). -/
def opcodeRow5 : List OpcodeEntry :=
  [⟨.branch .bvc, 2⟩, ⟨.ea .eor .izy, 5⟩, ill, ill,
   ill, ⟨.ea .eor .zpx, 4⟩, ⟨.shiftMem .lsr .zpx, 6⟩, ill,
   ⟨.implied .cli, 2⟩, ⟨.ea .eor .aby, 4⟩, ill, ill,
   ill, ⟨.ea .eor .abx, 4⟩, ⟨.shiftMem .lsr .abx, 7⟩, ill]

/-- Opcodes 60 to 6F (R320, R323). -/
def opcodeRow6 : List OpcodeEntry :=
  [⟨.implied .rts, 6⟩, ⟨.ea .adc .izx, 6⟩, ill, ill,
   ill, ⟨.ea .adc .zp0, 3⟩, ⟨.shiftMem .ror .zp0, 5⟩, ill,
   ⟨.implied .pla, 4⟩, ⟨.ea .adc .imm, 2⟩, ⟨.shiftAcc .ror, 2⟩, ill,
   ⟨.target (fun w => .jmp (.ind w)), 5⟩, ⟨.ea .adc .abs, 4⟩, ⟨.shiftMem .ror .abs, 6⟩, ill]

/-- Opcodes 70 to 7F (R320, R323). -/
def opcodeRow7 : List OpcodeEntry :=
  [⟨.branch .bvs, 2⟩, ⟨.ea .adc .izy, 5⟩, ill, ill,
   ill, ⟨.ea .adc .zpx, 4⟩, ⟨.shiftMem .ror .zpx, 6⟩, ill,
   ⟨.implied .sei, 2⟩, ⟨.ea .adc .aby, 4⟩, ill, ill,
   ill, ⟨.ea .adc .abx, 4⟩, ⟨.shiftMem .ror .abx, 7⟩, ill]

/-- Opcodes 80 to 8F (R320, R323). -/
def opcodeRow8 : List OpcodeEntry :=
  [ill, ⟨.ea .sta .izx, 6⟩, ill, ill,
   ⟨.ea .sty .zp0, 3⟩, ⟨.ea .sta .zp0, 3⟩, ⟨.ea .stx .zp0, 3⟩, ill,
   ⟨.implied .dey, 2⟩, ill, ⟨.implied .txa, 2⟩, ill,
   ⟨.ea .sty .abs, 4⟩, ⟨.ea .sta .abs, 4⟩, ⟨.ea .stx .abs, 4⟩, ill]

/-- Opcodes 90 to 9F (R320, R323). -/
def opcodeRow9 : List OpcodeEntry :=
  [⟨.branch .bcc, 2⟩, ⟨.ea .sta .izy, 6⟩, ill, ill,
   ⟨.ea .sty .zpx, 4⟩, ⟨.ea .sta .zpx, 4⟩, ⟨.ea .stx .zpy, 4⟩, ill,
   ⟨.implied .tya, 2⟩, ⟨.ea .sta .aby, 5⟩, ⟨.implied .txs, 2⟩, ill,
   ill, ⟨.ea .sta .abx, 5⟩, ill, ill]

/-- Opcodes A0 to AF (R320, R323). -/
def opcodeRowA : List OpcodeEntry :=
  [⟨.ea .ldy .imm, 2⟩, ⟨.ea .lda .izx, 6⟩, ⟨.ea .ldx .imm, 2⟩, ill,
   ⟨.ea .ldy .zp0, 3⟩, ⟨.ea .lda .zp0, 3⟩, ⟨.ea .ldx .zp0, 3⟩, ill,
   ⟨.implied .tay, 2⟩, ⟨.ea .lda .imm, 2⟩, ⟨.implied .tax, 2⟩, ill,
   ⟨.ea .ldy .abs, 4⟩, ⟨.ea .lda .abs, 4⟩, ⟨.ea .ldx .abs, 4⟩, ill]

/-- Opcodes B0 to BF (R320, R323). -/
def opcodeRowB : List OpcodeEntry :=
  [⟨.branch .bcs, 2⟩, ⟨.ea .lda .izy, 5⟩, ill, ill,
   ⟨.ea .ldy .zpx, 4⟩, ⟨.ea .lda .zpx, 4⟩, ⟨.ea .ldx .zpy, 4⟩, ill,
   ⟨.implied .clv, 2⟩, ⟨.ea .lda .aby, 4⟩, ⟨.implied .tsx, 2⟩, ill,
   ⟨.ea .ldy .abx, 4⟩, ⟨.ea .lda .abx, 4⟩, ⟨.ea .ldx .aby, 4⟩, ill]

/-- Opcodes C0 to CF (R320, R323). -/
def opcodeRowC : List OpcodeEntry :=
  [⟨.ea .cpy .imm, 2⟩, ⟨.ea .cmp .izx, 6⟩, ill, ill,
   ⟨.ea .cpy .zp0, 3⟩, ⟨.ea .cmp .zp0, 3⟩, ⟨.ea .dec .zp0, 5⟩, ill,
   ⟨.implied .iny, 2⟩, ⟨.ea .cmp .imm, 2⟩, ⟨.implied .dex, 2⟩, ill,
   ⟨.ea .cpy .abs, 4⟩, ⟨.ea .cmp .abs, 4⟩, ⟨.ea .dec .abs, 6⟩, ill]

/-- Opcodes D0 to DF (R320, R323). -/
def opcodeRowD : List OpcodeEntry :=
  [⟨.branch .bne, 2⟩, ⟨.ea .cmp .izy, 5⟩, ill, ill,
   ill, ⟨.ea .cmp .zpx, 4⟩, ⟨.ea .dec .zpx, 6⟩, ill,
   ⟨.implied .cld, 2⟩, ⟨.ea .cmp .aby, 4⟩, ill, ill,
   ill, ⟨.ea .cmp .abx, 4⟩, ⟨.ea .dec .abx, 7⟩, ill]

/-- Opcodes E0 to EF (R320, R323). -/
def opcodeRowE : List OpcodeEntry :=
  [⟨.ea .cpx .imm, 2⟩, ⟨.ea .sbc .izx, 6⟩, ill, ill,
   ⟨.ea .cpx .zp0, 3⟩, ⟨.ea .sbc .zp0, 3⟩, ⟨.ea .inc .zp0, 5⟩, ill,
   ⟨.implied .inx, 2⟩, ⟨.ea .sbc .imm, 2⟩, ⟨.implied .nop, 2⟩, ill,
   ⟨.ea .cpx .abs, 4⟩, ⟨.ea .sbc .abs, 4⟩, ⟨.ea .inc .abs, 6⟩, ill]

/-- Opcodes F0 to FF (R320, R323). -/
def opcodeRowF : List OpcodeEntry :=
  [⟨.branch .beq, 2⟩, ⟨.ea .sbc .izy, 5⟩, ill, ill,
   ill, ⟨.ea .sbc .zpx, 4⟩, ⟨.ea .inc .zpx, 6⟩, ill,
   ⟨.implied .sed, 2⟩, ⟨.ea .sbc .aby, 4⟩, ill, ill,
   ill, ⟨.ea .sbc .abx, 4⟩, ⟨.ea .inc .abx, 7⟩, ill]

/-- The 256-entry instruction table, by the high and then the low half of the opcode byte (R323). -/
def opcodeTable : List (List OpcodeEntry) :=
  [opcodeRow0, opcodeRow1, opcodeRow2, opcodeRow3, opcodeRow4, opcodeRow5, opcodeRow6, opcodeRow7,
   opcodeRow8, opcodeRow9, opcodeRowA, opcodeRowB, opcodeRowC, opcodeRowD, opcodeRowE, opcodeRowF]

/-- The entry of an opcode byte. -/
def opcodeEntry (op : Byte) : OpcodeEntry := (opcodeTable.getD (op.toNat / 16) []).getD (op.toNat % 16) ill

/-- How many operand bytes a mode with an effective address has (R301). -/
def addrOperandCount : AddrTag → Nat
  | .abs | .abx | .aby => 2
  | .imm | .zp0 | .zpx | .zpy | .izx | .izy => 1

/-- The operand assembled from the operand bytes, the low byte of an address first (R301, R303). -/
def assembleAddr (t : AddrTag) (b1 b2 : Byte) : Addr :=
  match t with
  | .imm => .imm b1
  | .zp0 => .zp0 b1
  | .zpx => .zpx b1
  | .zpy => .zpy b1
  | .abs => .abs (word16 b2 b1)
  | .abx => .abx (word16 b2 b1)
  | .aby => .aby (word16 b2 b1)
  | .izx => .izx b1
  | .izy => .izy b1

/-- How many operand bytes the CPU fetches after this opcode byte (R300, R301; none for an illegal one, R612). -/
def operandCount (op : Byte) : Nat :=
  match (opcodeEntry op).format with
  | .implied _ => 0
  | .shiftAcc _ => 0
  | .shiftMem _ t => addrOperandCount t
  | .ea _ t => addrOperandCount t
  | .branch _ => 1
  | .target _ => 2
  | .illegal => 0

/-- The instruction of an opcode byte and the two bytes after it, of which it looks at `operandCount op`. -/
def decodeBytes (op b1 b2 : Byte) : Instr :=
  match (opcodeEntry op).format with
  | .implied i => i
  | .shiftAcc mk => mk .acc
  | .shiftMem mk t => mk (.mem (assembleAddr t b1 b2))
  | .ea mk t => mk (assembleAddr t b1 b2)
  | .branch mk => mk b1
  | .target mk => mk (word16 b2 b1)
  | .illegal => .illegal op

/-- Why a list of bytes is no instruction. No opcode byte is ever the reason (R325). -/
inductive DecodeError where
  /-- The list is empty. -/
  | noOpcode
  /-- The list ends before the operand bytes of this opcode do. -/
  | missingOperand (op : Byte)
deriving DecidableEq, Repr

/-- The instruction at the head of a list of bytes, with the bytes after it. -/
def decode : List Byte → Except DecodeError (Instr × List Byte)
  | [] => .error .noOpcode
  | op :: rest =>
    match operandCount op, rest with
    | 0, _ => .ok (decodeBytes op 0 0, rest)
    | 1, b1 :: rest' => .ok (decodeBytes op b1 0, rest')
    | 2, b1 :: b2 :: rest' => .ok (decodeBytes op b1 b2, rest')
    | _, _ => .error (.missingOperand op)

/-- The instruction the decoder reads from bits numbered as spec/opcode_table.json numbers them: byte k of
the instruction is bits 8k+7..8k of `w`, and bits from `nbits` on are 0. -/
def decodeTableWord (nbits w : Nat) : Option Instr :=
  let bits := w % 2 ^ nbits
  match decode [BitVec.ofNat 8 bits, BitVec.ofNat 8 (bits / 256), BitVec.ofNat 8 (bits / 65536)] with
  | .ok (i, _) => some i
  | .error _ => none

/-! The encoder. -/

/-- The opcode that an Encoding line lists for the operand's mode. -/
def pickOpcode (line : List (AddrTag × Byte)) (m : Addr) : Option Byte := line.lookup m.tag

/-- The opcode of a shift: `acc` for the accumulator, else the Encoding line's for the mode. -/
def pickShiftOpcode (acc : Byte) (line : List (AddrTag × Byte)) : ShiftOperand → Option Byte
  | .acc => some acc
  | .mem m => pickOpcode line m

/-- The opcode byte of an instruction, from the Encoding line of its rule; none where the opcode table has
no row for the instruction's mode. -/
def opcodeOf : Instr → Option Byte
  | .adc m => pickOpcode [(.imm, 0x69), (.zp0, 0x65), (.zpx, 0x75), (.abs, 0x6D), (.abx, 0x7D), (.aby, 0x79),
      (.izx, 0x61), (.izy, 0x71)] m
  | .sbc m => pickOpcode [(.imm, 0xE9), (.zp0, 0xE5), (.zpx, 0xF5), (.abs, 0xED), (.abx, 0xFD), (.aby, 0xF9),
      (.izx, 0xE1), (.izy, 0xF1)] m
  | .and m => pickOpcode [(.imm, 0x29), (.zp0, 0x25), (.zpx, 0x35), (.abs, 0x2D), (.abx, 0x3D), (.aby, 0x39),
      (.izx, 0x21), (.izy, 0x31)] m
  | .ora m => pickOpcode [(.imm, 0x09), (.zp0, 0x05), (.zpx, 0x15), (.abs, 0x0D), (.abx, 0x1D), (.aby, 0x19),
      (.izx, 0x01), (.izy, 0x11)] m
  | .eor m => pickOpcode [(.imm, 0x49), (.zp0, 0x45), (.zpx, 0x55), (.abs, 0x4D), (.abx, 0x5D), (.aby, 0x59),
      (.izx, 0x41), (.izy, 0x51)] m
  | .bit m => pickOpcode [(.zp0, 0x24), (.abs, 0x2C)] m
  | .asl t => pickShiftOpcode 0x0A [(.zp0, 0x06), (.zpx, 0x16), (.abs, 0x0E), (.abx, 0x1E)] t
  | .lsr t => pickShiftOpcode 0x4A [(.zp0, 0x46), (.zpx, 0x56), (.abs, 0x4E), (.abx, 0x5E)] t
  | .rol t => pickShiftOpcode 0x2A [(.zp0, 0x26), (.zpx, 0x36), (.abs, 0x2E), (.abx, 0x3E)] t
  | .ror t => pickShiftOpcode 0x6A [(.zp0, 0x66), (.zpx, 0x76), (.abs, 0x6E), (.abx, 0x7E)] t
  | .bcc _ => some 0x90
  | .bcs _ => some 0xB0
  | .beq _ => some 0xF0
  | .bne _ => some 0xD0
  | .bmi _ => some 0x30
  | .bpl _ => some 0x10
  | .bvc _ => some 0x50
  | .bvs _ => some 0x70
  | .cmp m => pickOpcode [(.imm, 0xC9), (.zp0, 0xC5), (.zpx, 0xD5), (.abs, 0xCD), (.abx, 0xDD), (.aby, 0xD9),
      (.izx, 0xC1), (.izy, 0xD1)] m
  | .cpx m => pickOpcode [(.imm, 0xE0), (.zp0, 0xE4), (.abs, 0xEC)] m
  | .cpy m => pickOpcode [(.imm, 0xC0), (.zp0, 0xC4), (.abs, 0xCC)] m
  | .inc m => pickOpcode [(.zp0, 0xE6), (.zpx, 0xF6), (.abs, 0xEE), (.abx, 0xFE)] m
  | .dec m => pickOpcode [(.zp0, 0xC6), (.zpx, 0xD6), (.abs, 0xCE), (.abx, 0xDE)] m
  | .inx => some 0xE8
  | .iny => some 0xC8
  | .dex => some 0xCA
  | .dey => some 0x88
  | .lda m => pickOpcode [(.imm, 0xA9), (.zp0, 0xA5), (.zpx, 0xB5), (.abs, 0xAD), (.abx, 0xBD), (.aby, 0xB9),
      (.izx, 0xA1), (.izy, 0xB1)] m
  | .ldx m => pickOpcode [(.imm, 0xA2), (.zp0, 0xA6), (.zpy, 0xB6), (.abs, 0xAE), (.aby, 0xBE)] m
  | .ldy m => pickOpcode [(.imm, 0xA0), (.zp0, 0xA4), (.zpx, 0xB4), (.abs, 0xAC), (.abx, 0xBC)] m
  | .sta m => pickOpcode [(.zp0, 0x85), (.zpx, 0x95), (.abs, 0x8D), (.abx, 0x9D), (.aby, 0x99), (.izx, 0x81),
      (.izy, 0x91)] m
  | .stx m => pickOpcode [(.zp0, 0x86), (.zpy, 0x96), (.abs, 0x8E)] m
  | .sty m => pickOpcode [(.zp0, 0x84), (.zpx, 0x94), (.abs, 0x8C)] m
  | .tax => some 0xAA
  | .tay => some 0xA8
  | .txa => some 0x8A
  | .tya => some 0x98
  | .tsx => some 0xBA
  | .txs => some 0x9A
  | .pha => some 0x48
  | .pla => some 0x68
  | .php => some 0x08
  | .plp => some 0x28
  | .jmp (.abs _) => some 0x4C
  | .jmp (.ind _) => some 0x6C
  | .jsr _ => some 0x20
  | .rts => some 0x60
  | .brk => some 0x00
  | .rti => some 0x40
  | .clc => some 0x18
  | .sec => some 0x38
  | .cli => some 0x58
  | .sei => some 0x78
  | .cld => some 0xD8
  | .sed => some 0xF8
  | .clv => some 0xB8
  | .nop => some 0xEA
  | .illegal op => if illegalOpcodes.contains op then some op else none

/-- The operand bytes of a mode, the low byte of an address first (R301). -/
def addrOperandBytes : Addr → List Byte
  | .imm v => [v]
  | .zp0 z => [z]
  | .zpx z => [z]
  | .zpy z => [z]
  | .abs w => [loByte w, hiByte w]
  | .abx w => [loByte w, hiByte w]
  | .aby w => [loByte w, hiByte w]
  | .izx z => [z]
  | .izy z => [z]

/-- The operand bytes of a shift. -/
def shiftOperandBytes : ShiftOperand → List Byte
  | .acc => []
  | .mem m => addrOperandBytes m

/-- The operand bytes of an instruction, in the order they follow the opcode (R301). -/
def operandBytes : Instr → List Byte
  | .adc m | .sbc m | .and m | .ora m | .eor m | .bit m => addrOperandBytes m
  | .asl t | .lsr t | .rol t | .ror t => shiftOperandBytes t
  | .bcc r | .bcs r | .beq r | .bne r | .bmi r | .bpl r | .bvc r | .bvs r => [r]
  | .cmp m | .cpx m | .cpy m | .inc m | .dec m => addrOperandBytes m
  | .lda m | .ldx m | .ldy m | .sta m | .stx m | .sty m => addrOperandBytes m
  | .jmp (.abs w) | .jmp (.ind w) | .jsr w => [loByte w, hiByte w]
  | .inx | .iny | .dex | .dey | .tax | .tay | .txa | .tya | .tsx | .txs => []
  | .pha | .pla | .php | .plp | .rts | .brk | .rti => []
  | .clc | .sec | .cli | .sei | .cld | .sed | .clv | .nop => []
  | .illegal _ => []

/-- The bytes of a well-formed instruction, the opcode first. -/
def encode (i : Instr) : List Byte :=
  match opcodeOf i with
  | some op => op :: operandBytes i
  | none => []

/-- The base cycle count of an instruction: its entry's (R320, R321), and `ILLEGAL_CYCLES(op)` for an illegal
opcode (R612, D10; log 9). -/
def baseCycles : Instr → Nat
  | .illegal op => Config.illegalCyclesPred op + 1
  | i => match opcodeOf i with
    | some op => (opcodeEntry op).cycles
    | none => 0

end Sys2Proof
end

