-- ==== Sys2Proof/Machine/State.lean ====
section
/-!
DEFINITION. The state of the machine, as plain data: every piece of state that 10_state.md names (R50-R86), the
counter of free values, the reasons a step can stop, and the state right after reset.
-/
namespace Sys2Proof.Machine

/-- A byte store: pairs of index and byte, in the canonical form of `Memory.wf`. An unlisted byte reads
`Memory.fill` (log 2). -/
abbrev Memory := List Host.Cell

/-- The CPU registers (R50-R65). -/
structure Cpu where
  /-- A (R51). -/
  a : Byte
  /-- X (R52). -/
  x : Byte
  /-- Y (R53). -/
  y : Byte
  /-- SP (R54). -/
  sp : Byte
  /-- PC (R55). -/
  pc : Word
  /-- P, the status register (R56). -/
  p : Byte
  /-- The remaining-cycle counter (R65). -/
  cycles : Nat
deriving DecidableEq, Repr

/-- The OAM DMA bookkeeping (R70). -/
structure Dma where
  /-- `dma_page`, the source page. -/
  page : Byte
  /-- `dma_addr`, the destination offset. -/
  addr : Byte
  /-- `dma_data`, the byte in flight. -/
  data : Byte
  /-- `dma_transfer`, a transfer is in flight. -/
  transfer : Bool
  /-- `dma_wait`, the alignment wait. -/
  wait : Bool
deriving DecidableEq, Repr

/-- One controller port (R71). -/
structure Pad where
  /-- `pad_live`, written only by the host. -/
  live : Byte
  /-- `pad_shift`, the serial shift register. -/
  shift : Byte
  /-- `pad_strobe`. -/
  strobe : Bool
deriving DecidableEq, Repr

/-- A pixel of the frame buffer. Its colour is read through the open table `HW_PALETTE` (R671; log 7). -/
inductive Pixel where
  /-- What the frame buffer held at power-on (R89; log 8). -/
  | powerOn
  /-- The colour index of R671. -/
  | colour (c : BitVec 6)
  /-- The pixel the open sprite unit composed at this draw (R672; log 6). -/
  | drawn (n : Nat)
deriving DecidableEq, Repr

/-- The PPU (R72-R80). -/
structure Ppu where
  /-- PPUCTRL (R72). -/
  ctrl : Byte
  /-- PPUMASK (R73). -/
  mask : Byte
  /-- PPUSTATUS (R74). -/
  status : Byte
  /-- The current VRAM address (R75). -/
  vramAddr : BitVec 15
  /-- The temporary VRAM address (R75). -/
  tramAddr : BitVec 15
  /-- The fine X scroll (R76). -/
  fineX : BitVec 3
  /-- The address latch: true when the next write is the second (R76, R647). -/
  w : Bool
  /-- The PPUDATA read buffer (R76). -/
  dataBuffer : Byte
  /-- The OAM address (R76). -/
  oamAddr : Byte
  /-- OAM, 256 bytes (R77). -/
  oam : Memory
  /-- The nametable store: bank b, offset o at index 1024 b + o (R77). -/
  nt : Memory
  /-- The palette store, 32 bytes (R77). -/
  pal : Memory
  /-- The internal pattern store: bank b, offset o at index 4096 b + o (R77). -/
  pat : Memory
  /-- Background shift register, pattern low (R78). -/
  bgPatLo : Word
  /-- Background shift register, pattern high (R78). -/
  bgPatHi : Word
  /-- Background shift register, attribute low (R78). -/
  bgAttLo : Word
  /-- Background shift register, attribute high (R78). -/
  bgAttHi : Word
  /-- Next-tile latch, tile id (R78). -/
  bgNextId : Byte
  /-- Next-tile latch, attribute (R78). -/
  bgNextAttr : Byte
  /-- Next-tile latch, pattern low (R78). -/
  bgNextLo : Byte
  /-- Next-tile latch, pattern high (R78). -/
  bgNextHi : Byte
  /-- The raster line, -1 to 260 (R79). -/
  scanline : Int
  /-- The position in the line, 0 to 340 (R79). -/
  cycle : Nat
  /-- The NMI line the bus polls (R80, R633). -/
  nmi : Bool
  /-- `frame_complete` (R80, R656). -/
  frameComplete : Bool
  /-- `scanline_complete` (R80, R656). -/
  scanlineComplete : Bool
  /-- The frame buffer: pixel (x, y) at index 256 y + x (R80). -/
  screen : List (Nat × Pixel)
deriving DecidableEq, Repr

/-- The header's mirroring bit (R81, R811). -/
inductive HeaderMirror where
  | horizontal
  | vertical
deriving DecidableEq, Repr

/-- Mapper 1 (R83). -/
structure Mapper1 where
  load : BitVec 5
  loadCount : Nat
  control : BitVec 5
  chr0 : BitVec 5
  chr1 : BitVec 5
  prg : BitVec 4
  sram : Memory
deriving DecidableEq, Repr

/-- Mapper 4 (R86). -/
structure Mapper4 where
  bankSelect : Byte
  /-- R[0..7]. -/
  regs : Vector Byte 8
  /-- 0 vertical, 1 horizontal. -/
  mirror4 : BitVec 1
  irqLatch : Byte
  irqCounter : Byte
  irqEnable : Bool
  /-- The IRQ line. -/
  irqActive : Bool
  sram : Memory
deriving DecidableEq, Repr

/-- The mapper variants with their state (R82-R86). -/
inductive Mapper where
  /-- Mapper 0 has no state (R82). -/
  | mapper0
  | mapper1 (m : Mapper1)
  /-- Mapper 2 (R84). -/
  | mapper2 (prgLo : Byte)
  /-- Mapper 3 (R85). -/
  | mapper3 (chrBank : Byte)
  | mapper4 (m : Mapper4)
deriving DecidableEq, Repr

/-- `mapper_id` (R81), which the variant determines. -/
def Mapper.id : Mapper → Nat
  | .mapper0 => 0
  | .mapper1 _ => 1
  | .mapper2 _ => 2
  | .mapper3 _ => 3
  | .mapper4 _ => 4

/-- The cartridge (R81) with its mapper. -/
structure Cartridge where
  nPrg : Byte
  nChr : Byte
  hwMirror : HeaderMirror
  /-- 512 bytes, mapped nowhere (R811). -/
  trainer : Option Memory
  /-- The program store, `nPrg` x 16384 bytes. -/
  prg : Memory
  /-- The character store: ROM of `nChr` x 8192 bytes, or 8192 bytes of RAM when `nChr` is 0. -/
  chr : Memory
  mapper : Mapper
deriving DecidableEq, Repr

/-- The whole machine. -/
structure State where
  cpu : Cpu
  /-- Work RAM, 2048 bytes (R68). -/
  ram : Memory
  /-- The master cycle counter (R69). -/
  master : Nat
  dma : Dma
  /-- Controller port 0 (R71). -/
  pad0 : Pad
  /-- Controller port 1 (R71). -/
  pad1 : Pad
  ppu : Ppu
  /-- The cartridge, if one is inserted (R156, R810). -/
  cart : Option Cartridge
  /-- The model's own field: how many free values have been drawn (log 4). -/
  draws : Nat
deriving DecidableEq, Repr

/-- The reasons a step can fault. There is none: the hardware has no error state and no address faults
(R22, R159, R632). -/
inductive Fault where
deriving DecidableEq, Repr

/-- The reasons a step can be refused. -/
inductive Refusal where
  /-- `exec`'s arm of an instruction that has no meaning in the model raises it. Safe: the model stops where the
  hardware goes on. No arm of this model does. -/
  | notModelled (mnemonic : String)
deriving DecidableEq, Repr

/-- What a meaning answers. -/
abbrev Result := Host.Outcome State Fault Refusal

/-- The CPU right after reset with no cartridge (R87, R802, R803; A, X, Y: log 3). -/
def Cpu.reset : Cpu :=
  { a := 0, x := 0, y := 0, sp := 0xFD, pc := 0, p := 0x34, cycles := 8 }

/-- The DMA engine after reset (R88). -/
def Dma.reset : Dma :=
  { page := 0, addr := 0, data := 0, transfer := false, wait := true }

/-- A controller port after power-on and reset (R88). -/
def Pad.reset : Pad :=
  { live := 0, shift := 0, strobe := false }

/-- The PPU after power-on and reset: latches, shifters and registers zeroed (R89), the memories as at power-on
when every byte drawn is 0 (log 2), the frame buffer as at power-on (log 8). -/
def Ppu.reset : Ppu :=
  { ctrl := 0, mask := 0, status := 0, vramAddr := 0, tramAddr := 0, fineX := 0, w := false,
    dataBuffer := 0, oamAddr := 0, oam := [], nt := [], pal := [], pat := [],
    bgPatLo := 0, bgPatHi := 0, bgAttLo := 0, bgAttHi := 0,
    bgNextId := 0, bgNextAttr := 0, bgNextLo := 0, bgNextHi := 0,
    scanline := 0, cycle := 0, nmi := false, frameComplete := false, scanlineComplete := false,
    screen := [] }

/-- The machine right after power-on and reset, no cartridge inserted (R800, R802, R803; log 15 and log 16), with
`POWERON_MEM` and `RESET_AXY` at 0 (log 2, log 3). `powerOn` and `busReset` take them as arguments. -/
def State.reset : State :=
  { cpu := Cpu.reset, ram := [], master := 0, dma := Dma.reset, pad0 := Pad.reset, pad1 := Pad.reset,
    ppu := Ppu.reset, cart := none, draws := 0 }

/-! Plain updates, one register or one component each. -/

/-- `A <- v`. -/
def State.setA (s : State) (v : Byte) : State := { s with cpu := { s.cpu with a := v } }
/-- `X <- v`. -/
def State.setX (s : State) (v : Byte) : State := { s with cpu := { s.cpu with x := v } }
/-- `Y <- v`. -/
def State.setY (s : State) (v : Byte) : State := { s with cpu := { s.cpu with y := v } }
/-- `SP <- v`. -/
def State.setSp (s : State) (v : Byte) : State := { s with cpu := { s.cpu with sp := v } }
/-- `PC <- v`. -/
def State.setPc (s : State) (v : Word) : State := { s with cpu := { s.cpu with pc := v } }
/-- `P <- v`. -/
def State.setP (s : State) (v : Byte) : State := { s with cpu := { s.cpu with p := v } }
/-- `cycles <- n`. -/
def State.setCycles (s : State) (n : Nat) : State := { s with cpu := { s.cpu with cycles := n } }
/-- Another work RAM. -/
def State.setRam (s : State) (m : Memory) : State := { s with ram := m }
/-- Another master count. -/
def State.setMaster (s : State) (n : Nat) : State := { s with master := n }
/-- Another DMA bookkeeping. -/
def State.setDma (s : State) (d : Dma) : State := { s with dma := d }
/-- Another controller port 0. -/
def State.setPad0 (s : State) (k : Pad) : State := { s with pad0 := k }
/-- Another controller port 1. -/
def State.setPad1 (s : State) (k : Pad) : State := { s with pad1 := k }
/-- Another PPU. -/
def State.setPpu (s : State) (q : Ppu) : State := { s with ppu := q }
/-- Another cartridge. -/
def State.setCart (s : State) (c : Option Cartridge) : State := { s with cart := c }
/-- Another count of draws. -/
def State.setDraws (s : State) (n : Nat) : State := { s with draws := n }

end Sys2Proof.Machine
end

