-- ==== Sys2Proof/Machine/Memory.lean ====
section
/-!
DEFINITION. Sparse stores: the list of the cells that differ from what an unlisted cell holds, with indexes
strictly rising. One pair of operations serves the byte stores (work RAM, OAM, nametables, palette, patterns,
PRG, CHR, SRAM) and the frame buffer.
-/
namespace Sys2Proof.Machine

/-- The value at an index, `d` where none is listed. -/
def cellsRead {α : Type} (d : α) : List (Nat × α) → Nat → α
  | [], _ => d
  | (k, v) :: m, a => if k = a then v else cellsRead d m a

/-- The list without an index. -/
def cellsErase {α : Type} : List (Nat × α) → Nat → List (Nat × α)
  | [], _ => []
  | (k, v) :: m, a => if k = a then cellsErase m a else (k, v) :: cellsErase m a

/-- The list with a cell at an index it does not hold, put before the first greater index. -/
def cellsInsert {α : Type} : List (Nat × α) → Nat → α → List (Nat × α)
  | [], a, v => [(a, v)]
  | (k, w) :: m, a, v => if a < k then (a, v) :: (k, w) :: m else (k, w) :: cellsInsert m a v

/-- The list after writing a value at an index. Writing `d` removes the cell. -/
def cellsWrite {α : Type} [DecidableEq α] (d : α) (m : List (Nat × α)) (a : Nat) (v : α) : List (Nat × α) :=
  if v = d then cellsErase m a else cellsInsert (cellsErase m a) a v

/-- Indexes from `lo` on strictly rising and below `size`, no cell equal to `d`. -/
def cellsWfFrom {α : Type} [DecidableEq α] (d : α) (size : Nat) : Nat → List (Nat × α) → Bool
  | _, [] => true
  | lo, (k, v) :: m => decide (lo ≤ k) && decide (k < size) && decide (v ≠ d) && cellsWfFrom d size (k + 1) m

/-- What a byte that a store does not list reads as (log 2). -/
def Memory.fill : Byte := 0

/-- The byte at an index of a store. -/
def Memory.read (m : Memory) (a : Nat) : Byte := cellsRead Memory.fill m a

/-- The store after writing one byte. -/
def Memory.write (m : Memory) (a : Nat) (v : Byte) : Memory := cellsWrite Memory.fill m a v

/-- The canonical form of a store of `size` bytes. -/
def Memory.wf (size : Nat) (m : Memory) : Bool := cellsWfFrom Memory.fill size 0 m

/-- A list of bytes laid out from an index on, as a store. -/
def storeFrom : Nat → List Byte → Memory
  | _, [] => []
  | k, b :: bs => if b = Memory.fill then storeFrom (k + 1) bs else (k, b) :: storeFrom (k + 1) bs

/-- A list of bytes as a store. -/
def storeOf (bytes : List Byte) : Memory := storeFrom 0 bytes

/-- A store of `size` bytes that holds the bytes of a list, the first at index 0. -/
def storeOfSize (size : Nat) (bytes : List Byte) : Memory := storeOf (bytes.take size)

/-- The pixel at an index of the frame buffer. -/
def screenRead (m : List (Nat × Pixel)) (a : Nat) : Pixel := cellsRead .powerOn m a

/-- The frame buffer after writing one pixel. -/
def screenWrite (m : List (Nat × Pixel)) (a : Nat) (v : Pixel) : List (Nat × Pixel) := cellsWrite .powerOn m a v

/-- The canonical form of the frame buffer of 256 x 240 pixels (R80). -/
def screenWf (m : List (Nat × Pixel)) : Bool := cellsWfFrom .powerOn 61440 0 m

end Sys2Proof.Machine
end

