-- ==== Sys2Proof/Machine/Mapper.lean ====
section
/-!
DEFINITION. The cartridge as address translator: the mapper contract (R170), the translations of the variants 0
to 4 on the CPU and the PPU side (R171-R186), mirroring (R184) and the mapper-4 IRQ counter (R674).
-/
namespace Sys2Proof.Machine

/-- What `cpu_map_read` reports (R170): not handled, an ordinary offset into PRG, or the sentinel of mapper-owned
static RAM with its index. -/
inductive CpuMap where
  | notHandled
  | prg (offset : Nat)
  | sram (index : Nat)
deriving DecidableEq, Repr

/-- What `ppu_map_read` and `ppu_map_write` report (R170, R186): not handled, an offset into CHR, or a write claimed
and dropped. -/
inductive ChrMap where
  | notHandled
  | chr (offset : Nat)
  | dropped
deriving DecidableEq, Repr

/-- The offset of a byte in a bank, the bank number reduced modulo the number of banks of that size (R185). -/
def bankOffset (bank count size offset : Nat) : Nat := bank % count * size + offset

/-- PRG at a fixed place, mirrored when there is one bank (R171; mapper 3: R179). -/
def fixedPrgOffset (nPrg : Nat) (a : Word) : Nat := a.toNat % (if 1 < nPrg then 0x8000 else 0x4000)

/-- The PRG offset of mapper 1 (R173, R185). With one 16 KiB bank there is no whole 32 KiB bank, and the offset is a free
one inside the store (log 11). -/
def mapper1PrgOffset (m : Mapper1) (nPrg : Nat) (a : Word) : Nat :=
  let o16 := a.toNat % 0x4000
  let low := decide (a.toNat < 0xC000)
  match (m.control.extractLsb' 2 2).toNat with
  | 2 => if low then bankOffset 0 nPrg 16384 o16 else bankOffset m.prg.toNat nPrg 16384 o16
  | 3 => if low then bankOffset m.prg.toNat nPrg 16384 o16 else bankOffset (nPrg - 1) nPrg 16384 o16
  | _ =>
    if nPrg < 2 then Config.oneBankOffset m.prg.toNat (a.toNat % 0x8000) % (nPrg * 16384)
    else bankOffset (m.prg.toNat / 2) (nPrg / 2) 32768 (a.toNat % 0x8000)

/-- The PRG offset of mapper 2 (R177). -/
def mapper2PrgOffset (prgLo : Byte) (nPrg : Nat) (a : Word) : Nat :=
  let o16 := a.toNat % 0x4000
  if a.toNat < 0xC000 then bankOffset prgLo.toNat nPrg 16384 o16 else bankOffset (nPrg - 1) nPrg 16384 o16

/-- The 8 KiB PRG bank number of mapper 4's window 0 to 3 (R181). -/
def mapper4PrgBank (m : Mapper4) (nPrg window : Nat) : Nat :=
  let swapped := m.bankSelect.getLsbD 6
  match window with
  | 0 => if swapped then 2 * nPrg - 2 else ((m.regs.get 6) &&& 0x3F).toNat
  | 1 => ((m.regs.get 7) &&& 0x3F).toNat
  | 2 => if swapped then ((m.regs.get 6) &&& 0x3F).toNat else 2 * nPrg - 2
  | _ => 2 * nPrg - 1

/-- The PRG offset of mapper 4 (R181). -/
def mapper4PrgOffset (m : Mapper4) (nPrg : Nat) (a : Word) : Nat :=
  bankOffset (mapper4PrgBank m nPrg ((a.toNat - 0x8000) / 0x2000)) (2 * nPrg) 8192 (a.toNat % 0x2000)

/-- `cpu_map_read` of the cartridge's mapper (R171, R173, R177, R179, R181). -/
def cpuMapRead (c : Cartridge) (a : Word) : CpuMap :=
  let n := c.nPrg.toNat
  let rom (offset : Nat) : CpuMap := if 0x8000 ≤ a.toNat then .prg offset else .notHandled
  let romOrSram (offset : Nat) : CpuMap :=
    if 0x8000 ≤ a.toNat then .prg offset
    else if 0x6000 ≤ a.toNat then .sram (a.toNat % 0x2000)
    else .notHandled
  match c.mapper with
  | .mapper0 => rom (fixedPrgOffset n a)
  | .mapper1 m => romOrSram (mapper1PrgOffset m n a)
  | .mapper2 prgLo => rom (mapper2PrgOffset prgLo n a)
  | .mapper3 _ => rom (fixedPrgOffset n a)
  | .mapper4 m => romOrSram (mapper4PrgOffset m n a)

/-- The mapper-owned static RAM (R83, R86); mappers 0, 2 and 3 have none (D30). -/
def cartSram (c : Cartridge) : Memory :=
  match c.mapper with
  | .mapper1 m => m.sram
  | .mapper4 m => m.sram
  | .mapper0 => []
  | .mapper2 _ => []
  | .mapper3 _ => []

/-- The PRG byte at an offset. Every mapped offset lies in the store (R185). -/
def prgByte (c : Cartridge) (offset : Nat) : Byte := Memory.read c.prg offset

/-- No PRG window of the cartridge reads at a free offset (log 11). -/
def prgOffsetsKnown (c : Cartridge) : Bool :=
  match c.mapper with
  | .mapper0 => true
  | .mapper1 m => m.control.getLsbD 3 || decide (2 ≤ c.nPrg.toNat)
  | .mapper2 _ => true
  | .mapper3 _ => true
  | .mapper4 _ => true

/-- The cartridge's answer to a CPU read, none where it does not handle the address (R170). -/
def cartCpuRead (c : Cartridge) (a : Word) : Option Byte :=
  match cpuMapRead c a with
  | .notHandled => none
  | .prg offset => some (prgByte c offset)
  | .sram index => some (Memory.read (cartSram c) index)

/-- A write to mapper 1's register space (R174). -/
def mapper1Write (m : Mapper1) (a : Word) (v : Byte) : Mapper1 :=
  if v.getLsbD 7 then { m with load := 0, loadCount := 0, control := m.control ||| 0x0C }
  else
    let load := (m.load >>> 1) ||| ((v.extractLsb' 0 1).setWidth 5 <<< 4)
    if m.loadCount = 4 then
      let m' := { m with load := 0, loadCount := 0 }
      match (a.extractLsb' 13 2).toNat with
      | 0 => { m' with control := load }
      | 1 => { m' with chr0 := load }
      | 2 => { m' with chr1 := load }
      | _ => { m' with prg := load.setWidth 4 }
    else { m with load := load, loadCount := m.loadCount + 1 }

/-- A write to mapper 4's register space (R182). -/
def mapper4Write (m : Mapper4) (a : Word) (v : Byte) : Mapper4 :=
  match (a.extractLsb' 13 2).toNat, a.getLsbD 0 with
  | 0, false => { m with bankSelect := v }
  | 0, true =>
    let k := m.bankSelect.extractLsb' 0 3
    { m with regs := m.regs.set k.toNat v k.isLt }
  | 1, false => { m with mirror4 := v.extractLsb' 0 1 }
  | 1, true => m
  | 2, false => { m with irqLatch := v }
  | 2, true => { m with irqCounter := 0 }
  | _, false => { m with irqEnable := false, irqActive := false }
  | _, true => { m with irqEnable := true }

/-- `cpu_map_write` of the cartridge: none where the mapper does not handle the address, else the cartridge after the
write. No PRG byte changes (R171, R174, R177, R179, R182, R186). -/
def cartCpuWrite (c : Cartridge) (a : Word) (v : Byte) : Option Cartridge :=
  let withMapper (m : Mapper) : Cartridge := { c with mapper := m }
  match c.mapper with
  | .mapper0 => if 0x8000 ≤ a.toNat then some c else none
  | .mapper1 m =>
    if 0x8000 ≤ a.toNat then some (withMapper (.mapper1 (mapper1Write m a v)))
    else if 0x6000 ≤ a.toNat then
      some (withMapper (.mapper1 { m with sram := Memory.write m.sram (a.toNat % 0x2000) v }))
    else none
  | .mapper2 _ => if 0x8000 ≤ a.toNat then some (withMapper (.mapper2 (v &&& 0x0F))) else none
  | .mapper3 _ => if 0x8000 ≤ a.toNat then some (withMapper (.mapper3 (v &&& 0x03))) else none
  | .mapper4 m =>
    if 0x8000 ≤ a.toNat then some (withMapper (.mapper4 (mapper4Write m a v)))
    else if 0x6000 ≤ a.toNat then
      some (withMapper (.mapper4 { m with sram := Memory.write m.sram (a.toNat % 0x2000) v }))
    else none

/-- The CHR offset of mapper 1 with CHR ROM (R175). -/
def mapper1ChrOffset (m : Mapper1) (nChr a : Nat) : Nat :=
  if m.control.getLsbD 4 then
    bankOffset (if a < 0x1000 then m.chr0.toNat else m.chr1.toNat) (2 * nChr) 4096 (a % 0x1000)
  else bankOffset (m.chr0.toNat / 2) nChr 8192 a

/-- The 1 KiB CHR bank number of mapper 4's slot 0 to 7 (R183). -/
def mapper4ChrBank (m : Mapper4) (slot : Nat) : Nat :=
  match (if m.bankSelect.getLsbD 7 then (slot + 4) % 8 else slot) with
  | 0 => ((m.regs.get 0) &&& 0xFE).toNat
  | 1 => ((m.regs.get 0) ||| 0x01).toNat
  | 2 => ((m.regs.get 1) &&& 0xFE).toNat
  | 3 => ((m.regs.get 1) ||| 0x01).toNat
  | 4 => (m.regs.get 2).toNat
  | 5 => (m.regs.get 3).toNat
  | 6 => (m.regs.get 4).toNat
  | _ => (m.regs.get 5).toNat

/-- `ppu_map_read` (R172, R175, R178, R180, R183). Mapper 3's bank of a cartridge with CHR RAM is its one bank
(log 12). -/
def ppuMapRead (c : Cartridge) (a : Word) : ChrMap :=
  let n := c.nChr.toNat
  if a.toNat < 0x2000 then
    match c.mapper with
    | .mapper0 => .chr a.toNat
    | .mapper1 m => .chr (if n = 0 then a.toNat else mapper1ChrOffset m n a.toNat)
    | .mapper2 _ => .chr a.toNat
    | .mapper3 bank => .chr (bankOffset bank.toNat (if n = 0 then 1 else n) 8192 a.toNat)
    | .mapper4 m =>
      .chr (if n = 0 then a.toNat
        else bankOffset (mapper4ChrBank m (a.toNat / 1024)) (8 * n) 1024 (a.toNat % 1024))
  else .notHandled

/-- `ppu_map_write`: CHR RAM is written unbanked, CHR ROM drops the write, on every variant (R172, R175, R178,
R180, R183, R186). -/
def ppuMapWrite (c : Cartridge) (a : Word) : ChrMap :=
  if a.toNat < 0x2000 then
    if c.nChr = 0 then .chr a.toNat else .dropped
  else .notHandled

/-- The header's mirroring as an arrangement of nametables. -/
def headerMirroring : HeaderMirror → Mirroring
  | .horizontal => .horizontal
  | .vertical => .vertical

/-- `mirror()` (R176, R184). -/
def cartMirroring (c : Cartridge) : Mirroring :=
  match c.mapper with
  | .mapper0 => headerMirroring c.hwMirror
  | .mapper1 m =>
    match (m.control.extractLsb' 0 2).toNat with
    | 0 => .oneScreenLow
    | 1 => .oneScreenHigh
    | 2 => .vertical
    | _ => .horizontal
  | .mapper2 _ => headerMirroring c.hwMirror
  | .mapper3 _ => headerMirroring c.hwMirror
  | .mapper4 m => if m.mirror4 = 0 then .vertical else .horizontal

/-- `irq_state()`, which only mapper 4 can raise (R674, R675). -/
def cartIrqState (c : Cartridge) : Bool :=
  match c.mapper with
  | .mapper4 m => m.irqActive
  | .mapper0 => false
  | .mapper1 _ => false
  | .mapper2 _ => false
  | .mapper3 _ => false

/-- `irq_clear()` (R674, R675). -/
def cartIrqClear (c : Cartridge) : Cartridge :=
  match c.mapper with
  | .mapper4 m => { c with mapper := .mapper4 { m with irqActive := false } }
  | .mapper0 => c
  | .mapper1 _ => c
  | .mapper2 _ => c
  | .mapper3 _ => c

/-- Mapper 4's counter at one `scanline()` call (R674). -/
def mapper4Scanline (m : Mapper4) : Mapper4 :=
  let counter := if m.irqCounter = 0 then m.irqLatch else m.irqCounter - 1
  { m with irqCounter := counter, irqActive := m.irqActive || (decide (counter = 0) && m.irqEnable) }

/-- `scanline()`: only mapper 4 acts on it (R673). -/
def cartScanline (c : Cartridge) : Cartridge :=
  match c.mapper with
  | .mapper4 m => { c with mapper := .mapper4 (mapper4Scanline m) }
  | .mapper0 => c
  | .mapper1 _ => c
  | .mapper2 _ => c
  | .mapper3 _ => c

/-- The header's mirroring as mapper 4's mirroring bit (R90, D40; log 17). -/
def headerMirrorBit : HeaderMirror → BitVec 1
  | .vertical => 0
  | .horizontal => 1

/-- Mapper 1 after reset, its static RAM kept (R90). -/
def resetMapper1 (sram : Memory) : Mapper1 :=
  { load := 0, loadCount := 0, control := 0x1C, chr0 := 0, chr1 := 0, prg := 0, sram := sram }

/-- Mapper 4 after reset, its static RAM kept (R90). -/
def resetMapper4 (hw : HeaderMirror) (sram : Memory) : Mapper4 :=
  { bankSelect := 0, regs := #v[0, 0, 0, 0, 0, 0, 0, 1], mirror4 := headerMirrorBit hw,
    irqLatch := 0, irqCounter := 0, irqEnable := false, irqActive := false, sram := sram }

/-- `cart.reset()`: the mapper's reset values; header, PRG, CHR and SRAM are unchanged (R90, R802). -/
def cartReset (c : Cartridge) : Cartridge :=
  match c.mapper with
  | .mapper0 => c
  | .mapper1 m => { c with mapper := .mapper1 (resetMapper1 m.sram) }
  | .mapper2 _ => { c with mapper := .mapper2 0 }
  | .mapper3 _ => { c with mapper := .mapper3 0 }
  | .mapper4 m => { c with mapper := .mapper4 (resetMapper4 c.hwMirror m.sram) }

/-- The mapper of an identifier as it stands at load, with its static RAM (R810, D26; log 16); none for an unsupported
one (R812). -/
def newMapper (id : Nat) (hw : HeaderMirror) (sram : Memory) : Option Mapper :=
  match id with
  | 0 => some .mapper0
  | 1 => some (.mapper1 (resetMapper1 sram))
  | 2 => some (.mapper2 0)
  | 3 => some (.mapper3 0)
  | 4 => some (.mapper4 (resetMapper4 hw sram))
  | _ => none

end Sys2Proof.Machine
end

