-- ==== Sys2Proof/Machine/PpuBus.lean ====
section
/-!
DEFINITION. The PPU address space (R200-R203) and the fields of the PPU's registers (R72-R75).
-/
namespace Sys2Proof.Machine

/-- PPUCTRL's increment mode as an amount (R72, R646). -/
def vramIncrement (q : Ppu) : BitVec 15 := if q.ctrl.getLsbD 2 then 32 else 1

/-- PPUCTRL bit 4, the background pattern table's base (R72). -/
def backgroundBase (q : Ppu) : Word := if q.ctrl.getLsbD 4 then 0x1000 else 0

/-- PPUCTRL bit 7 (R72). -/
def nmiEnabled (q : Ppu) : Bool := q.ctrl.getLsbD 7

/-- PPUMASK bit 3 (R73). -/
def renderBackground (q : Ppu) : Bool := q.mask.getLsbD 3

/-- PPUMASK bit 4 (R73). -/
def renderSprites (q : Ppu) : Bool := q.mask.getLsbD 4

/-- `rendering` (R660). -/
def rendering (q : Ppu) : Bool := renderBackground q || renderSprites q

/-- Bits 4:0 of a loopy register (R75). -/
def coarseX (v : BitVec 15) : BitVec 5 := v.extractLsb' 0 5

/-- Bits 9:5 of a loopy register (R75). -/
def coarseY (v : BitVec 15) : BitVec 5 := v.extractLsb' 5 5

/-- Bit 10 of a loopy register (R75). -/
def nametableX (v : BitVec 15) : BitVec 1 := v.extractLsb' 10 1

/-- Bit 11 of a loopy register (R75). -/
def nametableY (v : BitVec 15) : BitVec 1 := v.extractLsb' 11 1

/-- Bits 14:12 of a loopy register (R75). -/
def fineY (v : BitVec 15) : BitVec 3 := v.extractLsb' 12 3

/-- A loopy register from its fields, high to low (R75). -/
def loopy (fy : BitVec 3) (ny nx : BitVec 1) (cy cx : BitVec 5) : BitVec 15 := fy ++ ny ++ nx ++ cy ++ cx

/-- `v.coarse_x <- x`. -/
def setCoarseX (v : BitVec 15) (x : BitVec 5) : BitVec 15 :=
  loopy (fineY v) (nametableY v) (nametableX v) (coarseY v) x

/-- `v.coarse_y <- y`. -/
def setCoarseY (v : BitVec 15) (y : BitVec 5) : BitVec 15 :=
  loopy (fineY v) (nametableY v) (nametableX v) y (coarseX v)

/-- `v.nametable_x <- b`. -/
def setNametableX (v : BitVec 15) (b : BitVec 1) : BitVec 15 :=
  loopy (fineY v) (nametableY v) b (coarseY v) (coarseX v)

/-- `v.nametable_y <- b`. -/
def setNametableY (v : BitVec 15) (b : BitVec 1) : BitVec 15 :=
  loopy (fineY v) b (nametableX v) (coarseY v) (coarseX v)

/-- `v.fine_y <- y`. -/
def setFineY (v : BitVec 15) (y : BitVec 3) : BitVec 15 :=
  loopy y (nametableY v) (nametableX v) (coarseY v) (coarseX v)

/-- The 14-bit PPU address of a VRAM address register, `v & 0x3FFF` (R75, R646). -/
def ppuAddressOf (v : BitVec 15) : Word := (v.setWidth 16) &&& 0x3FFF

/-- `mirror()` as the PPU sees it; with no cartridge the spec states none (log 10). -/
def currentMirroring (cart : Option Cartridge) : Mirroring :=
  match cart with
  | some c => cartMirroring c
  | none => Config.noCartridgeMirroring

/-- `NTBank` (R202). -/
def nametableBank (m : Mirroring) (a : Word) : Nat :=
  match m with
  | .vertical => (a.extractLsb' 10 1).toNat
  | .horizontal => (a.extractLsb' 11 1).toNat
  | .oneScreenLow => 0
  | .oneScreenHigh => 1

/-- The index in the nametable store of a PPU address (R200, R202). -/
def nametableIndex (m : Mirroring) (a : Word) : Nat := nametableBank m a * 1024 + a.toNat % 1024

/-- `PalIndex`: the entries 0x10, 0x14, 0x18 and 0x1C alias 0x00, 0x04, 0x08 and 0x0C (R203). -/
def paletteIndex (a : Word) : Nat :=
  let k := a.toNat % 32
  if k = 0x10 ∨ k = 0x14 ∨ k = 0x18 ∨ k = 0x1C then k - 0x10 else k

/-- The index in the internal pattern store of a PPU address below 0x2000 (R200). -/
def patternIndex (a : Word) : Nat := a.toNat % 0x2000

/-- What a PPU address reaches once the cartridge has not handled it (R200 (2)-(4)). -/
inductive PpuTarget where
  | pattern (index : Nat)
  | nametable (index : Nat)
  | palette (index : Nat)
deriving DecidableEq, Repr

/-- The PPU's own decode of a 14-bit address (R200 (2)-(4)). -/
def ppuTarget (cart : Option Cartridge) (a : Word) : PpuTarget :=
  if a.toNat < 0x2000 then .pattern (patternIndex a)
  else if a.toNat < 0x3F00 then .nametable (nametableIndex (currentMirroring cart) a)
  else .palette (paletteIndex a)

/-- The byte the PPU's own memories hold at an address. -/
def ppuOwnRead (s : State) (a : Word) : Byte :=
  match ppuTarget s.cart a with
  | .pattern k => Memory.read s.ppu.pat k
  | .nametable k => Memory.read s.ppu.nt k
  | .palette k => Memory.read s.ppu.pal k

/-- `ppu_read(addr)` (R200). It has no side effect. -/
def ppuRead (s : State) (addr : Word) : Byte :=
  let a := addr &&& 0x3FFF
  match s.cart with
  | none => ppuOwnRead s a
  | some c =>
    match ppuMapRead c a with
    | .chr offset => Memory.read c.chr offset
    | .dropped => ppuOwnRead s a
    | .notHandled => ppuOwnRead s a

/-- A write to the PPU's own memories. -/
def ppuOwnWrite (s : State) (a : Word) (v : Byte) : State :=
  match ppuTarget s.cart a with
  | .pattern k => s.setPpu { s.ppu with pat := Memory.write s.ppu.pat k v }
  | .nametable k => s.setPpu { s.ppu with nt := Memory.write s.ppu.nt k v }
  | .palette k => s.setPpu { s.ppu with pal := Memory.write s.ppu.pal k v }

/-- `ppu_write(addr, v)` (R200). -/
def ppuWrite (s : State) (addr : Word) (v : Byte) : State :=
  let a := addr &&& 0x3FFF
  match s.cart with
  | none => ppuOwnWrite s a v
  | some c =>
    match ppuMapWrite c a with
    | .chr offset => s.setCart (some { c with chr := Memory.write c.chr offset v })
    | .dropped => s
    | .notHandled => ppuOwnWrite s a v

end Sys2Proof.Machine
end

