-- ==== Sys2Proof/Machine/PpuRegs.lean ====
section
/-!
DEFINITION. The PPU's register interface as the CPU reaches it (R640-R648).
-/
namespace Sys2Proof.Machine

/-- PPUCTRL write (R640, R645). -/
def writePpuCtrl (s : State) (v : Byte) : State :=
  let t := setNametableX s.ppu.tramAddr (v.extractLsb' 0 1)
  s.setPpu { s.ppu with ctrl := v, tramAddr := setNametableY t (v.extractLsb' 1 1) }

/-- OAMDATA write (R640, D19). -/
def writeOamData (s : State) (v : Byte) : State :=
  s.setPpu { s.ppu with oam := Memory.write s.ppu.oam s.ppu.oamAddr.toNat v, oamAddr := s.ppu.oamAddr + 1 }

/-- PPUSCROLL write (R644). -/
def writePpuScroll (s : State) (v : Byte) : State :=
  if s.ppu.w then
    let t := setFineY s.ppu.tramAddr (v.extractLsb' 0 3)
    s.setPpu { s.ppu with tramAddr := setCoarseY t (v.extractLsb' 3 5), w := false }
  else
    s.setPpu { s.ppu with
      fineX := v.extractLsb' 0 3, tramAddr := setCoarseX s.ppu.tramAddr (v.extractLsb' 3 5), w := true }

/-- PPUADDR write (R646). -/
def writePpuAddr (s : State) (v : Byte) : State :=
  if s.ppu.w then
    let t := (s.ppu.tramAddr &&& 0x7F00) ||| v.setWidth 15
    s.setPpu { s.ppu with tramAddr := t, vramAddr := t, w := false }
  else
    let t := ((v.setWidth 15 &&& 0x3F) <<< 8) ||| (s.ppu.tramAddr &&& 0x00FF)
    s.setPpu { s.ppu with tramAddr := t, w := true }

/-- The increment of the VRAM address after a PPUDATA access (R646). -/
def advanceVramAddr (s : State) : State :=
  s.setPpu { s.ppu with vramAddr := s.ppu.vramAddr + vramIncrement s.ppu }

/-- PPUDATA write (R646, D49). -/
def writePpuData (s : State) (v : Byte) : State :=
  advanceVramAddr (ppuWrite s (ppuAddressOf s.ppu.vramAddr) v)

/-- CPU write of `v` to PPU register `r` (R640). -/
def writePpuRegister (s : State) (r : BitVec 3) (v : Byte) : State :=
  match r.toNat with
  | 0 => writePpuCtrl s v
  | 1 => s.setPpu { s.ppu with mask := v }
  | 2 => s
  | 3 => s.setPpu { s.ppu with oamAddr := v }
  | 4 => writeOamData s v
  | 5 => writePpuScroll s v
  | 6 => writePpuAddr s v
  | _ => writePpuData s v

/-- PPUSTATUS read: vblank from the register, bits 6:5 from the open sprite unit, bits 4:0 open; then vblank and the
write latch are cleared (R642, R672; log 5, log 6). -/
def readPpuStatus (s : State) : Byte × State :=
  let sprites := (Config.spriteStatus s.draws).setWidth 8 <<< 5
  let value := (s.ppu.status &&& 0x80) ||| sprites ||| (Config.ppuOpenBits s.draws &&& 0x1F)
  (value, (s.setPpu { s.ppu with status := s.ppu.status &&& 0x7F, w := false }).setDraws (s.draws + 1))

/-- OAMDATA read: no side effect (R643). -/
def readOamData (s : State) : Byte × State :=
  (Memory.read s.ppu.oam s.ppu.oamAddr.toNat, s)

/-- PPUDATA read: buffered one byte behind, immediate in the palette range (R646, D45). -/
def readPpuData (s : State) : Byte × State :=
  let a := ppuAddressOf s.ppu.vramAddr
  let fetched := ppuRead s a
  let value := if 0x3F00 ≤ a.toNat then fetched else s.ppu.dataBuffer
  (value, advanceVramAddr (s.setPpu { s.ppu with dataBuffer := fetched }))

/-- A read of a write-only register: an open value, no side effect (R641; log 5). -/
def readWriteOnly (s : State) : Byte × State :=
  (Config.ppuOpenBits s.draws, s.setDraws (s.draws + 1))

/-- CPU read of PPU register `r` with the read-only flag false (R641). -/
def readPpuRegister (s : State) (r : BitVec 3) : Byte × State :=
  match r.toNat with
  | 2 => readPpuStatus s
  | 4 => readOamData s
  | 7 => readPpuData s
  | _ => readWriteOnly s

end Sys2Proof.Machine
end

