-- ==== Sys2Proof/Machine/Bus.lean ====
section
/-!
DEFINITION. The system bus: the CPU address decode (R151, R152), the controller ports (R651, R652), the OAM DMA
engine (R190-R193) and the read-only debug path (R162).
-/
namespace Sys2Proof.Machine

/-- Port `k` of 0x4016 and 0x4017, `addr & 1` (R651, R652): false is port 0. -/
def State.pad (s : State) (k : Bool) : Pad := if k then s.pad1 else s.pad0

/-- Another controller port `k`. -/
def State.setPad (s : State) (k : Bool) (q : Pad) : State := if k then s.setPad1 q else s.setPad0 q

/-- A controller write (R651). -/
def padWrite (q : Pad) (v : Byte) : Pad := { q with strobe := v.getLsbD 0, shift := q.live }

/-- A controller read: the value in bit 0 and the port after it (R652). -/
def padRead (q : Pad) : Byte × Pad :=
  if q.strobe then ((q.live >>> 7), { q with shift := q.live })
  else ((q.shift >>> 7), { q with shift := q.shift <<< 1 })

/-- The byte of work RAM at an address below 0x2000 (R153). -/
def ramIndex (a : Word) : Nat := a.toNat % 2048

/-- The PPU register an address of 0x2000-0x3FFF reaches (R154). -/
def ppuRegisterOf (a : Word) : BitVec 3 := a.extractLsb' 0 3

/-- What a CPU address reaches on the bus once the cartridge has not handled it (R151 (2)-(5), R152 (2)-(6)). -/
inductive BusTarget where
  | ram (index : Nat)
  | ppu (r : BitVec 3)
  | dma
  | pad (k : Bool)
  | open
deriving DecidableEq, Repr

/-- The bus's own decode (R151-R154, R157). -/
def busTarget (a : Word) : BusTarget :=
  if a.toNat < 0x2000 then .ram (ramIndex a)
  else if a.toNat < 0x4000 then .ppu (ppuRegisterOf a)
  else if a = 0x4014 then .dma
  else if a = 0x4016 ∨ a = 0x4017 then .pad (a.getLsbD 0)
  else .open

/-- A read that the cartridge has not handled. -/
def busOwnRead (s : State) (a : Word) : Byte × State :=
  match busTarget a with
  | .ram k => (Memory.read s.ram k, s)
  | .ppu r => readPpuRegister s r
  | .dma => (0, s)
  | .pad k => ((padRead (s.pad k)).1, s.setPad k (padRead (s.pad k)).2)
  | .open => (0, s)

/-- `cpu_read(addr, ro = false)`: the byte and the state after the read's side effects (R151). -/
def cpuRead (s : State) (a : Word) : Byte × State :=
  match s.cart.bind (fun c => cartCpuRead c a) with
  | some b => (b, s)
  | none => busOwnRead s a

/-- Arming of OAM DMA (R191). -/
def armDma (v : Byte) (d : Dma) : Dma := { d with page := v, addr := 0, transfer := true, wait := true }

/-- A write that the cartridge has not handled. -/
def busOwnWrite (s : State) (a : Word) (v : Byte) : State :=
  match busTarget a with
  | .ram k => s.setRam (Memory.write s.ram k v)
  | .ppu r => writePpuRegister s r v
  | .dma => s.setDma (armDma v s.dma)
  | .pad k => s.setPad k (padWrite (s.pad k) v)
  | .open => s

/-- `cpu_write(addr, v)` (R152). -/
def cpuWrite (s : State) (a : Word) (v : Byte) : State :=
  match s.cart.bind (fun c => cartCpuWrite c a v) with
  | some c => s.setCart (some c)
  | none => busOwnWrite s a v

/-- `PeekRead(addr)`: the read-only debug path, which changes nothing (R162; log 13). -/
def peekRead (s : State) (a : Word) : Byte :=
  match s.cart.bind (fun c => cartCpuRead c a) with
  | some b => b
  | none =>
    match busTarget a with
    | .ram k => Memory.read s.ram k
    | .ppu _ => Config.debugRead s.draws s.master a
    | .dma => 0
    | .pad _ => Config.debugRead s.draws s.master a
    | .open => 0

/-- One step of OAM DMA (R190). -/
def dmaStep (s : State) : State :=
  if s.dma.wait then
    if s.master % 2 = 1 then s.setDma { s.dma with wait := false } else s
  else if s.master % 2 = 0 then
    let r := cpuRead s (s.dma.page ++ s.dma.addr)
    r.2.setDma { r.2.dma with data := r.1 }
  else
    let next := s.dma.addr + 1
    let s := s.setPpu { s.ppu with oam := Memory.write s.ppu.oam s.dma.addr.toNat s.dma.data }
    if next = 0 then s.setDma { s.dma with addr := next, transfer := false, wait := true }
    else s.setDma { s.dma with addr := next }

end Sys2Proof.Machine
end

