-- ==== Sys2Proof/Machine/Flags.lean ====
section
/-!
DEFINITION. The flags of P (R56-R64) and every flag computation of the instruction rules: `SetNZ` (R21), `AddCore`
(R400), `Compare` (R480), BIT's flags (R423).
-/
namespace Sys2Proof.Machine

/-- The eight flags of P, bit 0 first (R56). -/
inductive Flag where
  | c | z | i | d | b | u | v | n
deriving DecidableEq, Repr

/-- The bit of P that holds a flag (R56). -/
def flagBit : Flag → Nat
  | .c => 0
  | .z => 1
  | .i => 2
  | .d => 3
  | .b => 4
  | .u => 5
  | .v => 6
  | .n => 7

/-- P with one flag written. -/
def writeFlag (p : Byte) (f : Flag) (on : Bool) : Byte :=
  if on then p ||| ((1 : Byte) <<< flagBit f) else p &&& ~~~ ((1 : Byte) <<< flagBit f)

/-- `P.f` (R18). -/
def State.flag (s : State) (f : Flag) : Bool := s.cpu.p.getLsbD (flagBit f)

/-- `P.f <- on` (R18). -/
def State.setFlag (s : State) (f : Flag) (on : Bool) : State := s.setP (writeFlag s.cpu.p f on)

/-- `SetNZ(v)` (R21). -/
def setNZ (s : State) (v : Byte) : State := (s.setFlag .z (decide (v = 0))).setFlag .n (v.getLsbD 7)

/-- The 9-bit sum of `AddCore`, in 16 bits (R400). -/
def addSum (a b : Byte) (cin : Bool) : Word := a.setWidth 16 + b.setWidth 16 + (BitVec.ofBool cin).setWidth 16

/-- The result byte of `AddCore` (R400). -/
def addResult (a b : Byte) (cin : Bool) : Byte := (addSum a b cin).setWidth 8

/-- The carry of `AddCore` (R400). -/
def addCarry (a b : Byte) (cin : Bool) : Bool := decide (0xFF < (addSum a b cin).toNat)

/-- The overflow of `AddCore` (R400). -/
def addOverflow (a b : Byte) (cin : Bool) : Bool :=
  decide ((~~~ (a.setWidth 16 ^^^ b.setWidth 16) &&& (a.setWidth 16 ^^^ addSum a b cin)) &&& (0x0080 : Word) ≠ 0)

/-- The flags of `AddCore` (R400). -/
def setAddFlags (s : State) (a b : Byte) (cin : Bool) : State :=
  setNZ ((s.setFlag .c (addCarry a b cin)).setFlag .v (addOverflow a b cin)) (addResult a b cin)

/-- The flags of `Compare(reg, M)` (R480). -/
def setCompareFlags (s : State) (reg m : Byte) : State :=
  ((s.setFlag .c (decide (m.toNat ≤ reg.toNat))).setFlag .z (decide (reg = m))).setFlag .n ((reg - m).getLsbD 7)

/-- The flags of BIT: Z from A & M, N and V from M (R423). -/
def setBitFlags (s : State) (a m : Byte) : State :=
  ((s.setFlag .z (decide (a &&& m = 0))).setFlag .n (m.getLsbD 7)).setFlag .v (m.getLsbD 6)

/-- The P that PLP and RTI leave of a pulled byte: B 0, U 1 (R564, R601, D6). -/
def pulledStatus (v : Byte) : Byte := (v &&& 0xCF) ||| 0x20

/-- The byte that PHP and BRK push: B 1, U 1 (R563, R600). -/
def softwareStatus (p : Byte) : Byte := p ||| 0x30

/-- The byte that IRQ and NMI entry push: B 0, U 1 (R622, R623). -/
def interruptStatus (p : Byte) : Byte := (p &&& 0xEF) ||| 0x20

end Sys2Proof.Machine
end

