-- ==== Sys2Proof/Machine/Ops.lean ====
section
/-!
DEFINITION. The named operations of the CPU: 16-bit reads (R19), the stack (R20), the end of an instruction (R821),
taking an interrupt (R600, R622, R623) and the return from one (R601).
-/
namespace Sys2Proof.Machine

/-- `Read16(a)`: the low byte at `a`, then the high byte at `a + 1` (R19). -/
def read16 (s : State) (a : Word) : Word × State :=
  let lo := cpuRead s a
  let hi := cpuRead lo.2 (a + 1)
  (word16 hi.1 lo.1, hi.2)

/-- The address of the stack byte SP names (R54, R161). -/
def stackAddress (sp : Byte) : Word := word16 0x01 sp

/-- `Push(v)`: write, then decrement (R20). -/
def push (s : State) (v : Byte) : State :=
  let s := cpuWrite s (stackAddress s.cpu.sp) v
  s.setSp (s.cpu.sp - 1)

/-- `Pull()`: increment, then read (R20). -/
def pull (s : State) : Byte × State :=
  let s := s.setSp (s.cpu.sp + 1)
  cpuRead s (stackAddress s.cpu.sp)

/-- A 16-bit value pushed high byte first (R163, R581). -/
def pushWord (s : State) (w : Word) : State := push (push s (hiByte w)) (loByte w)

/-- A 16-bit value pulled low byte first (R582, R601). -/
def pullWord (s : State) : Word × State :=
  let lo := pull s
  let hi := pull lo.2
  (word16 hi.1 lo.1, hi.2)

/-- The end of an instruction: its base cycles and the extra ones (R321, R821). -/
def finish (i : Instr) (extra : Nat) (s : State) : State := s.setCycles (baseCycles i + extra)

/-- TAKING AN EXCEPTION: PC pushed high byte first, the status image pushed, I set, PC from the vector
(R600, R622, R623, R626). -/
def takeInterrupt (s : State) (image : Byte) (vector : Word) : State :=
  let s := push (pushWord s s.cpu.pc) image
  let v := read16 (s.setFlag .i true) vector
  v.2.setPc v.1

/-- The return from an exception: P, then PC, from the stack (R601, R629). -/
def returnFromInterrupt (s : State) : State :=
  let v := pull s
  let w := pullWord (v.2.setP (pulledStatus v.1))
  w.2.setPc w.1

/-- IRQ entry, `cpu.IRQ()`, suppressed while I is set (R622). -/
def irqEntry (s : State) : State :=
  if s.flag .i then s else (takeInterrupt s (interruptStatus s.cpu.p) 0xFFFE).setCycles 7

/-- NMI entry, `cpu.NMI()`, never suppressed (R623). -/
def nmiEntry (s : State) : State :=
  (takeInterrupt s (interruptStatus s.cpu.p) 0xFFFA).setCycles 8

/-- The poll of the NMI line (R620). -/
def pollNmi (s : State) : State :=
  if s.ppu.nmi then nmiEntry (s.setPpu { s.ppu with nmi := false }) else s

/-- The poll of the mapper's IRQ line, skipped with no cartridge (R620, D39). -/
def pollIrq (s : State) : State :=
  match s.cart with
  | none => s
  | some c => if cartIrqState c then irqEntry (s.setCart (some (cartIrqClear c))) else s

/-- Interrupt polling, NMI before IRQ (R620, R627). -/
def pollInterrupts (s : State) : State := pollIrq (pollNmi s)

end Sys2Proof.Machine
end

