-- ==== Sys2Proof/Machine/Operands.lean ====
section
/-!
DEFINITION. The addressing modes (R350-R364). The operand bytes have been fetched and PC stands after them, so a mode
with a pointer makes its pointer reads here, and the operation then makes its own accesses (R365).
-/
namespace Sys2Proof.Machine

/-- What a mode gives: the effective address, the extra-cycle signal, the state after the mode's pointer reads. -/
structure Located where
  addr : Word
  /-- `mode_extra` (R364). -/
  crossed : Bool
  state : State

/-- What an operand read gives. -/
structure Fetched where
  value : Byte
  /-- `mode_extra` (R364). -/
  crossed : Bool
  state : State

/-- The indexed address lies on another page than its base (R364). -/
def pageCrossed (ea base : Word) : Bool := decide (hiByte ea ≠ hiByte base)

/-- A pointer in page zero, low byte first; both bytes lie in page zero (R361, R362). -/
def zeroPagePointer (s : State) (z : Byte) : Word × State :=
  let lo := cpuRead s (zeroPage z)
  let hi := cpuRead lo.2 (zeroPage (z + 1))
  (word16 hi.1 lo.1, hi.2)

/-- A base address indexed by a register, with the page-crossing signal (R358, R359, R362). -/
def indexed (base : Word) (index : Byte) (s : State) : Located :=
  let ea := base + index.setWidth 16
  ⟨ea, pageCrossed ea base, s⟩

/-- The effective address of a mode (R353-R362). IMM's is that of the operand byte, the last one fetched. -/
def locate (m : Addr) (s : State) : Located :=
  match m with
  | .imm _ => ⟨s.cpu.pc - 1, false, s⟩
  | .zp0 z => ⟨zeroPage z, false, s⟩
  | .zpx z => ⟨zeroPage (z + s.cpu.x), false, s⟩
  | .zpy z => ⟨zeroPage (z + s.cpu.y), false, s⟩
  | .abs w => ⟨w, false, s⟩
  | .abx w => indexed w s.cpu.x s
  | .aby w => indexed w s.cpu.y s
  | .izx z => let p := zeroPagePointer s (z + s.cpu.x); ⟨p.1, false, p.2⟩
  | .izy z => let p := zeroPagePointer s z; indexed p.1 s.cpu.y p.2

/-- One read at an effective address (R350). -/
def readAt (e : Located) : Fetched :=
  let r := cpuRead e.state e.addr
  ⟨r.1, e.crossed, r.2⟩

/-- `Operand()` (R350). IMM's one read of its effective address is the fetch of the operand byte, which has been made
(R353; log 18). -/
def operand (m : Addr) (s : State) : Fetched :=
  match m with
  | .imm v => ⟨v, false, s⟩
  | .zp0 z => readAt (locate (.zp0 z) s)
  | .zpx z => readAt (locate (.zpx z) s)
  | .zpy z => readAt (locate (.zpy z) s)
  | .abs w => readAt (locate (.abs w) s)
  | .abx w => readAt (locate (.abx w) s)
  | .aby w => readAt (locate (.aby w) s)
  | .izx z => readAt (locate (.izx z) s)
  | .izy z => readAt (locate (.izy z) s)

/-- A store to the effective address, which is not read (R350, R523). -/
def storeTo (m : Addr) (v : Byte) (s : State) : State :=
  let e := locate m s
  cpuWrite e.state e.addr v

/-- A read-modify-write of memory: one read, the flags and the result, one write (R444). `f` gives the result and the
state with its flags, from the byte read and the state after the read. -/
def modify (m : Addr) (f : Byte → State → Byte × State) (s : State) : State :=
  let e := locate m s
  let r := cpuRead e.state e.addr
  let t := f r.1 r.2
  cpuWrite t.2 e.addr t.1

/-- The same on the operand of a shift, with the explicit branch on where it is written back (R23). -/
def modifyShift (t : ShiftOperand) (f : Byte → State → Byte × State) (s : State) : State :=
  match t with
  | .acc => let r := f s.cpu.a s; r.2.setA r.1
  | .mem m => modify m f s

/-- The address JMP goes to, with IND's page-wrap bug (R357, R360, R580). -/
def jumpAddress (t : JumpTarget) (s : State) : Word × State :=
  match t with
  | .abs w => (w, s)
  | .ind ptr =>
    let lo := cpuRead s ptr
    let hi := cpuRead lo.2 (word16 (hiByte ptr) (loByte ptr + 1))
    (word16 hi.1 lo.1, hi.2)

/-- The target of a branch from the address after it (R363). -/
def branchTarget (pc : Word) (rel : Byte) : Word := pc + relOffset rel

/-- The extra cycles of a branch (R460, R469). -/
def branchExtra (taken : Bool) (pc target : Word) : Nat :=
  if taken then 1 + (pageCrossed target pc).toNat else 0

/-- `Branch(cond)` (R460). -/
def branch (i : Instr) (taken : Bool) (rel : Byte) (s : State) : State :=
  let target := branchTarget s.cpu.pc rel
  let t := if taken then s.setPc target else s
  finish i (branchExtra taken s.cpu.pc target) t

end Sys2Proof.Machine
end

