-- ==== Sys2Proof/Machine/Arithmetic.lean ====
section
/-!
DEFINITION. ADC and SBC (41_arithmetic.md).
-/
namespace Sys2Proof.Machine

/-- A <- AddCore(A, b, C) with its flags; D has no effect (R400, R405). -/
def addToA (s : State) (b : Byte) : State :=
  (setAddFlags s s.cpu.a b (s.flag .c)).setA (addResult s.cpu.a b (s.flag .c))

/-- ADC (R401). -/
def execAdc (m : Addr) (s : State) : Result :=
  let o := operand m s
  .next (finish (.adc m) o.crossed.toNat (addToA o.state o.value))

/-- SBC: the one's complement of the operand added (R402). -/
def execSbc (m : Addr) (s : State) : Result :=
  let o := operand m s
  .next (finish (.sbc m) o.crossed.toNat (addToA o.state (o.value ^^^ 0xFF)))

end Sys2Proof.Machine
end

