-- ==== Sys2Proof/Machine/Branch.lean ====
section
/-!
DEFINITION. The eight conditional branches (44_branch.md).
-/
namespace Sys2Proof.Machine

/-- BCC: branch if carry clear (R461). -/
def execBcc (rel : Byte) (s : State) : Result := .next (branch (.bcc rel) (!s.flag .c) rel s)

/-- BCS: branch if carry set (R462). -/
def execBcs (rel : Byte) (s : State) : Result := .next (branch (.bcs rel) (s.flag .c) rel s)

/-- BEQ: branch if equal, Z set (R463). -/
def execBeq (rel : Byte) (s : State) : Result := .next (branch (.beq rel) (s.flag .z) rel s)

/-- BNE: branch if not equal, Z clear (R464). -/
def execBne (rel : Byte) (s : State) : Result := .next (branch (.bne rel) (!s.flag .z) rel s)

/-- BMI: branch if minus, N set (R465). -/
def execBmi (rel : Byte) (s : State) : Result := .next (branch (.bmi rel) (s.flag .n) rel s)

/-- BPL: branch if plus, N clear (R466). -/
def execBpl (rel : Byte) (s : State) : Result := .next (branch (.bpl rel) (!s.flag .n) rel s)

/-- BVC: branch if overflow clear (R467). -/
def execBvc (rel : Byte) (s : State) : Result := .next (branch (.bvc rel) (!s.flag .v) rel s)

/-- BVS: branch if overflow set (R468). -/
def execBvs (rel : Byte) (s : State) : Result := .next (branch (.bvs rel) (s.flag .v) rel s)

end Sys2Proof.Machine
end

