-- ==== Sys2Proof/Machine/Compare.lean ====
section
/-!
DEFINITION. CMP, CPX, CPY (45_compare.md).
-/
namespace Sys2Proof.Machine

/-- CMP (R481). -/
def execCmp (m : Addr) (s : State) : Result :=
  let o := operand m s
  .next (finish (.cmp m) o.crossed.toNat (setCompareFlags o.state o.state.cpu.a o.value))

/-- CPX (R482). -/
def execCpx (m : Addr) (s : State) : Result :=
  let o := operand m s
  .next (finish (.cpx m) 0 (setCompareFlags o.state o.state.cpu.x o.value))

/-- CPY (R483). -/
def execCpy (m : Addr) (s : State) : Result :=
  let o := operand m s
  .next (finish (.cpy m) 0 (setCompareFlags o.state o.state.cpu.y o.value))

end Sys2Proof.Machine
end

