-- ==== Sys2Proof/Machine/Control.lean ====
section
/-!
DEFINITION. Jumps, subroutines, BRK and RTI, the flag instructions, NOP and the illegal-opcode handler (49_subroutine_flag_nop.md).
-/
namespace Sys2Proof.Machine

/-- JMP (R580). -/
def execJmp (t : JumpTarget) (s : State) : Result :=
  let a := jumpAddress t s
  .next (finish (.jmp t) 0 (a.2.setPc a.1))

/-- JSR: the address of its last byte is pushed (R581). -/
def execJsr (target : Word) (s : State) : Result :=
  .next (finish (.jsr target) 0 ((pushWord s (s.cpu.pc - 1)).setPc target))

/-- RTS (R582). -/
def execRts (s : State) : Result :=
  let w := pullWord s
  .next (finish .rts 0 (w.2.setPc (w.1 + 1)))

/-- BRK: the byte after it is skipped, then the interrupt is taken (R600, R302). -/
def execBrk (s : State) : Result :=
  .next (finish .brk 0 (takeInterrupt (s.setPc (s.cpu.pc + 1)) (softwareStatus s.cpu.p) 0xFFFE))

/-- RTI (R601). -/
def execRti (s : State) : Result := .next (finish .rti 0 (returnFromInterrupt s))

/-- CLC: clear carry (R602). -/
def execClc (s : State) : Result := .next (finish .clc 0 (s.setFlag .c false))

/-- SEC: set carry (R603). -/
def execSec (s : State) : Result := .next (finish .sec 0 (s.setFlag .c true))

/-- CLI: clear interrupt disable (R604). -/
def execCli (s : State) : Result := .next (finish .cli 0 (s.setFlag .i false))

/-- SEI: set interrupt disable (R605). -/
def execSei (s : State) : Result := .next (finish .sei 0 (s.setFlag .i true))

/-- CLD: clear decimal (R606). -/
def execCld (s : State) : Result := .next (finish .cld 0 (s.setFlag .d false))

/-- SED: set decimal (R607). -/
def execSed (s : State) : Result := .next (finish .sed 0 (s.setFlag .d true))

/-- CLV: clear overflow (R608). -/
def execClv (s : State) : Result := .next (finish .clv 0 (s.setFlag .v false))

/-- NOP (R610). -/
def execNop (s : State) : Result := .next (finish .nop 0 s)

/-- The do-nothing handler of an illegal opcode: PC moves past the open length, the operand bytes unread, and the cycle
count is open (R612, D10; log 9). -/
def execIllegal (op : Byte) (s : State) : Result :=
  .next (finish (.illegal op) 0 (s.setPc (s.cpu.pc + BitVec.ofNat 16 (Config.illegalLenPred op).val)))

end Sys2Proof.Machine
end

