-- ==== Sys2Proof/Machine/IncDec.lean ====
section
/-!
DEFINITION. INC, DEC, INX, INY, DEX, DEY (46_incdec.md).
-/
namespace Sys2Proof.Machine

/-- One more, with Z and N (R500). -/
def incByte (v : Byte) (s : State) : Byte × State := (v + 1, setNZ s (v + 1))

/-- One less, with Z and N (R501). -/
def decByte (v : Byte) (s : State) : Byte × State := (v - 1, setNZ s (v - 1))

/-- INC (R500). -/
def execInc (m : Addr) (s : State) : Result := .next (finish (.inc m) 0 (modify m incByte s))

/-- DEC (R501). -/
def execDec (m : Addr) (s : State) : Result := .next (finish (.dec m) 0 (modify m decByte s))

/-- INX (R502). -/
def execInx (s : State) : Result := .next (finish .inx 0 ((setNZ s (s.cpu.x + 1)).setX (s.cpu.x + 1)))

/-- INY (R503). -/
def execIny (s : State) : Result := .next (finish .iny 0 ((setNZ s (s.cpu.y + 1)).setY (s.cpu.y + 1)))

/-- DEX (R504). -/
def execDex (s : State) : Result := .next (finish .dex 0 ((setNZ s (s.cpu.x - 1)).setX (s.cpu.x - 1)))

/-- DEY (R505). -/
def execDey (s : State) : Result := .next (finish .dey 0 ((setNZ s (s.cpu.y - 1)).setY (s.cpu.y - 1)))

end Sys2Proof.Machine
end

