-- ==== Sys2Proof/Machine/LoadStore.lean ====
section
/-!
DEFINITION. Loads, stores and register transfers (47_load_store_transfer.md).
-/
namespace Sys2Proof.Machine

/-- LDA (R520). -/
def execLda (m : Addr) (s : State) : Result :=
  let o := operand m s
  .next (finish (.lda m) o.crossed.toNat ((setNZ o.state o.value).setA o.value))

/-- LDX (R521). -/
def execLdx (m : Addr) (s : State) : Result :=
  let o := operand m s
  .next (finish (.ldx m) o.crossed.toNat ((setNZ o.state o.value).setX o.value))

/-- LDY (R522). -/
def execLdy (m : Addr) (s : State) : Result :=
  let o := operand m s
  .next (finish (.ldy m) o.crossed.toNat ((setNZ o.state o.value).setY o.value))

/-- STA (R523). -/
def execSta (m : Addr) (s : State) : Result := .next (finish (.sta m) 0 (storeTo m s.cpu.a s))

/-- STX (R524). -/
def execStx (m : Addr) (s : State) : Result := .next (finish (.stx m) 0 (storeTo m s.cpu.x s))

/-- STY (R525). -/
def execSty (m : Addr) (s : State) : Result := .next (finish (.sty m) 0 (storeTo m s.cpu.y s))

/-- TAX (R526). -/
def execTax (s : State) : Result := .next (finish .tax 0 ((setNZ s s.cpu.a).setX s.cpu.a))

/-- TAY (R527). -/
def execTay (s : State) : Result := .next (finish .tay 0 ((setNZ s s.cpu.a).setY s.cpu.a))

/-- TXA (R528). -/
def execTxa (s : State) : Result := .next (finish .txa 0 ((setNZ s s.cpu.x).setA s.cpu.x))

/-- TYA (R529). -/
def execTya (s : State) : Result := .next (finish .tya 0 ((setNZ s s.cpu.y).setA s.cpu.y))

/-- TSX (R530). -/
def execTsx (s : State) : Result := .next (finish .tsx 0 ((setNZ s s.cpu.sp).setX s.cpu.sp))

/-- TXS, which leaves the flags alone (R531). -/
def execTxs (s : State) : Result := .next (finish .txs 0 (s.setSp s.cpu.x))

end Sys2Proof.Machine
end

