-- ==== Sys2Proof/Machine/Logical.lean ====
section
/-!
DEFINITION. AND, ORA, EOR, BIT (42_logical.md).
-/
namespace Sys2Proof.Machine

/-- A and its Z and N (R420-R422). -/
def loadA (s : State) (v : Byte) : State := (setNZ s v).setA v

/-- AND (R420). -/
def execAnd (m : Addr) (s : State) : Result :=
  let o := operand m s
  .next (finish (.and m) o.crossed.toNat (loadA o.state (o.state.cpu.a &&& o.value)))

/-- ORA (R421). -/
def execOra (m : Addr) (s : State) : Result :=
  let o := operand m s
  .next (finish (.ora m) o.crossed.toNat (loadA o.state (o.state.cpu.a ||| o.value)))

/-- EOR (R422). -/
def execEor (m : Addr) (s : State) : Result :=
  let o := operand m s
  .next (finish (.eor m) o.crossed.toNat (loadA o.state (o.state.cpu.a ^^^ o.value)))

/-- BIT (R423). -/
def execBit (m : Addr) (s : State) : Result :=
  let o := operand m s
  .next (finish (.bit m) 0 (setBitFlags o.state o.state.cpu.a o.value))

end Sys2Proof.Machine
end

