-- ==== Sys2Proof/Machine/Shift.lean ====
section
/-!
DEFINITION. ASL, LSR, ROL, ROR (43_shift_rotate.md).
-/
namespace Sys2Proof.Machine

/-- The carry and the Z and N of a shift's result (R440-R443). -/
def shiftFlags (s : State) (carry : Bool) (r : Byte) : State := setNZ (s.setFlag .c carry) r

/-- ASL of one byte (R440). -/
def aslByte (v : Byte) (s : State) : Byte × State :=
  let r := v <<< 1
  (r, shiftFlags s (v.getLsbD 7) r)

/-- LSR of one byte (R441). -/
def lsrByte (v : Byte) (s : State) : Byte × State :=
  let r := v >>> 1
  (r, shiftFlags s (v.getLsbD 0) r)

/-- ROL of one byte through the carry (R442). -/
def rolByte (v : Byte) (s : State) : Byte × State :=
  let r := (v <<< 1) ||| (BitVec.ofBool (s.flag .c)).setWidth 8
  (r, shiftFlags s (v.getLsbD 7) r)

/-- ROR of one byte through the carry (R443). -/
def rorByte (v : Byte) (s : State) : Byte × State :=
  let r := ((BitVec.ofBool (s.flag .c)).setWidth 8 <<< 7) ||| (v >>> 1)
  (r, shiftFlags s (v.getLsbD 0) r)

/-- ASL (R440). -/
def execAsl (t : ShiftOperand) (s : State) : Result :=
  .next (finish (.asl t) 0 (modifyShift t aslByte s))

/-- LSR (R441). -/
def execLsr (t : ShiftOperand) (s : State) : Result :=
  .next (finish (.lsr t) 0 (modifyShift t lsrByte s))

/-- ROL (R442). -/
def execRol (t : ShiftOperand) (s : State) : Result :=
  .next (finish (.rol t) 0 (modifyShift t rolByte s))

/-- ROR (R443). -/
def execRor (t : ShiftOperand) (s : State) : Result :=
  .next (finish (.ror t) 0 (modifyShift t rorByte s))

end Sys2Proof.Machine
end

