-- ==== Sys2Proof/Machine/Stack.lean ====
section
/-!
DEFINITION. PHA, PLA, PHP, PLP (48_stack.md).
-/
namespace Sys2Proof.Machine

/-- PHA (R561). -/
def execPha (s : State) : Result := .next (finish .pha 0 (push s s.cpu.a))

/-- PLA (R562). -/
def execPla (s : State) : Result :=
  let v := pull s
  .next (finish .pla 0 ((setNZ v.2 v.1).setA v.1))

/-- PHP (R563). -/
def execPhp (s : State) : Result := .next (finish .php 0 (push s (softwareStatus s.cpu.p)))

/-- PLP (R564). -/
def execPlp (s : State) : Result :=
  let v := pull s
  .next (finish .plp 0 (v.2.setP (pulledStatus v.1)))

end Sys2Proof.Machine
end

