-- ==== Sys2Proof/Machine/PpuPipeline.lean ====
section
/-!
DEFINITION. One PPU cycle: the actions at the current raster position in the order of R654 (R655, R661-R671, R673)
and the advance of the position.
-/
namespace Sys2Proof.Machine

/-- The visible and pre-render scanlines, -1 to 239 (R660). -/
def renderLine (q : Ppu) : Bool := decide (-1 ≤ q.scanline) && decide (q.scanline ≤ 239)

/-- The cycles of the fetch window (R661). -/
def inFetchWindow (cycle : Nat) : Bool :=
  (decide (2 ≤ cycle) && decide (cycle ≤ 257)) || (decide (321 ≤ cycle) && decide (cycle ≤ 337))

/-- Vertical blank: set with the NMI at (241, 1), cleared with the sprite bits at (-1, 1) (R655). -/
def verticalBlank (q : Ppu) : Ppu :=
  if q.scanline = 241 ∧ q.cycle = 1 then
    { q with status := q.status ||| 0x80, nmi := q.nmi || nmiEnabled q }
  else if q.scanline = -1 ∧ q.cycle = 1 then { q with status := q.status &&& 0x1F }
  else q

/-- The shift of the four background registers (R662). -/
def shiftBackground (q : Ppu) : Ppu :=
  if renderBackground q then
    { q with bgPatLo := q.bgPatLo <<< 1, bgPatHi := q.bgPatHi <<< 1,
             bgAttLo := q.bgAttLo <<< 1, bgAttHi := q.bgAttHi <<< 1 }
  else q

/-- The low byte of a shift register replaced (R663). -/
def reloadLow (r : Word) (b : Byte) : Word := (r &&& 0xFF00) ||| b.setWidth 16

/-- The reload of the four shift registers from the next-tile latches (R663). -/
def reloadBackground (q : Ppu) : Ppu :=
  { q with
    bgPatLo := reloadLow q.bgPatLo q.bgNextLo
    bgPatHi := reloadLow q.bgPatHi q.bgNextHi
    bgAttLo := reloadLow q.bgAttLo (if q.bgNextAttr.getLsbD 0 then 0xFF else 0)
    bgAttHi := reloadLow q.bgAttHi (if q.bgNextAttr.getLsbD 1 then 0xFF else 0) }

/-- The address of the tile id fetch (R661, R668). -/
def tileAddress (q : Ppu) : Word := 0x2000 ||| ((q.vramAddr.setWidth 16) &&& 0x0FFF)

/-- The address of the attribute fetch (R664). -/
def attributeAddress (v : BitVec 15) : Word :=
  0x23C0 ||| ((nametableY v).setWidth 16 <<< 11) ||| ((nametableX v).setWidth 16 <<< 10)
    ||| (((coarseY v >>> 2).setWidth 16) <<< 3) ||| (coarseX v >>> 2).setWidth 16

/-- The quadrant of an attribute byte (R664). -/
def attributeQuadrant (v : BitVec 15) (a : Byte) : Byte :=
  let a := if (coarseY v).getLsbD 1 then a >>> 4 else a
  let a := if (coarseX v).getLsbD 1 then a >>> 2 else a
  a &&& 0x03

/-- The address of the low pattern byte of the next tile (R661). -/
def patternAddress (q : Ppu) : Word :=
  backgroundBase q + (q.bgNextId.setWidth 16 <<< 4) + (fineY q.vramAddr).setWidth 16

/-- The tile id fetch (R661, R668). -/
def fetchTileId (s : State) : State :=
  s.setPpu { s.ppu with bgNextId := ppuRead s (tileAddress s.ppu) }

/-- The attribute fetch (R664). -/
def fetchAttribute (s : State) : State :=
  let a := ppuRead s (attributeAddress s.ppu.vramAddr)
  s.setPpu { s.ppu with bgNextAttr := attributeQuadrant s.ppu.vramAddr a }

/-- The low pattern byte fetch (R661). -/
def fetchPatternLow (s : State) : State :=
  s.setPpu { s.ppu with bgNextLo := ppuRead s (patternAddress s.ppu) }

/-- The high pattern byte fetch (R661). -/
def fetchPatternHigh (s : State) : State :=
  s.setPpu { s.ppu with bgNextHi := ppuRead s (patternAddress s.ppu + 8) }

/-- The coarse-X increment of a VRAM address (R665). -/
def nextCoarseX (v : BitVec 15) : BitVec 15 :=
  if coarseX v = 31 then setNametableX (setCoarseX v 0) (~~~ (nametableX v))
  else setCoarseX v (coarseX v + 1)

/-- The coarse-X increment, gated by rendering (R665). -/
def incrementCoarseX (q : Ppu) : Ppu :=
  if rendering q then { q with vramAddr := nextCoarseX q.vramAddr } else q

/-- The fetch window: shift, then the action of the cycle (R661). -/
def fetchWindow (s : State) : State :=
  if renderLine s.ppu && inFetchWindow s.ppu.cycle then
    let s := s.setPpu (shiftBackground s.ppu)
    match (s.ppu.cycle - 1) % 8 with
    | 0 => fetchTileId (s.setPpu (reloadBackground s.ppu))
    | 2 => fetchAttribute s
    | 4 => fetchPatternLow s
    | 6 => fetchPatternHigh s
    | 7 => s.setPpu (incrementCoarseX s.ppu)
    | _ => s
  else s

/-- The Y increment of a VRAM address (R666). -/
def nextY (v : BitVec 15) : BitVec 15 :=
  if fineY v < 7 then setFineY v (fineY v + 1)
  else
    let v' := setFineY v 0
    if coarseY v = 29 then setNametableY (setCoarseY v' 0) (~~~ (nametableY v))
    else if coarseY v = 31 then setCoarseY v' 0
    else setCoarseY v' (coarseY v + 1)

/-- The Y increment at cycle 256 (R666). -/
def incrementY (q : Ppu) : Ppu :=
  if renderLine q && decide (q.cycle = 256) && rendering q then { q with vramAddr := nextY q.vramAddr } else q

/-- The copy of the X fields of `t` into `v` (R667). -/
def copyX (v t : BitVec 15) : BitVec 15 := setCoarseX (setNametableX v (nametableX t)) (coarseX t)

/-- The copy of the Y fields of `t` into `v` (R669). -/
def copyY (v t : BitVec 15) : BitVec 15 :=
  setCoarseY (setNametableY (setFineY v (fineY t)) (nametableY t)) (coarseY t)

/-- The reload and the X copy at cycle 257 (R667). -/
def reloadAndCopyX (q : Ppu) : Ppu :=
  if renderLine q && decide (q.cycle = 257) then
    let q := reloadBackground q
    if rendering q then { q with vramAddr := copyX q.vramAddr q.tramAddr } else q
  else q

/-- The idle tile id fetches at cycles 338 and 340 (R668). -/
def idleFetches (s : State) : State :=
  if renderLine s.ppu && (decide (s.ppu.cycle = 338) || decide (s.ppu.cycle = 340)) then fetchTileId s else s

/-- The Y copy of the pre-render line (R669). -/
def copyYOnPreRender (q : Ppu) : Ppu :=
  if q.scanline = -1 ∧ 280 ≤ q.cycle ∧ q.cycle ≤ 304 ∧ rendering q = true then
    { q with vramAddr := copyY q.vramAddr q.tramAddr }
  else q

/-- The mapper's scanline hook at cycle 260 (R673). -/
def scanlineHook (s : State) : State :=
  if renderLine s.ppu && decide (s.ppu.cycle = 260) && rendering s.ppu then s.setCart (s.cart.map cartScanline)
  else s

/-- One bit of a background shift register, at the fine-X position (R670). -/
def muxBit (q : Ppu) (r : Word) : Bool := decide (r &&& ((0x8000 : Word) >>> q.fineX.toNat) ≠ 0)

/-- A two-bit number from its high and low bits (R670). -/
def twoBits (high low : Bool) : Nat := 2 * high.toNat + low.toNat

/-- The background pixel and its palette (R670). -/
def backgroundPixel (q : Ppu) : Nat × Nat :=
  if renderBackground q then
    (twoBits (muxBit q q.bgPatHi) (muxBit q q.bgPatLo), twoBits (muxBit q q.bgAttHi) (muxBit q q.bgAttLo))
  else (0, 0)

/-- The colour index of a pixel and palette (R671, D47). -/
def colourIndex (s : State) (pixel palette : Nat) : BitVec 6 :=
  (ppuRead s (0x3F00 + BitVec.ofNat 16 (4 * palette + pixel))).setWidth 6

/-- The raster position lies in the frame buffer (R671, D44). -/
def onScreen (q : Ppu) : Bool :=
  decide (1 ≤ q.cycle) && decide (q.cycle ≤ 256) && decide (0 ≤ q.scanline) && decide (q.scanline ≤ 239)

/-- The index in the frame buffer of the raster position (R671). -/
def screenIndex (q : Ppu) : Nat := q.scanline.toNat * 256 + (q.cycle - 1)

/-- The output pixel: the background colour, or the open sprite unit's pixel while sprites are rendered (R670-R672;
log 6, log 7). -/
def outputPixel (s : State) : State :=
  if onScreen s.ppu then
    if renderSprites s.ppu then
      (s.setPpu { s.ppu with screen := screenWrite s.ppu.screen (screenIndex s.ppu) (.drawn s.draws) }).setDraws
        (s.draws + 1)
    else
      let bg := backgroundPixel s.ppu
      let c := colourIndex s bg.1 bg.2
      s.setPpu { s.ppu with screen := screenWrite s.ppu.screen (screenIndex s.ppu) (.colour c) }
  else s

/-- The advance of the raster position (R654). -/
def advanceRaster (q : Ppu) : Ppu :=
  if q.cycle + 1 = 341 then
    if q.scanline + 1 = 261 then
      { q with cycle := 0, scanline := -1, scanlineComplete := true, frameComplete := true }
    else { q with cycle := 0, scanline := q.scanline + 1, scanlineComplete := true }
  else { q with cycle := q.cycle + 1 }

/-- One PPU cycle, `ppu.clock()` (R654, R820). -/
def ppuClock (s : State) : State :=
  let s := s.setPpu (verticalBlank s.ppu)
  let s := fetchWindow s
  let s := s.setPpu (incrementY s.ppu)
  let s := s.setPpu (reloadAndCopyX s.ppu)
  let s := idleFetches s
  let s := s.setPpu (copyYOnPreRender s.ppu)
  let s := scanlineHook s
  let s := outputPixel s
  s.setPpu (advanceRaster s.ppu)

end Sys2Proof.Machine
end

