-- ==== Sys2Proof/Machine/Clock.lean ====
section
/-!
DEFINITION. The instruction fetch, the CPU cycle (R821) and the master tick (R820), and where a byte must be stored so
that the fetch finds it.
-/
namespace Sys2Proof.Machine

/-- `Fetch8()`: the byte at PC, through the bus, and PC moved on (R55, R214). -/
def fetchByte (s : State) : Byte × State :=
  let r := cpuRead s s.cpu.pc
  (r.1, r.2.setPc (r.2.cpu.pc + 1))

/-- The instruction at PC and the state after its opcode and operand bytes have been fetched in order (R300, R365,
R821). -/
def fetchInstr (s : State) : Instr × State :=
  let op := fetchByte s
  match operandCount op.1 with
  | 0 => (decodeBytes op.1 0 0, op.2)
  | 1 =>
    let b1 := fetchByte op.2
    (decodeBytes op.1 b1.1 0, b1.2)
  | _ =>
    let b1 := fetchByte op.2
    let b2 := fetchByte b1.2
    (decodeBytes op.1 b1.1 b2.1, b2.2)

/-- A function of the next state, where there is one. -/
def mapNext (f : State → State) : Result → Result
  | .next s => .next (f s)
  | .fault r => .fault r
  | .refused r => .refused r

/-- The end of a CPU cycle: the counter goes down by one (R821). -/
def countDown (s : State) : State := s.setCycles (s.cpu.cycles - 1)

/-- The end of an execute tick: `P.U <- 1`, then the count (R57, R821). -/
def endExecute (s : State) : State := countDown (s.setFlag .u true)

/-- `cpu.clock()`, one CPU cycle (R821). -/
def cpuClock (s : State) : Result :=
  if s.cpu.cycles = 0 then
    let f := fetchInstr s
    mapNext endExecute (exec f.1 f.2)
  else .next (countDown s)

/-- This master tick is a CPU tick (R820, D23). -/
def cpuTick (s : State) : Bool := decide (s.master % 3 = 0)

/-- The CPU or the DMA engine on a CPU tick (R192, R820). -/
def cpuOrDma (s : State) : Result :=
  if s.dma.transfer then .next (dmaStep s) else cpuClock s

/-- The end of a master tick: interrupt polling, then `master` moves on (R620, R820). -/
def endTick (s : State) : State :=
  let s := pollInterrupts s
  s.setMaster (s.master + 1)

/-- `Bus.Clock()`, one master tick: the PPU cycle, on every third tick the CPU or the DMA engine, the end of the tick
(R820). The PPU cycle does not change `master`. -/
def busClock (s : State) : Result :=
  if cpuTick s then mapNext endTick (cpuOrDma (ppuClock s)) else .next (endTick (ppuClock s))

/-- A byte put where the fetch at an address reads it, if storage answers there: work RAM, mapper-owned static RAM or
the program store. -/
def pokeFetch (s : State) (a : Word) (v : Byte) : Option State :=
  match s.cart with
  | none =>
    match busTarget a with
    | .ram k => some (s.setRam (Memory.write s.ram k v))
    | .ppu _ => none
    | .dma => none
    | .pad _ => none
    | .open => none
  | some c =>
    match cpuMapRead c a with
    | .prg offset =>
      if prgOffsetsKnown c && decide (offset < c.nPrg.toNat * 16384) then
        some (s.setCart (some { c with prg := Memory.write c.prg offset v }))
      else none
    | .sram _ => (cartCpuWrite c a v).map (fun c => s.setCart (some c))
    | .notHandled =>
      match busTarget a with
      | .ram k => some (s.setRam (Memory.write s.ram k v))
      | .ppu _ => none
      | .dma => none
      | .pad _ => none
      | .open => none

/-- Three bytes put at PC and the two addresses after it. -/
def pokeInstr (s : State) (b0 b1 b2 : Byte) : Option State :=
  ((pokeFetch s s.cpu.pc b0).bind (fun t => pokeFetch t (s.cpu.pc + 1) b1)).bind
    (fun t => pokeFetch t (s.cpu.pc + 2) b2)

/-- The state in which the next master tick is a CPU tick that fetches: no transfer in flight, no cycles left, `master`
at a multiple of three. -/
def readyToFetch (s : State) : State :=
  ((s.setDma { s.dma with transfer := false }).setCycles 0).setMaster (s.master - s.master % 3)

/-- Three bytes put where the next step fetches them: at PC, or at work RAM's first bytes with PC there when no storage
answers at PC (log 15). -/
def placeInstr (s : State) (b0 b1 b2 : Byte) : State :=
  let s := readyToFetch s
  match pokeInstr s b0 b1 b2 with
  | some t => t
  | none =>
    let r := Memory.write (Memory.write (Memory.write s.ram 0 b0) 1 b1) 2 b2
    (s.setRam r).setPc 0

end Sys2Proof.Machine
end

