-- ==== Sys2Proof/Machine/Step.lean ====
section
/-!
DEFINITION. One step of the machine: one master tick (R13(b), R820; log 1).
-/
namespace Sys2Proof.Machine

/-- One step: `Bus.Clock()`. -/
def step (s : State) : Host.Outcome State Fault Refusal := busClock s

/-- The state with the instruction whose bits are `w` (bits from `nbits` on are 0) stored where the very next step
fetches and runs it (log 15). -/
def State.withFetchWord (s : State) (nbits w : Nat) : State :=
  let bits := w % 2 ^ nbits
  placeInstr s (BitVec.ofNat 8 bits) (BitVec.ofNat 8 (bits / 256)) (BitVec.ofNat 8 (bits / 65536))

end Sys2Proof.Machine
end

