-- ==== Sys2Proof/Machine/HostActions.lean ====
section
/-!
DEFINITION. Power-on (R800), and what the host may do between master ticks (R760): reset (R802), cartridge load (R810-R812), the controller
states (R650), the completion flags (R656), and what it may read (R671, R721, R780).
-/
namespace Sys2Proof.Machine

/-- `POWERON_MEM`: the bytes that each memory of the machine holds at power-on, index 0 first (R800, D9). -/
structure PowerOnMem where
  ram : List Byte
  oam : List Byte
  nt : List Byte
  pal : List Byte
  pat : List Byte
deriving DecidableEq, Repr

/-- The PPU at power-on: its memories from `POWERON_MEM` and its frame buffer open (R89, R800; log 8). The spec gives its
registers, latches and raster position only after reset (R89), so they are an argument, the fields of `regs`: DESIGN CHOICE
(log 16). `reset()` writes them before the first tick (R802). -/
def ppuPowerOn (mem : PowerOnMem) (regs : Ppu) : Ppu :=
  { regs with
    oam := storeOfSize 256 mem.oam
    nt := storeOfSize 2048 mem.nt
    pal := storeOfSize 32 mem.pal
    pat := storeOfSize 8192 mem.pat
    screen := [] }

/-- The machine at power-on with no cartridge: the bus values of R88, and as arguments `POWERON_MEM` and the registers of
the CPU and of the PPU, which the spec gives only after reset (R87, R89, R800; log 16). U is 1 from power-on on (R57). -/
def powerOn (mem : PowerOnMem) (cpu : Cpu) (regs : Ppu) : State :=
  { State.reset with cpu := { cpu with p := cpu.p ||| 0x20 }, ram := storeOfSize 2048 mem.ram, ppu := ppuPowerOn mem regs }

/-- `cpu.Reset()`, with `RESET_AXY` as arguments; the vector is read through the bus (R802 (2), D8). -/
def cpuReset (a x y : Byte) (s : State) : State :=
  let v := read16 ((((((s.setA a).setX x).setY y).setSp 0xFD).setP 0x34)) 0xFFFC
  (v.2.setPc v.1).setCycles 8

/-- `ppu.reset()`: latches, shifters and registers zeroed, the memories and the frame buffer kept (R89, R802 (3)). -/
def ppuReset (q : Ppu) : Ppu :=
  { Ppu.reset with oam := q.oam, nt := q.nt, pal := q.pal, pat := q.pat, screen := q.screen }

/-- A controller port at reset: the host's byte is kept (R88). -/
def padReset (k : Pad) : Pad := { k with shift := 0, strobe := false }

/-- The bus values at reset (R88, R802 (4), D23). -/
def busValuesReset (s : State) : State :=
  (((s.setMaster 0).setDma Dma.reset).setPad0 (padReset s.pad0)).setPad1 (padReset s.pad1)

/-- `Bus.reset()`: cartridge, CPU, PPU, bus values, in this order (R802, D51). -/
def busReset (a x y : Byte) (s : State) : State :=
  let s := s.setCart (s.cart.map cartReset)
  let s := cpuReset a x y s
  let s := s.setPpu (ppuReset s.ppu)
  busValuesReset s

/-- The recoverable condition of a cartridge load (R812). -/
inductive LoadError where
  /-- "unsupported cartridge": the machine stays as it was. -/
  | unsupported
deriving DecidableEq, Repr

/-- The header fields of an image (R811). -/
structure Header where
  nPrg : Byte
  nChr : Byte
  hwMirror : HeaderMirror
  trainer : Bool
  mapperId : Nat
deriving DecidableEq, Repr

/-- A byte of an image. -/
def imageByte (image : List Byte) (k : Nat) : Byte := image.getD k 0

/-- The header of an image (R811, D32). -/
def parseHeader (image : List Byte) : Header :=
  let flags6 := imageByte image 6
  let flags7 := imageByte image 7
  { nPrg := imageByte image 4
    nChr := imageByte image 5
    hwMirror := if flags6.getLsbD 0 then .vertical else .horizontal
    trainer := flags6.getLsbD 2
    mapperId := ((flags7 &&& 0xF0) ||| (flags6 >>> 4)).toNat }

/-- The bytes the trainer takes (R811). -/
def trainerSize (h : Header) : Nat := if h.trainer then 512 else 0

/-- The length an image must have (R812). -/
def declaredLength (h : Header) : Nat := 16 + trainerSize h + 16384 * h.nPrg.toNat + 8192 * h.nChr.toNat

/-- The image passes the checks of R812 other than its mapper's. -/
def imageValid (image : List Byte) : Bool :=
  let h := parseHeader image
  decide (16 ≤ image.length) && decide (image.take 4 = [0x4E, 0x45, 0x53, 0x1A]) && decide (h.nPrg ≠ 0)
    && decide (declaredLength h ≤ image.length)

/-- `count` bytes of the image from `start` on, as a store. -/
def imageStore (image : List Byte) (start count : Nat) : Memory := storeOfSize count (image.drop start)

/-- The cartridge of a valid image with its mapper (R81, R811). CHR RAM is zero-filled. -/
def cartridgeOf (image : List Byte) (mapper : Mapper) : Cartridge :=
  let h := parseHeader image
  let prgStart := 16 + trainerSize h
  let prgSize := 16384 * h.nPrg.toNat
  { nPrg := h.nPrg
    nChr := h.nChr
    hwMirror := h.hwMirror
    trainer := if h.trainer then some (imageStore image 16 512) else none
    prg := imageStore image prgStart prgSize
    chr := imageStore image (prgStart + prgSize) (8192 * h.nChr.toNat)
    mapper := mapper }

/-- The cartridge of an image, or the unsupported condition (R811, R812). `sram` is what `POWERON_MEM` gives its static
RAM (R800, D9). -/
def loadCartridge (sram image : List Byte) : Except LoadError Cartridge :=
  let h := parseHeader image
  if imageValid image then
    match newMapper h.mapperId h.hwMirror (storeOfSize 8192 sram) with
    | some m => .ok (cartridgeOf image m)
    | none => .error .unsupported
  else .error .unsupported

/-- `insert_cartridge(image)`: binds the cartridge and resets nothing; on failure the machine is as it was (R810,
R812). -/
def insertCartridge (sram image : List Byte) (s : State) : Except LoadError State :=
  match loadCartridge sram image with
  | .ok c => .ok (s.setCart (some c))
  | .error e => .error e

/-- The host sets `pad_live[k]` (R650, R760). -/
def setPadLive (s : State) (k : Bool) (v : Byte) : State := s.setPad k { s.pad k with live := v }

/-- The byte of pressed buttons under a button-to-bit assignment (R650, D17). A pressed button is a 1 bit and a released one
a 0: DESIGN CHOICE (log 14). -/
def padByte (bitOf : Button → Fin 8) (pressed : List Button) : Byte :=
  pressed.foldl (fun v button => v ||| ((1 : Byte) <<< (bitOf button).val)) 0

/-- The host clears `frame_complete` (R656). -/
def clearFrameComplete (s : State) : State := s.setPpu { s.ppu with frameComplete := false }

/-- The host clears `scanline_complete` (R656). -/
def clearScanlineComplete (s : State) : State := s.setPpu { s.ppu with scanlineComplete := false }

/-- What the host may do between ticks that changes the machine (R760). -/
inductive HostAction where
  | clock
  | reset (a x y : Byte)
  | insert (sram image : List Byte)
  | setPad (k : Bool) (v : Byte)
  | clearFrame
  | clearScanline
deriving DecidableEq, Repr

/-- A host action. A failed insertion leaves the machine as it was (R812). -/
def hostAct (h : HostAction) (s : State) : Result :=
  match h with
  | .clock => busClock s
  | .reset a x y => .next (busReset a x y s)
  | .insert sram image =>
    match insertCartridge sram image s with
    | .ok t => .next t
    | .error _ => .next s
  | .setPad k v => .next (setPadLive s k v)
  | .clearFrame => .next (clearFrameComplete s)
  | .clearScanline => .next (clearScanlineComplete s)

/-- The colour of a pixel of the frame buffer at an index (R671, R672, R89; log 6, log 7, log 8). -/
def pixelRgba (k : Nat) : Pixel → Rgba
  | .powerOn => Config.powerOnPixel k
  | .colour c => Config.hwPalette c
  | .drawn n => Config.spritePixel n

/-- `get_screen()` at column x, row y (R760). -/
def screenRgba (s : State) (x y : Nat) : Rgba := pixelRgba (256 * y + x) (screenRead s.ppu.screen (256 * y + x))

/-- The palette swatch of palette p and pixel x (R721, D47). -/
def swatch (s : State) (p : Fin 8) (x : Fin 4) : Rgba :=
  Config.hwPalette ((Memory.read s.ppu.pal (paletteIndex (BitVec.ofNat 16 (0x3F00 + 4 * p.val + x.val)))).setWidth 6)

/-- The register dump: A, X, Y, SP, PC and the eight flags (R780). -/
structure RegisterDump where
  a : Byte
  x : Byte
  y : Byte
  sp : Byte
  pc : Word
  flagC : Bool
  flagZ : Bool
  flagI : Bool
  flagD : Bool
  flagB : Bool
  flagU : Bool
  flagV : Bool
  flagN : Bool
deriving DecidableEq, Repr

/-- The host's register dump: the flags as stored, U always 1 (R57, R780). -/
def registerDump (s : State) : RegisterDump :=
  { a := s.cpu.a, x := s.cpu.x, y := s.cpu.y, sp := s.cpu.sp, pc := s.cpu.pc,
    flagC := s.flag .c, flagZ := s.flag .z, flagI := s.flag .i, flagD := s.flag .d,
    flagB := s.flag .b, flagU := true, flagV := s.flag .v, flagN := s.flag .n }

end Sys2Proof.Machine
end

