-- ==== Sys2Proof/Safety.lean ====
section
/-!
DEFINITION. The terms of the claims: the invariant of the machine, what it means for memory to be unchanged, and what
the flags become.
-/
namespace Sys2Proof.Machine

/-- The mapper's own state is as R83 and R86 say: at most four collected bits, 8192 bytes of static RAM in canonical
form. -/
def mapperWf : Mapper → Bool
  | .mapper0 => true
  | .mapper1 m => decide (m.loadCount ≤ 4) && Memory.wf 8192 m.sram
  | .mapper2 _ => true
  | .mapper3 _ => true
  | .mapper4 m => Memory.wf 8192 m.sram

/-- The size of the character store (R81). -/
def chrSize (c : Cartridge) : Nat := if c.nChr = 0 then 8192 else c.nChr.toNat * 8192

/-- The trainer, where there is one, has 512 bytes (R81). -/
def trainerWf : Option Memory → Bool
  | none => true
  | some m => Memory.wf 512 m

/-- The cartridge's stores have the sizes the header gives (R81), and there is a program bank (R812). -/
def cartWf (c : Cartridge) : Bool :=
  decide (c.nPrg ≠ 0) && Memory.wf (c.nPrg.toNat * 16384) c.prg && Memory.wf (chrSize c) c.chr
    && trainerWf c.trainer && mapperWf c.mapper

/-- The inserted cartridge, if any, is well formed. -/
def slotWf : Option Cartridge → Bool
  | none => true
  | some c => cartWf c

/-- The raster position is one of the 341 x 262 of a frame (R79). -/
def rasterWf (q : Ppu) : Bool :=
  decide (-1 ≤ q.scanline) && decide (q.scanline ≤ 260) && decide (q.cycle ≤ 340)

/-- The PPU's memories have their sizes (R77, R80) and the raster position is in the frame (R79). -/
def ppuWf (q : Ppu) : Bool :=
  Memory.wf 256 q.oam && Memory.wf 2048 q.nt && Memory.wf 32 q.pal && Memory.wf 8192 q.pat && screenWf q.screen
    && rasterWf q

/-- The invariant: every store canonical and of its size, the raster in its frame, the Unused flag 1 (R57). -/
def State.inv (s : State) : Bool := Memory.wf 2048 s.ram && ppuWf s.ppu && slotWf s.cart && s.flag .u

/-- The invariant as a proposition. -/
abbrev State.Inv (s : State) : Prop := s.inv = true

/-- The byte of storage a CPU address names: work RAM, static RAM or PRG; none for a device or an undecoded address. -/
def storedByte (s : State) (a : Word) : Option Byte :=
  match s.cart.bind (fun c => cartCpuRead c a) with
  | some b => some b
  | none =>
    match busTarget a with
    | .ram k => some (Memory.read s.ram k)
    | .ppu _ => none
    | .dma => none
    | .pad _ => none
    | .open => none

/-- The PPU's own memories read as before: OAM, nametables, palette, patterns. -/
def PpuMemoryUnchanged (q r : Ppu) : Prop :=
  ∀ k, Memory.read r.oam k = Memory.read q.oam k ∧ Memory.read r.nt k = Memory.read q.nt k
    ∧ Memory.read r.pal k = Memory.read q.pal k ∧ Memory.read r.pat k = Memory.read q.pat k

/-- Every byte of memory reads as before: at every CPU address, in the PPU's memories, and the whole cartridge with its
mapper registers, PRG, CHR and static RAM. -/
def MemoryUnchanged (s t : State) : Prop :=
  (∀ a, storedByte t a = storedByte s a) ∧ PpuMemoryUnchanged s.ppu t.ppu ∧ t.cart = s.cart

/-- Everything but the CPU's registers is as in `s`. -/
def OutsideCpu (s t : State) : Prop := t = { s with cpu := t.cpu }

/-- The registers of `t` are those given, but for P, which the flags describe. -/
def RegistersAre (t : State) (cpu : Cpu) : Prop := t.cpu = { cpu with p := t.cpu.p }

/-- The two addresses are mirrors of one work RAM byte (R153). -/
def SameRamByte (a b : Word) : Prop := a.toNat < 0x2000 ∧ b.toNat < 0x2000 ∧ ramIndex a = ramIndex b

/-- The address lies in the PPU register window (R154). -/
def InPpuWindow (a : Word) : Prop := 0x2000 ≤ a.toNat ∧ a.toNat < 0x4000

/-- An address whose read has no side effect whatever the state (R166): no PPU register, no controller port. -/
def PlainAddress (a : Word) : Prop := ¬ InPpuWindow a ∧ a ≠ 0x4016 ∧ a ≠ 0x4017

/-- The CPU addresses whose stored byte a bus write at `a` can change: the mirrors of a RAM byte, the static RAM byte at
`a`, and, after a write to the mapper's register space, the windows of 0x8000-0xFFFF, which may show other banks. -/
def WriteReaches (a b : Word) : Prop :=
  SameRamByte a b ∨ (0x6000 ≤ a.toNat ∧ a.toNat < 0x8000 ∧ b = a) ∨ (0x8000 ≤ a.toNat ∧ 0x8000 ≤ b.toNat)

/-- The frame of an instruction whose one bus write is at `a` (and whose data read, if it has one, is at `a` too). -/
structure StoreFrame (s t : State) (a : Word) : Prop where
  /-- Every byte the write does not reach reads as before. -/
  bytes : ∀ b, ¬ WriteReaches a b → storedByte t b = storedByte s b
  /-- Only an access to the PPU's registers touches the PPU. -/
  ppu : ¬ InPpuWindow a → t.ppu = s.ppu ∧ t.draws = s.draws
  /-- Of those, only OAMDATA and PPUDATA write the PPU's memories. -/
  ppuMemory : ppuRegisterOf a ≠ 4 → ppuRegisterOf a ≠ 7 → PpuMemoryUnchanged s.ppu t.ppu
  /-- The cartridge changes only by an access to it or through PPUDATA. -/
  cart : a.toNat < 0x6000 → (InPpuWindow a → ppuRegisterOf a ≠ 7) → t.cart = s.cart
  /-- Its header and program bytes never change. -/
  prg : ∀ c, s.cart = some c → ∃ d, t.cart = some d ∧ d.nPrg = c.nPrg ∧ d.nChr = c.nChr ∧ d.hwMirror = c.hwMirror
    ∧ d.trainer = c.trainer ∧ d.prg = c.prg
  /-- Only the DMA trigger touches the DMA engine. -/
  dma : a ≠ 0x4014 → t.dma = s.dma
  /-- Only its own address touches a controller port. -/
  pads : (a ≠ 0x4016 → t.pad0 = s.pad0) ∧ (a ≠ 0x4017 → t.pad1 = s.pad1)
  master : t.master = s.master

/-- The frame of `n` pushes: every byte but those at 0x0100 + SP, 0x0100 + SP - 1, … reads as before, and nothing but work
RAM and the CPU's registers changes. -/
def StackFrame (s t : State) (n : Nat) : Prop :=
  (∀ b, (∀ j, j < n → ¬ SameRamByte (stackAddress (s.cpu.sp - BitVec.ofNat 8 j)) b) → storedByte t b = storedByte s b)
    ∧ t = { s with cpu := t.cpu, ram := t.ram }

/-- Z and N as `SetNZ(v)` leaves them (R21), every other flag as it was. -/
def nzFlags (s : State) (v : Byte) : Flag → Bool
  | .z => decide (v = 0)
  | .n => v.getLsbD 7
  | .c => s.flag .c
  | .i => s.flag .i
  | .d => s.flag .d
  | .b => s.flag .b
  | .u => s.flag .u
  | .v => s.flag .v

/-- The flags with C given and Z and N of a result, every other flag as it was. -/
def cnzFlags (s : State) (carry : Bool) (v : Byte) (f : Flag) : Bool := if f = .c then carry else nzFlags s v f

/-- The flags with one of them given, every other flag as it was. -/
def oneFlag (s : State) (g : Flag) (on : Bool) (f : Flag) : Bool := if f = g then on else s.flag f

/-- Every flag of P is as the function says. -/
def FlagsAre (t : State) (g : Flag → Bool) : Prop := ∀ f, t.flag f = g f

/-- The flags of `AddCore(a, b, C)` (R400): C and Z and N of the sum, V by the sign rule, the others as they were. -/
def sumFlags (s : State) (a b : Byte) (f : Flag) : Bool :=
  let sum := a.toNat + b.toNat + (s.flag .c).toNat
  let r := BitVec.ofNat 8 sum
  if f = .v then decide ((~~~ (a ^^^ b) &&& (a ^^^ r)) &&& 0x80 ≠ 0) else cnzFlags s (decide (255 < sum)) r f

/-- The flags after P is pulled as `v` (R564, R601, D6). -/
def pulledFlags (v : Byte) (f : Flag) : Bool := if f = .b then false else if f = .u then true else v.getLsbD (flagBit f)

/-- The frame that an interrupt entry leaves (R626, R631): PC and the status image on the stack, SP three less, I set, PC
from the vector, the cycle count; nothing else changes. -/
def EntersInterrupt (s t : State) (ret : Word) (image : Byte) (vector : Word) (cycles : Nat) : Prop :=
  Memory.read t.ram (256 + s.cpu.sp.toNat) = hiByte ret
    ∧ Memory.read t.ram (256 + (s.cpu.sp - 1).toNat) = loByte ret
    ∧ Memory.read t.ram (256 + (s.cpu.sp - 2).toNat) = image
    ∧ RegistersAre t { s.cpu with
        sp := s.cpu.sp - 3
        pc := word16 (cpuRead t (vector + 1)).1 (cpuRead t vector).1
        cycles := cycles }
    ∧ FlagsAre t (oneFlag s .i true) ∧ StackFrame s t 3

/-- The instruction completes with the registers and flags given, and nothing else changes. -/
def CompletesInCpu (i : Instr) (s : State) (cpu : Cpu) (g : Flag → Bool) : Prop :=
  ∃ t, exec i s = .next t ∧ RegistersAre t cpu ∧ FlagsAre t g ∧ OutsideCpu s t ∧ MemoryUnchanged s t

/-- The instruction completes with the registers and flags given; outside the CPU the state is the one that the read of its
operand left, and every byte of memory reads as before. -/
def CompletesReading (i : Instr) (m : Addr) (s : State) (cpu : Cpu) (g : Flag → Bool) : Prop :=
  ∃ t, exec i s = .next t ∧ RegistersAre t cpu ∧ FlagsAre t g ∧ OutsideCpu (operand m s).state t ∧ MemoryUnchanged s t

/-- The instruction completes with the registers and flags given; outside the CPU the state is the one that the bus write of
`v` at `a` leaves of `u`. A byte of work RAM then reads `v`, and the frame of a store at `a` holds. -/
def CompletesWriting (i : Instr) (s u : State) (a : Word) (v : Byte) (cpu : Cpu) (g : Flag → Bool) : Prop :=
  ∃ t, exec i s = .next t ∧ RegistersAre t cpu ∧ FlagsAre t g ∧ OutsideCpu (cpuWrite u a v) t
    ∧ (a.toNat < 0x2000 → storedByte t a = some v) ∧ StoreFrame s t a

/-- A branch completes (R460, R469): PC at the target if taken, else unmoved; 2, 3 or 4 cycles; nothing else changes. -/
def CompletesBranch (i : Instr) (s : State) (taken : Bool) (rel : Byte) : Prop :=
  let target := s.cpu.pc + rel.signExtend 16
  CompletesInCpu i s
    { s.cpu with
      pc := if taken then target else s.cpu.pc
      cycles := if taken then (if hiByte target = hiByte s.cpu.pc then 3 else 4) else 2 }
    s.flag

/-- The base count of an instruction that reads its operand, by mode (R320, R321). -/
def readCycles : Addr → Nat
  | .imm _ => 2
  | .zp0 _ => 3
  | .zpx _ => 4
  | .zpy _ => 4
  | .abs _ => 4
  | .abx _ => 4
  | .aby _ => 4
  | .izx _ => 6
  | .izy _ => 5

/-- The base count of a store, by mode (R320, R321); IMM has no row. -/
def writeCycles : Addr → Nat
  | .imm _ => 0
  | .zp0 _ => 3
  | .zpx _ => 4
  | .zpy _ => 4
  | .abs _ => 4
  | .abx _ => 5
  | .aby _ => 5
  | .izx _ => 6
  | .izy _ => 6

/-- The base count of a read-modify-write of memory, by mode (R320, R321); the modes with 0 have no row. -/
def modifyCycles : Addr → Nat
  | .imm _ => 0
  | .zp0 _ => 5
  | .zpx _ => 6
  | .zpy _ => 0
  | .abs _ => 6
  | .abx _ => 7
  | .aby _ => 0
  | .izx _ => 0
  | .izy _ => 0

/-- The bytes of `n` bus reads of one address, in order. -/
def readTimes : Nat → State → Word → List Byte
  | 0, _, _ => []
  | n + 1, s, a => (cpuRead s a).1 :: readTimes n (cpuRead s a).2 a

/-- `n` DMA steps, each on its own CPU tick, three master ticks apart (R190, R820). -/
def dmaTicks : Nat → State → State
  | 0, s => s
  | n + 1, s => dmaTicks n ((dmaStep s).setMaster (s.master + 3))

/-- `n` PPU cycles (R654). -/
def ppuClocks : Nat → State → State
  | 0, s => s
  | n + 1, s => ppuClocks n (ppuClock s)

/-- Mapper 4 after `n` scanline calls (R674). -/
def mapper4Scanlines : Nat → Mapper4 → Mapper4
  | 0, m => m
  | n + 1, m => mapper4Scanlines n (mapper4Scanline m)

end Sys2Proof.Machine
end

