-- ==== Sys2Proof/Certificates/Slice0/Obligations.lean ====
section
/-!
DEFINITION. The statements for the provers. Each docstring names the rules of spec/ the statement rests on.
-/

section
open Sys2Proof Sys2Proof.Machine

/-! Decoding. -/

/-- For every well-formed instruction, decoding its bytes gives it back, with every operand at every value, and leaves
the bytes after it (R300, R301, R303, R320).

Note: Rests on the spec's own decisions D2 and on its general-knowledge sentences. That no operand byte of an illegal
opcode is decoded is the model's choice (log 9). -/
def Obligations.DecodeOfEncodeIsTheInstruction : Prop :=
  ∀ (i : Instr) (rest : List Byte), i.WellFormed → decode (encode i ++ rest) = .ok (i, rest)

/-- Whatever three bytes stand at the head of a list, they decode to an instruction of the opcode table whose bytes
are exactly those taken; it is the illegal opcode exactly for the bytes R324 lists (R320, R324, R325). The base counts
of the instructions with a memory or immediate operand are those of R320's `cyc` column, by mode (R320, R321).

Note: Rests on the spec's own decisions D10, D13 and on its general-knowledge sentences. That no operand byte of an
illegal opcode is decoded is the model's choice (log 9). -/
def Obligations.EveryOpcodeDecodesAndHasItsCycles : Prop :=
  (∀ (op b1 b2 : Byte) (rest : List Byte), ∃ i rest',
    decode (op :: b1 :: b2 :: rest) = .ok (i, rest') ∧ i.WellFormed
      ∧ encode i ++ rest' = op :: b1 :: b2 :: rest ∧ (i = .illegal op ↔ op ∈ illegalOpcodes))
    ∧ ∀ m : Addr,
      (∀ i ∈ [Instr.adc m, .sbc m, .and m, .ora m, .eor m, .bit m, .cmp m, .cpx m, .cpy m, .lda m, .ldx m, .ldy m],
        i.WellFormed → baseCycles i = readCycles m)
        ∧ (∀ i ∈ [Instr.sta m, .stx m, .sty m], i.WellFormed → baseCycles i = writeCycles m)
        ∧ ∀ i ∈ [Instr.asl (.mem m), .lsr (.mem m), .rol (.mem m), .ror (.mem m), .inc m, .dec m],
          i.WellFormed → baseCycles i = modifyCycles m

/-- A few words written out from the encodings of R320 and R301, and one illegal opcode byte of R324, decode to the
instructions they stand for; the illegal one takes no operand byte (R612; log 9).

Note: Rests on the spec's own decisions D2, D10 and on its general-knowledge sentences. That no operand byte of an
illegal opcode is decoded is the model's choice (log 9). -/
def Obligations.WordsOfTheTableDecode : Prop :=
  decode [0x69, 0x42] = .ok (.adc (.imm 0x42), []) ∧ decode [0x31, 0x80] = .ok (.and (.izy 0x80), [])
    ∧ decode [0x1E, 0xFF, 0x12] = .ok (.asl (.mem (.abx 0x12FF)), []) ∧ decode [0xD0, 0xFE] = .ok (.bne 0xFE, [])
    ∧ decode [0xC1, 0x20] = .ok (.cmp (.izx 0x20), []) ∧ decode [0xE6, 0x10] = .ok (.inc (.zp0 0x10), [])
    ∧ decode [0xB6, 0xF0] = .ok (.ldx (.zpy 0xF0), []) ∧ decode [0x48] = .ok (.pha, [])
    ∧ decode [0x6C, 0xFF, 0x02] = .ok (.jmp (.ind 0x02FF), []) ∧ decode [0x02] = .ok (.illegal 0x02, [])

/-! The master tick. -/

/-- On a CPU tick with no transfer in flight and no cycles left, a step is the execution of the instruction fetched at
PC after the PPU cycle, then the end of the execute tick and of the master tick (R820, R821).

Note: Rests on the spec's own decisions D23. That one step is one master tick is the model's choice (log 1). -/
def Obligations.StepIsExecOfTheFetchedInstruction : Prop :=
  ∀ s : State, s.master % 3 = 0 → s.dma.transfer = false → s.cpu.cycles = 0 →
    step s = mapNext (fun t => endTick (endExecute t))
      (exec (fetchInstr (ppuClock s)).1 (fetchInstr (ppuClock s)).2)

/-- Where the three addresses from PC on have no read side effect, the instruction fetched is the one that the bytes
there decode to, it stands in the opcode table, and PC is moved past its bytes and nothing else changes (R55, R300,
R301, R365).

Note: Rests on the spec's own decisions D11, D14 and on its general-knowledge sentences. The model's fetch takes one
to three bytes and none of an illegal opcode's operand bytes (log 9). -/
def Obligations.FetchReadsTheBytesAtPc : Prop :=
  ∀ (s : State) (i : Instr) (rest : List Byte),
    (∀ k : Nat, k < 3 → PlainAddress (s.cpu.pc + BitVec.ofNat 16 k)) →
    decode [(cpuRead s s.cpu.pc).1, (cpuRead s (s.cpu.pc + 1)).1, (cpuRead s (s.cpu.pc + 2)).1] = .ok (i, rest) →
    i.WellFormed ∧ fetchInstr s = (i, s.setPc (s.cpu.pc + BitVec.ofNat 16 (1 + (operandBytes i).length)))

/-- The other master ticks: two of three only clock the PPU; a CPU tick with cycles left only counts down; with a
transfer in flight it is one DMA step, which leaves the CPU frozen. Every tick ends with the interrupt polling and
moves `master` on by one; an execute tick ends with U set and the count lowered, and nothing else (R57, R192, R620,
R820, R821).

Note: Rests on the spec's own decisions D23, D39. That one step is one master tick is the model's choice (log 1). -/
def Obligations.TicksThatDoNotFetch : Prop :=
  ∀ s : State,
    (s.master % 3 ≠ 0 → step s = .next (endTick (ppuClock s)))
      ∧ (s.master % 3 = 0 → s.dma.transfer = false → s.cpu.cycles ≠ 0 →
        step s = .next (endTick (countDown (ppuClock s))) ∧ (countDown (ppuClock s)).cpu.cycles = s.cpu.cycles - 1)
      ∧ (s.master % 3 = 0 → s.dma.transfer = true →
        step s = .next (endTick (dmaStep (ppuClock s))) ∧ (dmaStep (ppuClock s)).cpu = s.cpu)
      ∧ (∀ t, step s = .next t → t.master = s.master + 1)
      ∧ endTick s = (pollInterrupts s).setMaster (s.master + 1)
      ∧ endExecute s = { s with cpu := { s.cpu with p := s.cpu.p ||| 0x20, cycles := s.cpu.cycles - 1 } }
      ∧ countDown s = { s with cpu := { s.cpu with cycles := s.cpu.cycles - 1 } }

/-- No step and no instruction stops: the hardware has no error state (R22, R159, R632).

Note: Rests on the spec's own decisions D10 and on its general-knowledge sentences. That an illegal opcode runs rather
than is refused while ILLEGAL_LEN and ILLEGAL_CYCLES are not given (R612, D10, V-J9) is the model's choice (log 9). -/
def Obligations.EveryStepAnswersANextState : Prop :=
  (∀ s : State, ∃ t, step s = .next t) ∧ ∀ (i : Instr) (s : State), ∃ t, exec i s = .next t

/-! Whole-machine rules. -/

/-- The machine right after reset meets the invariant: `State.reset`; what reset leaves of any power-on memory,
registers and draws of A, X and Y, with no cartridge or with any image inserted since (R800, R802, R813); and what it
leaves of any machine that meets the invariant.

Note: Rests on the spec's own decisions D7, D8, D9, D20, D51, D52. The values of State.reset that the spec leaves open
are the model's choice (logs 2, 3, 16). -/
def Obligations.ResetMeetsTheMachineInvariant : Prop :=
  State.reset.Inv
    ∧ (∀ (mem : PowerOnMem) (cpu : Cpu) (regs : Ppu) (a x y : Byte), (busReset a x y (powerOn mem cpu regs)).Inv)
    ∧ (∀ (s : State) (a x y : Byte), s.Inv → (busReset a x y s).Inv)
    ∧ ∀ (mem : PowerOnMem) (cpu : Cpu) (regs : Ppu) (sram image : List Byte) (s : State) (a x y : Byte),
      insertCartridge sram image (powerOn mem cpu regs) = .ok s → (busReset a x y s).Inv

/-- Every step keeps the invariant: every store canonical and of its size, the raster in its frame, the Unused flag 1
(R57, R68, R77, R79, R81, R83).

Note: Rests on the spec's own decisions D27, D28, D30 and on its general-knowledge sentences. That a store lists no
cell that reads as an unlisted one is the model's own form (log 2). -/
def Obligations.StepKeepsTheMachineInvariant : Prop :=
  ∀ s t : State, s.Inv → step s = .next t → t.Inv

/-- No step changes the host's controller bytes, the cartridge's header, trainer or PRG, or CHR ROM; no step inserts
or removes a cartridge (R71, R81, R90, R186).

Note: Rests on the spec's own decisions D16, D26, D48. -/
def Obligations.StepKeepsCartridgeRomAndHostBytes : Prop :=
  ∀ s t : State, step s = .next t →
    t.pad0.live = s.pad0.live ∧ t.pad1.live = s.pad1.live ∧ (s.cart = none → t.cart = none)
      ∧ ∀ c, s.cart = some c → ∃ d, t.cart = some d ∧ d.nPrg = c.nPrg ∧ d.nChr = c.nChr ∧ d.hwMirror = c.hwMirror
        ∧ d.trainer = c.trainer ∧ d.prg = c.prg ∧ d.mapper.id = c.mapper.id ∧ (c.nChr ≠ 0 → d.chr = c.chr)

/-! Reset. -/

/-- The reset sequence, for every machine and every draw of A, X and Y (R87, R88, R89, R802): the cartridge's mapper
first, the CPU with PC from the vector, the PPU's registers zeroed and its memories kept, the bus values. With no
cartridge PC is 0x0000 (R803).

Note: Rests on the spec's own decisions D7, D8, D9, D20, D23, D39, D51. -/
def Obligations.ResetSequenceLeavesTheseValues : Prop :=
  ∀ (a x y : Byte) (s : State),
    let c := s.cart.map cartReset
    let t := busReset a x y s
    t.cpu = { a := a, x := x, y := y, sp := 0xFD,
              pc := word16 (cpuRead { s with cart := c } 0xFFFD).1 (cpuRead { s with cart := c } 0xFFFC).1,
              p := 0x34, cycles := 8 }
      ∧ t.ram = s.ram ∧ t.master = 0 ∧ t.cart = c
      ∧ t.dma = { page := 0, addr := 0, data := 0, transfer := false, wait := true }
      ∧ t.pad0 = { live := s.pad0.live, shift := 0, strobe := false }
      ∧ t.pad1 = { live := s.pad1.live, shift := 0, strobe := false }
      ∧ t.ppu = { ctrl := 0, mask := 0, status := 0, vramAddr := 0, tramAddr := 0, fineX := 0, w := false,
                  dataBuffer := 0, oamAddr := 0, oam := s.ppu.oam, nt := s.ppu.nt, pal := s.ppu.pal, pat := s.ppu.pat,
                  bgPatLo := 0, bgPatHi := 0, bgAttLo := 0, bgAttHi := 0,
                  bgNextId := 0, bgNextAttr := 0, bgNextLo := 0, bgNextHi := 0,
                  scanline := 0, cycle := 0, nmi := false, frameComplete := false, scanlineComplete := false,
                  screen := s.ppu.screen }
      ∧ (s.cart = none → t.cpu.pc = 0)

/-- The mapper values after reset; header, trainer, PRG, CHR and static RAM are kept (R90, R802).

Note: Rests on the spec's own decisions D7, D8, D26, D51. The value of mirror4 for each header bit is the model's
reading (log 17). -/
def Obligations.MapperValuesAfterReset : Prop :=
  ∀ c : Cartridge,
    cartReset c = { c with mapper := (cartReset c).mapper }
      ∧ (c.mapper = .mapper0 → (cartReset c).mapper = .mapper0)
      ∧ (∀ m, c.mapper = .mapper1 m → (cartReset c).mapper =
          .mapper1 { load := 0, loadCount := 0, control := 0x1C, chr0 := 0, chr1 := 0, prg := 0, sram := m.sram })
      ∧ (∀ b, c.mapper = .mapper2 b → (cartReset c).mapper = .mapper2 0)
      ∧ (∀ b, c.mapper = .mapper3 b → (cartReset c).mapper = .mapper3 0)
      ∧ ∀ m, c.mapper = .mapper4 m → (cartReset c).mapper =
          .mapper4 { bankSelect := 0, regs := #v[0, 0, 0, 0, 0, 0, 0, 1],
                     mirror4 := if c.hwMirror = .vertical then 0 else 1,
                     irqLatch := 0, irqCounter := 0, irqEnable := false, irqActive := false, sram := m.sram }

/-! Interrupts. -/

/-- IRQ entry is suppressed while I is 1 and else leaves the frame of R626 with B 0 and U 1, vector 0xFFFE, 7 cycles;
NMI entry is never suppressed, vector 0xFFFA, 8 cycles (R622, R623, R626, R631).

Note: Rests on the spec's own decisions D4, D41. -/
def Obligations.IrqAndNmiEntry : Prop :=
  ∀ s : State,
    (s.flag .i = true → irqEntry s = s)
      ∧ (s.flag .i = false →
        EntersInterrupt s (irqEntry s) s.cpu.pc ((s.cpu.p &&& 0xEF) ||| 0x20) 0xFFFE 7)
      ∧ EntersInterrupt s (nmiEntry s) s.cpu.pc ((s.cpu.p &&& 0xEF) ||| 0x20) 0xFFFA 8

/-- Interrupt polling takes NMI first and clears each line it observes; an IRQ that meets an NMI in the same tick is
lost; with no cartridge there is no IRQ check (R620, R622, R627, R633).

Note: Rests on the spec's own decisions D4, D39, D41. -/
def Obligations.PollingTakesNmiBeforeIrq : Prop :=
  ∀ s : State,
    let quiet := s.setPpu { s.ppu with nmi := false }
    (s.cart = none → pollInterrupts s = if s.ppu.nmi then nmiEntry quiet else s)
      ∧ ∀ c, s.cart = some c →
        (cartIrqState c = false → pollInterrupts s = if s.ppu.nmi then nmiEntry quiet else s)
          ∧ (cartIrqState c = true → s.ppu.nmi = true →
            pollInterrupts s = (nmiEntry quiet).setCart (some (cartIrqClear c)))
          ∧ (cartIrqState c = true → s.ppu.nmi = false →
            pollInterrupts s = irqEntry (s.setCart (some (cartIrqClear c))))
          ∧ cartIrqState (cartIrqClear c) = false

/-- RTI right after an IRQ or NMI entry gives back PC, SP, A, X, Y and P but for B, which is 0, and U, which is 1
(R629).

Note: Rests on sentences the spec marks as general knowledge. -/
def Obligations.RtiUndoesInterruptEntry : Prop :=
  ∀ s : State,
    let back (e : State) := ∃ t, exec .rti e = .next t ∧ t.cpu.pc = s.cpu.pc ∧ t.cpu.sp = s.cpu.sp ∧ t.cpu.a = s.cpu.a
      ∧ t.cpu.x = s.cpu.x ∧ t.cpu.y = s.cpu.y ∧ FlagsAre t (pulledFlags s.cpu.p)
    back (nmiEntry s) ∧ (s.flag .i = false → back (irqEntry s))

/-- BRK takes the interrupt at 0xFFFE whatever I is, pushing the address after its padding byte and P with B and U set
(R600, R626, R302). `s.cpu.pc` is the address after the opcode.

Note: Rests on the spec's own decisions D5 and on its general-knowledge sentences. -/
def Obligations.BrkTakesTheInterrupt : Prop :=
  ∀ s : State, ∃ t, exec .brk s = .next t
    ∧ EntersInterrupt s t (s.cpu.pc + 1) (s.cpu.p ||| 0x30) 0xFFFE 7

/-- RTI pulls P, with B 0 and U 1, then PC, low byte first; SP is three more and nothing else changes (R601, R629).

Note: Rests on the spec's own decisions D6 and on its general-knowledge sentences. -/
def Obligations.RtiRestoresStatusAndPc : Prop :=
  ∀ s : State,
    let byte (n : Byte) := Memory.read s.ram (256 + (s.cpu.sp + n).toNat)
    CompletesInCpu .rti s
      { s.cpu with sp := s.cpu.sp + 3, pc := word16 (byte 3) (byte 2), cycles := 6 } (pulledFlags (byte 1))

/-! Loads, stores, transfers. -/

/-- LDA, LDX and LDY in every mode: the register takes the operand, Z and N follow it, the cycles are the table's and
the page-crossing one; nothing else changes but what the operand's read does (R520, R521, R522, R321, R322).

Note: Rests on the spec's own decisions D13 and on its general-knowledge sentences. The state given to exec is the one
after the operand bytes are fetched, IMM's included (log 18). -/
def Obligations.LoadsTakeTheOperand : Prop :=
  ∀ (m : Addr) (s : State),
    let v := (operand m s).value
    let n (i : Instr) := baseCycles i + (locate m s).crossed.toNat
    CompletesReading (.lda m) m s { s.cpu with a := v, cycles := n (.lda m) } (nzFlags s v)
      ∧ CompletesReading (.ldx m) m s { s.cpu with x := v, cycles := n (.ldx m) } (nzFlags s v)
      ∧ CompletesReading (.ldy m) m s { s.cpu with y := v, cycles := n (.ldy m) } (nzFlags s v)

/-- The register transfers: TAX, TAY, TXA, TYA and TSX set Z and N from the byte moved, TXS leaves every flag alone
(R526-R531).

Note: Rests on sentences the spec marks as general knowledge. -/
def Obligations.TransfersMoveOneRegister : Prop :=
  ∀ s : State,
    CompletesInCpu .tax s { s.cpu with x := s.cpu.a, cycles := 2 } (nzFlags s s.cpu.a)
      ∧ CompletesInCpu .tay s { s.cpu with y := s.cpu.a, cycles := 2 } (nzFlags s s.cpu.a)
      ∧ CompletesInCpu .txa s { s.cpu with a := s.cpu.x, cycles := 2 } (nzFlags s s.cpu.x)
      ∧ CompletesInCpu .tya s { s.cpu with a := s.cpu.y, cycles := 2 } (nzFlags s s.cpu.y)
      ∧ CompletesInCpu .tsx s { s.cpu with x := s.cpu.sp, cycles := 2 } (nzFlags s s.cpu.sp)
      ∧ CompletesInCpu .txs s { s.cpu with sp := s.cpu.x, cycles := 2 } s.flag

/-- STA, STX and STY in every mode make one bus write of the register at the effective address and do not read it; no
flag and no register changes (R523, R524, R525, R350).

Note: Rests on the spec's own decisions D11 and on its general-knowledge sentences. -/
def Obligations.StoresWriteTheRegister : Prop :=
  ∀ (m : Addr) (s : State),
    let a := (locate m s).addr
    CompletesWriting (.sta m) s s a s.cpu.a { s.cpu with cycles := baseCycles (.sta m) } s.flag
      ∧ CompletesWriting (.stx m) s s a s.cpu.x { s.cpu with cycles := baseCycles (.stx m) } s.flag
      ∧ CompletesWriting (.sty m) s s a s.cpu.y { s.cpu with cycles := baseCycles (.sty m) } s.flag

/-! Arithmetic, logic, compare. -/

/-- ADC adds the operand and C to A; SBC adds the operand's complement and C; both set C, Z, V and N from the sum, and
D has no effect (R400, R401, R402, R405).

Note: Rests on the spec's own decisions D3, D13 and on its general-knowledge sentences. The state given to exec is the
one after the operand bytes are fetched, IMM's included (log 18). -/
def Obligations.AddAndSubtractWithCarry : Prop :=
  ∀ (m : Addr) (s : State),
    let b := (operand m s).value
    let sum (b : Byte) : Byte := BitVec.ofNat 8 (s.cpu.a.toNat + b.toNat + (s.flag .c).toNat)
    let n (i : Instr) := baseCycles i + (locate m s).crossed.toNat
    CompletesReading (.adc m) m s { s.cpu with a := sum b, cycles := n (.adc m) } (sumFlags s s.cpu.a b)
      ∧ CompletesReading (.sbc m) m s { s.cpu with a := sum (b ^^^ 0xFF), cycles := n (.sbc m) }
          (sumFlags s s.cpu.a (b ^^^ 0xFF))

/-- AND, ORA and EOR combine A with the operand and set Z and N of the result (R420, R421, R422).

Note: Rests on the spec's own decisions D13 and on its general-knowledge sentences. -/
def Obligations.LogicCombinesWithA : Prop :=
  ∀ (m : Addr) (s : State),
    let v := (operand m s).value
    let n (i : Instr) := baseCycles i + (locate m s).crossed.toNat
    CompletesReading (.and m) m s { s.cpu with a := s.cpu.a &&& v, cycles := n (.and m) } (nzFlags s (s.cpu.a &&& v))
      ∧ CompletesReading (.ora m) m s { s.cpu with a := s.cpu.a ||| v, cycles := n (.ora m) } (nzFlags s (s.cpu.a ||| v))
      ∧ CompletesReading (.eor m) m s { s.cpu with a := s.cpu.a ^^^ v, cycles := n (.eor m) }
          (nzFlags s (s.cpu.a ^^^ v))

/-- BIT sets Z from A and the operand, N and V from the operand's bits 7 and 6, and writes no register (R423).

Note: Rests on the spec's own decisions D13 and on its general-knowledge sentences. -/
def Obligations.BitTestsTheOperand : Prop :=
  ∀ (m : Addr) (s : State),
    let v := (operand m s).value
    CompletesReading (.bit m) m s { s.cpu with cycles := baseCycles (.bit m) } (fun f =>
      match f with
      | .z => decide (s.cpu.a &&& v = 0)
      | .n => v.getLsbD 7
      | .v => v.getLsbD 6
      | g => s.flag g)

/-- CMP, CPX and CPY set C when the register is not below the operand, Z when they are equal, N from the difference,
and write no register; only CMP takes the page-crossing cycle (R480, R481, R482, R483, R322).

Note: Rests on the spec's own decisions D13 and on its general-knowledge sentences. -/
def Obligations.ComparesSetFlagsOnly : Prop :=
  ∀ (m : Addr) (s : State),
    let v := (operand m s).value
    let g (r : Byte) (f : Flag) : Bool := if f = .z then decide (r = v) else cnzFlags s (decide (v.toNat ≤ r.toNat)) (r - v) f
    CompletesReading (.cmp m) m s { s.cpu with cycles := baseCycles (.cmp m) + (locate m s).crossed.toNat } (g s.cpu.a)
      ∧ CompletesReading (.cpx m) m s { s.cpu with cycles := baseCycles (.cpx m) } (g s.cpu.x)
      ∧ CompletesReading (.cpy m) m s { s.cpu with cycles := baseCycles (.cpy m) } (g s.cpu.y)

/-! Shifts, increments, decrements. -/

/-- The accumulator forms of ASL, LSR, ROL and ROR: the bit shifted out goes to C, the old C comes in on a rotate, and
Z and N follow the result; no memory is touched (R440-R443, R23).

Note: Rests on sentences the spec marks as general knowledge. -/
def Obligations.ShiftsOfTheAccumulator : Prop :=
  ∀ s : State,
    let v := s.cpu.a
    let c : Byte := if s.flag .c then 1 else 0
    let does (i : Instr) (r : Byte) (out : Bool) := CompletesInCpu i s { s.cpu with a := r, cycles := 2 } (cnzFlags s out r)
    does (.asl .acc) (v <<< 1) (v.getLsbD 7) ∧ does (.lsr .acc) (v >>> 1) (v.getLsbD 0)
      ∧ does (.rol .acc) ((v <<< 1) ||| c) (v.getLsbD 7) ∧ does (.ror .acc) ((c <<< 7) ||| (v >>> 1)) (v.getLsbD 0)

/-- The memory forms of the shifts, INC and DEC: one read of the effective address, then one write of the result
there. A shift gives C the bit shifted out; INC and DEC leave C and V. A is unchanged and no page crossing adds a
cycle (R440-R444, R500, R501, R322).

Note: Rests on the spec's own decisions D11, D13 and on its general-knowledge sentences. -/
def Obligations.ReadModifyWriteOfMemory : Prop :=
  ∀ (m : Addr) (s : State),
    let a := (locate m s).addr
    let v := (cpuRead s a).1
    let c : Byte := if s.flag .c then 1 else 0
    let does (i : Instr) (r : Byte) (g : Flag → Bool) :=
      CompletesWriting i s (cpuRead s a).2 a r { s.cpu with cycles := baseCycles i } g
    does (.asl (.mem m)) (v <<< 1) (cnzFlags s (v.getLsbD 7) (v <<< 1))
      ∧ does (.lsr (.mem m)) (v >>> 1) (cnzFlags s (v.getLsbD 0) (v >>> 1))
      ∧ does (.rol (.mem m)) ((v <<< 1) ||| c) (cnzFlags s (v.getLsbD 7) ((v <<< 1) ||| c))
      ∧ does (.ror (.mem m)) ((c <<< 7) ||| (v >>> 1)) (cnzFlags s (v.getLsbD 0) ((c <<< 7) ||| (v >>> 1)))
      ∧ does (.inc m) (v + 1) (nzFlags s (v + 1)) ∧ does (.dec m) (v - 1) (nzFlags s (v - 1))

/-- INX, INY, DEX and DEY wrap modulo 256 and set Z and N (R502-R505).

Note: Rests on sentences the spec marks as general knowledge. -/
def Obligations.IncrementAndDecrementOfRegisters : Prop :=
  ∀ s : State,
    CompletesInCpu .inx s { s.cpu with x := s.cpu.x + 1, cycles := 2 } (nzFlags s (s.cpu.x + 1))
      ∧ CompletesInCpu .iny s { s.cpu with y := s.cpu.y + 1, cycles := 2 } (nzFlags s (s.cpu.y + 1))
      ∧ CompletesInCpu .dex s { s.cpu with x := s.cpu.x - 1, cycles := 2 } (nzFlags s (s.cpu.x - 1))
      ∧ CompletesInCpu .dey s { s.cpu with y := s.cpu.y - 1, cycles := 2 } (nzFlags s (s.cpu.y - 1))

/-! Control flow. -/

/-- The eight branches, each on its flag, with their target and their cycles; no flag and no memory changes
(R460-R469).

Note: Rests on the spec's own decisions D12 and on its general-knowledge sentences. -/
def Obligations.BranchesFollowTheirFlag : Prop :=
  ∀ (rel : Byte) (s : State),
    CompletesBranch (.bcc rel) s (!s.flag .c) rel ∧ CompletesBranch (.bcs rel) s (s.flag .c) rel
      ∧ CompletesBranch (.bne rel) s (!s.flag .z) rel ∧ CompletesBranch (.beq rel) s (s.flag .z) rel
      ∧ CompletesBranch (.bpl rel) s (!s.flag .n) rel ∧ CompletesBranch (.bmi rel) s (s.flag .n) rel
      ∧ CompletesBranch (.bvc rel) s (!s.flag .v) rel ∧ CompletesBranch (.bvs rel) s (s.flag .v) rel

/-- JMP to an absolute address, and through a pointer whose high byte comes from the pointer's own page; no flag
changes (R580, R357, R360).

Note: Rests on sentences the spec marks as general knowledge. -/
def Obligations.JmpGoesToItsTarget : Prop :=
  (∀ (w : Word) (s : State), CompletesInCpu (.jmp (.abs w)) s { s.cpu with pc := w, cycles := 3 } s.flag)
    ∧ ∀ (p : Word) (s : State),
      let lo := cpuRead s p
      let hi := cpuRead lo.2 (word16 (hiByte p) (loByte p + 1))
      ∃ t, exec (.jmp (.ind p)) s = .next t
        ∧ t.cpu = { s.cpu with pc := word16 hi.1 lo.1, cycles := 5 } ∧ OutsideCpu hi.2 t ∧ MemoryUnchanged s t

/-- JSR pushes the address of its own last byte, high byte first, and goes to its target (R581, R163). `s.cpu.pc` is
the address after its operand.

Note: Rests on the spec's own decisions D2 and on its general-knowledge sentences. -/
def Obligations.JsrPushesItsLastAddress : Prop :=
  ∀ (w : Word) (s : State), ∃ t, exec (.jsr w) s = .next t
    ∧ t.cpu = { s.cpu with pc := w, sp := s.cpu.sp - 2, cycles := 6 }
    ∧ Memory.read t.ram (256 + s.cpu.sp.toNat) = hiByte (s.cpu.pc - 1)
    ∧ Memory.read t.ram (256 + (s.cpu.sp - 1).toNat) = loByte (s.cpu.pc - 1) ∧ StackFrame s t 2

/-- RTS pulls PC, low byte first, and adds one; right after JSR it resumes at the byte after the JSR with SP as before
(R582).

Note: Rests on sentences the spec marks as general knowledge. -/
def Obligations.RtsReturnsAfterTheCall : Prop :=
  (∀ s : State,
    let byte (n : Byte) := Memory.read s.ram (256 + (s.cpu.sp + n).toNat)
    CompletesInCpu .rts s { s.cpu with sp := s.cpu.sp + 2, pc := word16 (byte 2) (byte 1) + 1, cycles := 6 } s.flag)
    ∧ ∀ (w : Word) (s t : State), exec (.jsr w) s = .next t →
      ∃ u, exec .rts t = .next u ∧ u.cpu.pc = s.cpu.pc ∧ u.cpu.sp = s.cpu.sp

/-! The stack, the flags, NOP, the illegal opcodes. -/

/-- PHA pushes A and PHP pushes P with B and U set, at 0x0100 + SP, and SP wraps within its page; no flag changes
(R20, R54, R561, R563).

Note: Rests on the spec's own decisions D15 and on its general-knowledge sentences. -/
def Obligations.PushesWriteOneStackByte : Prop :=
  ∀ s : State,
    let does (i : Instr) (v : Byte) := ∃ t, exec i s = .next t ∧ t.cpu = { s.cpu with sp := s.cpu.sp - 1, cycles := 3 }
      ∧ Memory.read t.ram (256 + s.cpu.sp.toNat) = v ∧ StackFrame s t 1
    does .pha s.cpu.a ∧ does .php (s.cpu.p ||| 0x30)

/-- PLA pulls A and sets Z and N; PLP pulls P with B 0 and U 1 (R20, R562, R564).

Note: Rests on the spec's own decisions D6 and on its general-knowledge sentences. -/
def Obligations.PullsReadOneStackByte : Prop :=
  ∀ s : State,
    let v := Memory.read s.ram (256 + (s.cpu.sp + 1).toNat)
    CompletesInCpu .pla s { s.cpu with a := v, sp := s.cpu.sp + 1, cycles := 4 } (nzFlags s v)
      ∧ CompletesInCpu .plp s { s.cpu with sp := s.cpu.sp + 1, cycles := 4 } (pulledFlags v)

/-- CLC, SEC, CLI, SEI, CLD, SED and CLV each write one flag; NOP writes none (R602-R608, R610).

Note: Rests on sentences the spec marks as general knowledge. -/
def Obligations.FlagInstructionsAndNop : Prop :=
  ∀ s : State,
    let does (i : Instr) (f : Flag) (on : Bool) := CompletesInCpu i s { s.cpu with cycles := 2 } (oneFlag s f on)
    does .clc .c false ∧ does .sec .c true ∧ does .cli .i false ∧ does .sei .i true ∧ does .cld .d false
      ∧ does .sed .d true ∧ does .clv .v false ∧ CompletesInCpu .nop s { s.cpu with cycles := 2 } s.flag

/-- An illegal opcode changes PC and the cycle count only: its length is one of 1, 2 and 3 and its count at least 1,
the same in every state; neither is known (R612, R324).

Note: Rests on the spec's own decisions D10 and on its general-knowledge sentences. That the two amounts are unknown
constants rather than a refusal is the model's choice (log 9). -/
def Obligations.IllegalOpcodesDoNothing : Prop :=
  ∀ op : Byte, ∃ len cyc : Nat, 1 ≤ len ∧ len ≤ 3 ∧ 1 ≤ cyc ∧ ∀ s : State,
    exec (.illegal op) s =
      .next { s with cpu := { s.cpu with pc := s.cpu.pc + BitVec.ofNat 16 (len - 1), cycles := cyc } }

/-! Laws of the arithmetic. -/

/-- SBC undoes ADC: with the same operand value and the carry-in complemented it restores A (R404).

Note: Rests on what the spec derives in the rules cited. -/
def Obligations.SbcUndoesAdc : Prop :=
  ∀ (m m' : Addr) (s t u v : State),
    exec (.adc m) s = .next t → u.cpu.a = t.cpu.a → (operand m' u).value = (operand m s).value →
    u.flag .c = (!s.flag .c) → exec (.sbc m') u = .next v → v.cpu.a = s.cpu.a

/-- V is signed overflow and C is unsigned carry or no-borrow (R403).

Note: Rests on what the spec derives in the rules cited. -/
def Obligations.CarryAndOverflowMeanWhatTheySay : Prop :=
  ∀ (m : Addr) (s t : State),
    let a := s.cpu.a
    let b := (operand m s).value
    let c : Int := if s.flag .c then 1 else 0
    let outside (n : Int) : Prop := n < -128 ∨ 127 < n
    (exec (.adc m) s = .next t →
      (t.flag .v = true ↔ outside (a.toInt + b.toInt + c)) ∧ (t.flag .c = true ↔ 256 ≤ (a.toNat : Int) + b.toNat + c)
        ∧ (t.flag .z = true ↔ t.cpu.a = 0))
    ∧ (exec (.sbc m) s = .next t →
      (t.flag .v = true ↔ outside (a.toInt - b.toInt - (1 - c)))
        ∧ (t.flag .c = true ↔ (b.toNat : Int) + (1 - c) ≤ a.toNat) ∧ (t.flag .z = true ↔ t.cpu.a = 0))

/-! Addressing and the CPU bus. -/

/-- The effective address of each mode, the page-crossing signal, and that the operand is one read there (IMM: the
operand byte); zero-page sums and pointers wrap in page zero (R350, R353-R359, R361, R362, R364).

Note: Rests on the spec's own decisions D11. IMM's operand is the byte the fetch has read (log 18). -/
def Obligations.EffectiveAddressesOfTheModes : Prop :=
  ∀ s : State,
    let zp (z : Byte) : Word := BitVec.ofNat 16 z.toNat
    let ptr (z : Byte) : Word := word16 (Memory.read s.ram (z + 1).toNat) (Memory.read s.ram z.toNat)
    let add (w : Word) (r : Byte) : Word := BitVec.ofNat 16 (w.toNat + r.toNat)
    let at_ (m : Addr) (a : Word) (crossed : Bool) : Prop := (locate m s).addr = a ∧ (locate m s).crossed = crossed
      ∧ (locate m s).state = s ∧ (operand m s).value = (cpuRead s a).1 ∧ (operand m s).state = (cpuRead s a).2
    let crosses (w : Word) (r : Byte) : Bool := decide (hiByte (add w r) ≠ hiByte w)
    ∀ (z : Byte) (w : Word),
      ((operand (.imm z) s).value = z ∧ (operand (.imm z) s).state = s ∧ (locate (.imm z) s).crossed = false)
        ∧ at_ (.zp0 z) (zp z) false ∧ at_ (.zpx z) (zp (z + s.cpu.x)) false ∧ at_ (.zpy z) (zp (z + s.cpu.y)) false
        ∧ at_ (.abs w) w false ∧ at_ (.abx w) (add w s.cpu.x) (crosses w s.cpu.x)
        ∧ at_ (.aby w) (add w s.cpu.y) (crosses w s.cpu.y) ∧ at_ (.izx z) (ptr (z + s.cpu.x)) false
        ∧ at_ (.izy z) (add (ptr z) s.cpu.y) (crosses (ptr z) s.cpu.y)

/-- What a bus read can change: nothing at a plain address; else only the PPU's status, latch, buffer and VRAM address
or its own controller's shift register (R151, R166, R641, R652).

Note: Rests on the spec's own decisions D16, D18, D24. The counter of drawn values is the model's own field and may
move too (log 4). -/
def Obligations.BusReadsChangeOnlyDeviceLatches : Prop :=
  ∀ (s : State) (a : Word),
    let t := (cpuRead s a).2
    (PlainAddress a → t = s)
      ∧ t.cpu = s.cpu ∧ t.ram = s.ram ∧ t.master = s.master ∧ t.dma = s.dma ∧ t.cart = s.cart
      ∧ t.ppu = { s.ppu with
          status := t.ppu.status, vramAddr := t.ppu.vramAddr, w := t.ppu.w, dataBuffer := t.ppu.dataBuffer }
      ∧ (∀ k, t.pad k = { s.pad k with shift := (t.pad k).shift })
      ∧ (¬ InPpuWindow a → t.ppu = s.ppu) ∧ (a ≠ 0x4016 → t.pad0 = s.pad0) ∧ (a ≠ 0x4017 → t.pad1 = s.pad1)

/-- Work RAM is mirrored four times and the PPU's registers through 0x3FFF (R153, R154). -/
def Obligations.RamAndPpuRegisterMirrors : Prop :=
  (∀ (s : State) (a : Word) (v : Byte) (j k : Nat), a.toNat < 0x0800 → j < 4 → k < 4 →
    let mirror (n : Nat) : Word := a + BitVec.ofNat 16 (0x0800 * n)
    cpuRead s (mirror k) = (Memory.read s.ram a.toNat, s)
      ∧ cpuRead (cpuWrite s (mirror j) v) (mirror k) = (v, cpuWrite s (mirror j) v)
      ∧ cpuWrite s (mirror j) v = { s with ram := Memory.write s.ram a.toNat v })
    ∧ ∀ (s : State) (a : Word) (v : Byte), InPpuWindow a →
      cpuRead s a = cpuRead s (0x2000 + (a &&& 7)) ∧ cpuWrite s a v = cpuWrite s (0x2000 + (a &&& 7)) v

/-- An address outside all decoded ranges, at or above 0x4000 and not handled by the cartridge: a read gives 0 with no
side effect (only 0x4016 and 0x4017 are decoded for reads there), a write is dropped (only 0x4014, 0x4016 and 0x4017
are) (R158, with the ranges of R151 and R152). -/
def Obligations.UndecodedAddressesReadZero : Prop :=
  (∀ (s : State) (a : Word), 0x4000 ≤ a.toNat → a ≠ 0x4016 → a ≠ 0x4017 →
    s.cart.bind (fun c => cartCpuRead c a) = none → cpuRead s a = (0, s))
    ∧ ∀ (s : State) (a : Word) (v : Byte), 0x4000 ≤ a.toNat → a ≠ 0x4014 → a ≠ 0x4016 → a ≠ 0x4017 →
      s.cart.bind (fun c => cartCpuWrite c a v) = none → cpuWrite s a v = s

/-! The PPU's registers. -/

/-- A PPUSTATUS read returns the vblank bit in bit 7, clears it and the write latch, and changes nothing else; the
other bits returned are open (R642, R647, R672).

Note: Rests on the spec's own decisions D18, D34. That the bits 6:5 returned are free values is the model's choice
between two readings (log 6). -/
def Obligations.PpuStatusReadClearsVblankAndLatch : Prop :=
  ∀ s : State,
    let r := cpuRead s 0x2002
    r.1.getLsbD 7 = s.ppu.status.getLsbD 7
      ∧ r.2 = { s with ppu := { s.ppu with status := s.ppu.status &&& 0x7F, w := false }, draws := r.2.draws }

/-- Writes to PPUCTRL, PPUMASK, PPUSTATUS, OAMADDR, PPUSCROLL and PPUADDR (R640, R644, R645, R646, R647).

Note: Rests on the spec's own decisions D19, D36, D43, D45, D49 and on its general-knowledge sentences. -/
def Obligations.PpuRegisterWrites : Prop :=
  ∀ (s : State) (v : Byte),
    let q := s.ppu
    let keepsScroll (t u : BitVec 15) : Prop := coarseX u = coarseX t ∧ coarseY u = coarseY t ∧ fineY u = fineY t
    let keepsTables (t u : BitVec 15) : Prop := nametableX u = nametableX t ∧ nametableY u = nametableY t
    (∃ t, cpuWrite s 0x2000 v = s.setPpu { q with ctrl := v, tramAddr := t } ∧ keepsScroll q.tramAddr t
        ∧ nametableX t = v.extractLsb' 0 1 ∧ nametableY t = v.extractLsb' 1 1)
      ∧ cpuWrite s 0x2001 v = s.setPpu { q with mask := v } ∧ cpuWrite s 0x2002 v = s
      ∧ cpuWrite s 0x2003 v = s.setPpu { q with oamAddr := v }
      ∧ (q.w = false → ∃ t,
        cpuWrite s 0x2005 v = s.setPpu { q with fineX := v.extractLsb' 0 3, tramAddr := t, w := true }
          ∧ coarseX t = v.extractLsb' 3 5 ∧ coarseY t = coarseY q.tramAddr ∧ fineY t = fineY q.tramAddr
          ∧ keepsTables q.tramAddr t)
      ∧ (q.w = true → ∃ t, cpuWrite s 0x2005 v = s.setPpu { q with tramAddr := t, w := false }
          ∧ fineY t = v.extractLsb' 0 3 ∧ coarseY t = v.extractLsb' 3 5 ∧ coarseX t = coarseX q.tramAddr
          ∧ keepsTables q.tramAddr t)
      ∧ (q.w = false → cpuWrite s 0x2006 v = s.setPpu { q with
          tramAddr := BitVec.ofNat 15 ((v.toNat % 64) * 256 + q.tramAddr.toNat % 256), w := true })
      ∧ (q.w = true →
        let t := BitVec.ofNat 15 ((q.tramAddr.toNat / 256) * 256 + v.toNat)
        cpuWrite s 0x2006 v = s.setPpu { q with tramAddr := t, vramAddr := t, w := false })

/-- PPUSCROLL and PPUADDR toggle one latch, a PPUSTATUS read resets it and so does reset; a PPUSCROLL write after one
PPUADDR write is taken as a second write (R647).

Note: Rests on the spec's own decisions D36, D45, D49 and on its general-knowledge sentences. The fields that the last
clause names are those of R644 and R646 (D36). -/
def Obligations.SharedWriteLatch : Prop :=
  ∀ (s : State) (v u a x y : Byte),
    (cpuWrite s 0x2005 v).ppu.w = (!s.ppu.w) ∧ (cpuWrite s 0x2006 v).ppu.w = (!s.ppu.w)
      ∧ (cpuRead s 0x2002).2.ppu.w = false ∧ (busReset a x y s).ppu.w = false
      ∧ (s.ppu.w = false →
        let t := (cpuWrite (cpuWrite s 0x2006 v) 0x2005 u).ppu
        t.w = false ∧ t.fineX = s.ppu.fineX ∧ fineY t.tramAddr = u.extractLsb' 0 3
          ∧ coarseY t.tramAddr = u.extractLsb' 3 5 ∧ coarseX t.tramAddr = coarseX s.ppu.tramAddr)

/-- PPUDATA: a write goes to the PPU address space, a read is one byte behind but in the palette, and each access
moves the VRAM address on by 1 or 32 modulo 2^15 (R646, R75). OAMDATA: a write stores at the OAM address and moves it
on, a read changes nothing (R640, R643, R166).

Note: Rests on the spec's own decisions D19, D36, D45, D49 and on its general-knowledge sentences. -/
def Obligations.PpuDataAndOamDataAccess : Prop :=
  ∀ (s : State) (v : Byte),
    let q := s.ppu
    let a : Word := BitVec.ofNat 16 (q.vramAddr.toNat % 0x4000)
    let next : BitVec 15 := BitVec.ofNat 15 (q.vramAddr.toNat + if q.ctrl.getLsbD 2 then 32 else 1)
    (let u := ppuWrite s a v
     cpuWrite s 0x2007 v = u.setPpu { u.ppu with vramAddr := next })
      ∧ cpuRead s 0x2007 =
        (if 0x3F00 ≤ a.toNat then ppuRead s a else q.dataBuffer,
          s.setPpu { q with dataBuffer := ppuRead s a, vramAddr := next })
      ∧ cpuRead s 0x2004 = (Memory.read q.oam q.oamAddr.toNat, s)
      ∧ ∃ oam, cpuWrite s 0x2004 v = s.setPpu { q with oam := oam, oamAddr := q.oamAddr + 1 }
        ∧ ∀ k, Memory.read oam k = if k = q.oamAddr.toNat then v else Memory.read q.oam k

/-- The PPU's own memories: the palette entry of an address is its value modulo 32, the entries 0x10, 0x14, 0x18 and
0x1C being 0x00, 0x04, 0x08 and 0x0C; the nametables follow the mirroring; with no cartridge 0x0000-0x1FFF is the
internal pattern store; addresses are taken modulo 0x4000; and a write puts its byte at one index of one store, the
nametables', the palette's, the pattern store's or CHR RAM's, and changes no other byte of any store and nothing else;
to CHR ROM it changes nothing (R186, R200, R201, R202, R203).

Note: Rests on the spec's own decisions D33, D38, D46, D48 and on its general-knowledge sentences. With no cartridge
the arrangement of the nametables is an unknown constant (log 10). -/
def Obligations.PpuMemoriesAndTheirAliases : Prop :=
  (∀ a : Word, paletteIndex a =
    if a.toNat % 32 ∈ [16, 20, 24, 28] then a.toNat % 32 - 16 else a.toNat % 32)
    ∧ (∀ (s : State) (v : Byte) (a b : Word), 0x3F00 ≤ a.toNat → a.toNat < 0x4000 → 0x3F00 ≤ b.toNat → b.toNat < 0x4000 →
      ppuRead (ppuWrite s a v) b = if paletteIndex a = paletteIndex b then v else ppuRead s b)
    ∧ (∀ k : Nat, k < 4 → ∀ (s : State) (v : Byte),
      let base : Word := BitVec.ofNat 16 (0x3F00 + 4 * k)
      ppuRead (ppuWrite s (base + 0x10) v) base = v ∧ ppuRead (ppuWrite s base v) (base + 0x10) = v)
    ∧ (∀ (s : State) (v : Byte) (a b : Word), 0x2000 ≤ a.toNat → a.toNat < 0x3F00 → 0x2000 ≤ b.toNat → b.toNat < 0x3F00 →
      let m := currentMirroring s.cart
      ppuRead (ppuWrite s a v) b = if nametableIndex m a = nametableIndex m b then v else ppuRead s b)
    ∧ (∀ a : Word,
      nametableIndex .vertical a = a.toNat / 0x400 % 2 * 1024 + a.toNat % 1024
        ∧ nametableIndex .horizontal a = a.toNat / 0x800 % 2 * 1024 + a.toNat % 1024
        ∧ nametableIndex .oneScreenLow a = a.toNat % 1024 ∧ nametableIndex .oneScreenHigh a = 1024 + a.toNat % 1024)
    ∧ (∀ (s : State) (v : Byte) (a b : Word), a.toNat < 0x4000 → b.toNat < 0x4000 →
      let memory (w : Word) : Nat := if w.toNat < 0x2000 then 0 else if w.toNat < 0x3F00 then 1 else 2
      memory a ≠ memory b → ppuRead (ppuWrite s a v) b = ppuRead s b)
    ∧ (∀ (s : State) (v : Byte) (a b : Word), s.cart = none → a.toNat < 0x2000 → b.toNat < 0x2000 →
      ppuRead (ppuWrite s a v) b = if a = b then v else ppuRead s b)
    ∧ ∀ (s : State) (v : Byte) (a : Word),
      let q := s.ppu
      let t := ppuWrite s a v
      let w := a.toNat % 0x4000
      let table := nametableIndex (currentMirroring s.cart) a
      let puts (old new : Memory) (at_ : Nat) : Prop := ∀ k, Memory.read new k = if k = at_ then v else Memory.read old k
      ppuRead s a = ppuRead s (a &&& 0x3FFF) ∧ t = ppuWrite s (a &&& 0x3FFF) v
        ∧ (0x2000 ≤ w → w < 0x3F00 → ppuRead s a = Memory.read q.nt table
          ∧ ∃ nt, t = s.setPpu { q with nt := nt } ∧ puts q.nt nt table)
        ∧ (0x3F00 ≤ w → ppuRead s a = Memory.read q.pal (paletteIndex a)
          ∧ ∃ pal, t = s.setPpu { q with pal := pal } ∧ puts q.pal pal (paletteIndex a))
        ∧ (w < 0x2000 → s.cart = none → ppuRead s a = Memory.read q.pat w
          ∧ ∃ pat, t = s.setPpu { q with pat := pat } ∧ puts q.pat pat w)
        ∧ ∀ c, s.cart = some c → w < 0x2000 →
          (c.nChr ≠ 0 → t = s) ∧ (c.nChr = 0 → ∃ chr, t = s.setCart (some { c with chr := chr }) ∧ puts c.chr chr w)

/-! Controllers and DMA. -/

/-- Strobed, a port returns the live bit 7 at every read; after 1 and then 0 is written, eight reads return the live
byte's bits 7 to 0 in bit 0, and the ninth returns 0 (R651, R652, R653).

Note: Rests on the spec's own decisions D16, D24 and on its general-knowledge sentences. -/
def Obligations.ControllerReadsShiftOutTheButtons : Prop :=
  ∀ (s : State) (port : Bool),
    let a : Word := if port then 0x4017 else 0x4016
    let bit (k : Nat) : Byte := if (s.pad port).live.getLsbD k then 1 else 0
    (∀ n, readTimes n (cpuWrite s a 1) a = List.replicate n (bit 7))
      ∧ readTimes 9 (cpuWrite (cpuWrite s a 1) a 0) a = [bit 7, bit 6, bit 5, bit 4, bit 3, bit 2, bit 1, bit 0, 0]

/-- A write to 0x4014 arms a transfer from offset 0, also while one is in flight. An armed transfer from any page ends
after exactly 513 DMA steps if its first is on an odd tick and 514 if it is on an even one, having changed no CPU
register, no work RAM, no cartridge and not the OAM address; a page whose reads have no side effect is then in OAM.
One DMA step, for every page, device pages too: the wait, the read through the bus with its side effects, and the
write to OAM (R190, R191, R192, R193).

Note: Rests on the spec's own decisions D21, D22. -/
def Obligations.DmaCopiesThePageIntoOam : Prop :=
  (∀ (s : State) (v : Byte),
    cpuWrite s 0x4014 v = s.setDma { s.dma with page := v, addr := 0, transfer := true, wait := true })
    ∧ (∀ s : State, s.dma.transfer = true → s.dma.wait = true → s.dma.addr = 0 →
      let n := if s.master % 2 = 1 then 513 else 514
      let t := dmaTicks n s
      let source (k : Nat) : Word := BitVec.ofNat 16 (s.dma.page.toNat * 256 + k)
      (dmaTicks (n - 1) s).dma.transfer = true ∧ t.dma.transfer = false
        ∧ t.ppu.oamAddr = s.ppu.oamAddr ∧ t.ram = s.ram ∧ t.cpu = s.cpu ∧ t.cart = s.cart
        ∧ ((∀ k, k < 256 → PlainAddress (source k)) →
          ∀ k, k < 256 → Memory.read t.ppu.oam k = (cpuRead s (source k)).1)
        ∧ (s.dma.page.toNat < 0x20 →
          ∀ k, k < 256 → Memory.read t.ppu.oam k = Memory.read s.ram ((s.dma.page.toNat * 256 + k) % 2048)))
    ∧ ∀ s : State,
      let d := s.dma
      let r := cpuRead s (word16 d.page d.addr)
      (d.wait = true → dmaStep s = if s.master % 2 = 1 then s.setDma { d with wait := false } else s)
        ∧ (d.wait = false → s.master % 2 = 0 → dmaStep s = r.2.setDma { d with data := r.1 })
        ∧ (d.wait = false → s.master % 2 = 1 → ∃ oam,
          dmaStep s = (s.setPpu { s.ppu with oam := oam }).setDma
            (if d.addr = 255 then { d with addr := 0, transfer := false, wait := true } else { d with addr := d.addr + 1 })
          ∧ ∀ k, Memory.read oam k = if k = d.addr.toNat then d.data else Memory.read s.ppu.oam k)

/-! The PPU's timing. -/

/-- Vblank is set at (241, 1), with the NMI if it is enabled, and cleared with the sprite bits at (-1, 1); no other
PPU cycle touches the status or the NMI line (R655, R633).

Note: Rests on the spec's own decisions D34, D41. -/
def Obligations.VblankAtItsRasterPositions : Prop :=
  ∀ s : State,
    let q := s.ppu
    let r := (ppuClock s).ppu
    (q.scanline = 241 ∧ q.cycle = 1 → r.status = q.status ||| 0x80 ∧ r.nmi = (q.nmi || q.ctrl.getLsbD 7))
      ∧ (q.scanline = -1 ∧ q.cycle = 1 → r.status = q.status &&& 0x1F ∧ r.nmi = q.nmi)
      ∧ (q.cycle ≠ 1 ∨ (q.scanline ≠ 241 ∧ q.scanline ≠ -1) → r.status = q.status ∧ r.nmi = q.nmi)

/-- How each PPU cycle moves the raster position and sets the completion flags; the frame period is 89342 PPU cycles,
and the first frame after reset takes 89001 (R654, R656, R79).

Note: Rests on the spec's own decisions D20, D50. -/
def Obligations.RasterAdvanceAndFramePeriod : Prop :=
  (∀ s : State, rasterWf s.ppu = true →
    let t := ppuClocks 89342 s
    t.ppu.scanline = s.ppu.scanline ∧ t.ppu.cycle = s.ppu.cycle ∧ t.ppu.frameComplete = true
      ∧ t.ppu.scanlineComplete = true)
    ∧ (∀ s : State, s.ppu.scanline = 0 → s.ppu.cycle = 0 → s.ppu.frameComplete = false →
      (ppuClocks 89000 s).ppu.frameComplete = false ∧ (ppuClocks 89001 s).ppu.frameComplete = true)
    ∧ ∀ s : State,
      let q := s.ppu
      let r := (ppuClock s).ppu
      (q.cycle ≠ 340 → r.cycle = q.cycle + 1 ∧ r.scanline = q.scanline ∧ r.scanlineComplete = q.scanlineComplete)
        ∧ (q.cycle = 340 → r.cycle = 0 ∧ r.scanline = (if q.scanline = 260 then -1 else q.scanline + 1)
          ∧ r.scanlineComplete = true)
        ∧ r.frameComplete = (q.frameComplete || decide (q.cycle = 340 ∧ q.scanline = 260))

/-- The coarse-X and Y increments and the copies of the temporary address's X fields and Y fields, field by field
(R665, R666, R667, R669).

Note: Rests on the spec's own decisions D37 and on its general-knowledge sentences. -/
def Obligations.ScrollIncrementsAndCopies : Prop :=
  ∀ v t : BitVec 15,
    (let x := nextCoarseX v
     (coarseX v = 31 → coarseX x = 0 ∧ nametableX x = ~~~ nametableX v)
        ∧ (coarseX v ≠ 31 → coarseX x = coarseX v + 1 ∧ nametableX x = nametableX v)
        ∧ coarseY x = coarseY v ∧ nametableY x = nametableY v ∧ fineY x = fineY v)
    ∧ (let y := nextY v
       (fineY v ≠ 7 → fineY y = fineY v + 1 ∧ coarseY y = coarseY v ∧ nametableY y = nametableY v)
        ∧ (fineY v = 7 → fineY y = 0
          ∧ (coarseY v = 29 → coarseY y = 0 ∧ nametableY y = ~~~ nametableY v)
          ∧ (coarseY v = 31 → coarseY y = 0 ∧ nametableY y = nametableY v)
          ∧ (coarseY v ≠ 29 → coarseY v ≠ 31 → coarseY y = coarseY v + 1 ∧ nametableY y = nametableY v))
        ∧ coarseX y = coarseX v ∧ nametableX y = nametableX v)
    ∧ (let x := copyX v t
       nametableX x = nametableX t ∧ coarseX x = coarseX t
        ∧ fineY x = fineY v ∧ nametableY x = nametableY v ∧ coarseY x = coarseY v)
    ∧ (let y := copyY v t
       fineY y = fineY t ∧ nametableY y = nametableY t ∧ coarseY y = coarseY t
        ∧ nametableX y = nametableX v ∧ coarseX y = coarseX v)

/-- What one PPU cycle does to the VRAM address and the cartridge, at every raster position: nothing with rendering
off or off the render lines; else the increments, the two copies and the scanline hook at their cycles (R661,
R665-R667, R669, R673). It changes no register of the CPU, no work RAM, DMA or controller state, no byte of the PPU's
memories, no register of its interface but the status and the VRAM address, and of the cartridge only its mapper's
state (R654, R711).

Note: Rests on the spec's own decisions D20, D29, D37, D50 and on its general-knowledge sentences. -/
def Obligations.VramAddressHookAndFramePerPpuCycle : Prop :=
  (∀ s : State, rasterWf s.ppu = true →
    let q := s.ppu
    let t := ppuClock s
    let on := rendering q && decide (q.scanline ≤ 239)
    let c := q.cycle
    t.ppu.vramAddr =
        (if on = false then q.vramAddr
         else if c = 256 then nextY (nextCoarseX q.vramAddr)
         else if c = 257 then copyX q.vramAddr q.tramAddr
         else if c % 8 = 0 ∧ ((8 ≤ c ∧ c ≤ 248) ∨ (328 ≤ c ∧ c ≤ 336)) then nextCoarseX q.vramAddr
         else if q.scanline = -1 ∧ 280 ≤ c ∧ c ≤ 304 then copyY q.vramAddr q.tramAddr
         else q.vramAddr)
      ∧ t.ppu.tramAddr = q.tramAddr
      ∧ t.cart = if on && decide (c = 260) then s.cart.map cartScanline else s.cart)
    ∧ ∀ s : State,
      let q := s.ppu
      let t := ppuClock s
      let r := t.ppu
      t.cpu = s.cpu ∧ t.ram = s.ram ∧ t.master = s.master ∧ t.dma = s.dma ∧ t.pad0 = s.pad0 ∧ t.pad1 = s.pad1
        ∧ r.oam = q.oam ∧ r.nt = q.nt ∧ r.pal = q.pal ∧ r.pat = q.pat
        ∧ r.ctrl = q.ctrl ∧ r.mask = q.mask ∧ r.tramAddr = q.tramAddr ∧ r.fineX = q.fineX ∧ r.w = q.w
        ∧ r.dataBuffer = q.dataBuffer ∧ r.oamAddr = q.oamAddr
        ∧ ∀ c, s.cart = some c → ∃ m, t.cart = some { c with mapper := m }

/-- What one PPU cycle does to the background registers and the frame buffer. In the fetch window the four registers
shift while the background is rendered and, every eighth cycle, take the next tile in their low bytes; the tile id,
the attribute with its quadrant and the two pattern bytes are fetched at their cycles (R661-R664, R667, R668). On the
screen the pixel written is palette entry 4 · palette + pixel of the bits that fine X selects, entry 0 while the
background is not rendered, and the sprite unit's while sprites are; every other pixel stays, and off the screen none
is written (R670, R671, R672).

Note: Rests on the spec's own decisions D34, D35, D37, D38, D44, D47 and on its general-knowledge sentences. The pixel
is the index into the open colour table (log 7), and the open sprite unit's while sprites are rendered (log 6). -/
def Obligations.BackgroundRegistersAndPixels : Prop :=
  (∀ s : State, rasterWf s.ppu = true →
    let q := s.ppu
    let r := (ppuClock s).ppu
    let c := q.cycle
    let line := decide (q.scanline ≤ 239)
    let window := line && (decide (2 ≤ c ∧ c ≤ 257) || decide (321 ≤ c ∧ c ≤ 337))
    let at_ (phase : Nat) : Bool := window && decide ((c - 1) % 8 = phase)
    let next (w : Word) (low : Byte) : Word :=
      let shifted := if window && q.mask.getLsbD 3 then w <<< 1 else w
      if at_ 0 then BitVec.ofNat 16 (shifted.toNat / 256 * 256 + low.toNat) else shifted
    let fill (k : Nat) : Byte := if q.bgNextAttr.getLsbD k then 0xFF else 0
    let v := q.vramAddr.toNat
    let tile : Word := BitVec.ofNat 16 (0x2000 + v % 0x1000)
    let attrAt : Word := BitVec.ofNat 16 (0x23C0 + v / 1024 % 4 * 1024 + v / 128 % 8 * 8 + v / 4 % 8)
    let quadrant := 4 * (v / 64 % 2) + 2 * (v / 2 % 2)
    let pattern := (if q.ctrl.getLsbD 4 then 0x1000 else 0) + 16 * q.bgNextId.toNat + v / 4096
    r.bgPatLo = next q.bgPatLo q.bgNextLo ∧ r.bgPatHi = next q.bgPatHi q.bgNextHi
      ∧ r.bgAttLo = next q.bgAttLo (fill 0) ∧ r.bgAttHi = next q.bgAttHi (fill 1)
      ∧ r.bgNextId = (if at_ 0 || line && (decide (c = 338) || decide (c = 340)) then ppuRead s tile else q.bgNextId)
      ∧ r.bgNextAttr = (if at_ 2 then (ppuRead s attrAt >>> quadrant) &&& 3 else q.bgNextAttr)
      ∧ r.bgNextLo = (if at_ 4 then ppuRead s (BitVec.ofNat 16 pattern) else q.bgNextLo)
      ∧ r.bgNextHi = (if at_ 6 then ppuRead s (BitVec.ofNat 16 (pattern + 8)) else q.bgNextHi))
    ∧ (∀ s : State, (s.ppu.scanline < 0 ∨ 239 < s.ppu.scanline ∨ s.ppu.cycle < 1 ∨ 256 < s.ppu.cycle) →
      (ppuClock s).ppu.screen = s.ppu.screen ∧ (ppuClock s).draws = s.draws)
    ∧ ∀ s : State, 0 ≤ s.ppu.scanline → s.ppu.scanline ≤ 239 → 1 ≤ s.ppu.cycle → s.ppu.cycle ≤ 256 →
      let q := s.ppu
      let r := (ppuClock s).ppu
      let k := q.scanline.toNat * 256 + (q.cycle - 1)
      let bit (w : Word) : Nat := if q.mask.getLsbD 3 && w.getLsbD (15 - q.fineX.toNat) then 1 else 0
      let palette := 2 * bit r.bgAttHi + bit r.bgAttLo
      let pixel := 2 * bit r.bgPatHi + bit r.bgPatLo
      ∀ j, screenRead r.screen j =
        if j = k then
          (if q.mask.getLsbD 4 then .drawn s.draws else .colour ((Memory.read q.pal (4 * palette + pixel)).setWidth 6))
        else screenRead q.screen j

/-! The mappers. -/

/-- Mappers 0, 2 and 3 on the CPU side: nothing below 0x8000 is handled; where 0x8000-0xFFFF reads, and what a write
there does (R171, R177, R179, R186).

Note: Rests on the spec's own decisions D48 and on its general-knowledge sentences. -/
def Obligations.ProgramWindowsOfMappers023 : Prop :=
  ∀ (s : State) (c : Cartridge) (a : Word) (v : Byte), s.cart = some c →
    let n := c.nPrg.toNat
    let fixed : Prop := cpuRead s a = (Memory.read c.prg (a.toNat % if 1 < n then 0x8000 else 0x4000), s)
    (a.toNat < 0x8000 → (c.mapper = .mapper0 ∨ (∃ b, c.mapper = .mapper2 b) ∨ ∃ b, c.mapper = .mapper3 b) →
      cartCpuRead c a = none ∧ cartCpuWrite c a v = none)
      ∧ (0x8000 ≤ a.toNat → c.mapper = .mapper0 → fixed ∧ cpuWrite s a v = s)
      ∧ (∀ b, 0x8000 ≤ a.toNat → c.mapper = .mapper3 b →
        fixed ∧ cpuWrite s a v = s.setCart (some { c with mapper := .mapper3 (v &&& 0x03) }))
      ∧ ∀ b, 0x8000 ≤ a.toNat → c.mapper = .mapper2 b →
        cpuRead s a = (Memory.read c.prg ((if a.toNat < 0xC000 then b.toNat % n else n - 1) * 16384 + a.toNat % 0x4000), s)
          ∧ cpuWrite s a v = s.setCart (some { c with mapper := .mapper2 (v &&& 0x0F) })

/-- Mapper 1's windows at 0x8000-0xFFFF in its PRG modes; the number of 32 KiB banks is half the number of 16 KiB
banks, rounded down, which for an odd number is the model's reading (log 11), and with one 16 KiB bank the 32 KiB
windows read somewhere in the store (log 11). The static RAM of mappers 1 and 4 at 0x6000-0x7FFF: a write there is
read back and leaves its other bytes; below 0x6000 they handle nothing (R155, R173, R174, R181, R182, R185).

Note: Rests on the spec's own decisions D25, D27, D28, D30 and on its general-knowledge sentences. The rounding for an
odd number of banks and the free offset for one bank are the model's choice (log 11). -/
def Obligations.MapperOneWindowsAndStaticRam : Prop :=
  (∀ (s : State) (c : Cartridge) (m : Mapper1) (a : Word), s.cart = some c → c.mapper = .mapper1 m → 0x8000 ≤ a.toNat →
    let n := c.nPrg.toNat
    let mode := m.control.toNat / 4 % 4
    let low : Bool := decide (a.toNat < 0xC000)
    let shows (offset : Nat) : Prop := cpuRead s a = (Memory.read c.prg offset, s)
    (mode < 2 → 2 ≤ n → shows (m.prg.toNat / 2 % (n / 2) * 32768 + a.toNat % 0x8000))
      ∧ (mode < 2 → n = 1 → ∃ offset, offset < 16384 ∧ shows offset)
      ∧ (mode = 2 → shows ((if low then 0 else m.prg.toNat % n) * 16384 + a.toNat % 0x4000))
      ∧ (mode = 3 → 1 ≤ n → shows ((if low then m.prg.toNat % n else n - 1) * 16384 + a.toNat % 0x4000)))
    ∧ ∀ (s : State) (c : Cartridge) (a b : Word) (v : Byte), s.cart = some c →
      ((∃ m, c.mapper = .mapper1 m) ∨ ∃ m, c.mapper = .mapper4 m) →
      (a.toNat < 0x6000 → cartCpuRead c a = none ∧ cartCpuWrite c a v = none)
        ∧ (0x6000 ≤ a.toNat → a.toNat < 0x8000 → 0x6000 ≤ b.toNat → b.toNat < 0x8000 →
          (cpuRead (cpuWrite s a v) b).1 = (if a = b then v else (cpuRead s b).1)
            ∧ (cpuRead (cpuWrite s a v) b).2 = cpuWrite s a v)

/-- Mapper 1's serial port: a write with bit 7 set clears the shift register and fixes the last bank; from an empty
register, five writes store their bits 0, first bit lowest, in the register that the fifth address selects (R174).

Note: Rests on the spec's own decisions D27 and on its general-knowledge sentences. -/
def Obligations.MapperOneSerialLoad : Prop :=
  (∀ (s : State) (c : Cartridge) (m : Mapper1) (a : Word) (v : Byte), s.cart = some c → c.mapper = .mapper1 m →
    0x8000 ≤ a.toNat → cpuWrite s a v = s.setCart (some { c with mapper := .mapper1 (mapper1Write m a v) }))
    ∧ (∀ (m : Mapper1) (a : Word) (v : Byte), v.getLsbD 7 = true →
      mapper1Write m a v = { m with load := 0, loadCount := 0, control := m.control ||| 0x0C })
    ∧ ∀ (m : Mapper1) (a1 a2 a3 a4 a5 : Word) (v1 v2 v3 v4 v5 : Byte), m.loadCount = 0 →
      v1.getLsbD 7 = false → v2.getLsbD 7 = false → v3.getLsbD 7 = false → v4.getLsbD 7 = false →
      v5.getLsbD 7 = false →
      let bit (v : Byte) : Nat := v.toNat % 2
      let value : BitVec 5 := BitVec.ofNat 5 (bit v1 + 2 * bit v2 + 4 * bit v3 + 8 * bit v4 + 16 * bit v5)
      let done := { m with load := 0, loadCount := 0 }
      mapper1Write (mapper1Write (mapper1Write (mapper1Write (mapper1Write m a1 v1) a2 v2) a3 v3) a4 v4) a5 v5 =
        if a5.toNat / 0x2000 % 4 = 0 then { done with control := value }
        else if a5.toNat / 0x2000 % 4 = 1 then { done with chr0 := value }
        else if a5.toNat / 0x2000 % 4 = 2 then { done with chr1 := value }
        else { done with prg := value.setWidth 4 }

/-- Mapper 4's four 8 KiB windows under both PRG modes, bank numbers reduced modulo the bank count (R181, R185), and
what a write to each of its registers does: `bank_select`, the register it selects, the mirroring bit, the IRQ latch,
the counter to 0, disable and acknowledge, enable; 0xA001 is ignored (R182, R674).

Note: Rests on the spec's own decisions D25, D28, D30 and on its general-knowledge sentences. -/
def Obligations.MapperFourWindowsAndRegisters : Prop :=
  ∀ (s : State) (c : Cartridge) (m : Mapper4) (a : Word) (v : Byte), s.cart = some c → c.mapper = .mapper4 m →
    0x8000 ≤ a.toNat →
    let n := 2 * c.nPrg.toNat
    let swapped := m.bankSelect.getLsbD 6
    let r6 := (m.regs.get 6).toNat % 64
    let r7 := (m.regs.get 7).toNat % 64
    let bank :=
      if a.toNat < 0xA000 then (if swapped then n - 2 else r6)
      else if a.toNat < 0xC000 then r7
      else if a.toNat < 0xE000 then (if swapped then r6 else n - 2)
      else n - 1
    let range := (a.toNat - 0x8000) / 0x2000
    let even : Prop := a.toNat % 2 = 0
    let odd : Prop := a.toNat % 2 = 1
    let leaves (m' : Mapper4) : Prop := cpuWrite s a v = s.setCart (some { c with mapper := .mapper4 m' })
    cpuRead s a = (Memory.read c.prg (bank % n * 8192 + a.toNat % 8192), s)
      ∧ (range = 0 → even → leaves { m with bankSelect := v })
      ∧ (range = 0 → odd → ∃ regs, leaves { m with regs := regs }
        ∧ ∀ k : Fin 8, regs.get k = if k.val = m.bankSelect.toNat % 8 then v else m.regs.get k)
      ∧ (range = 1 → even → leaves { m with mirror4 := BitVec.ofNat 1 v.toNat }) ∧ (range = 1 → odd → cpuWrite s a v = s)
      ∧ (range = 2 → even → leaves { m with irqLatch := v }) ∧ (range = 2 → odd → leaves { m with irqCounter := 0 })
      ∧ (range = 3 → even → leaves { m with irqEnable := false, irqActive := false })
      ∧ (range = 3 → odd → leaves { m with irqEnable := true })

/-- Mapper 4's IRQ counter, armed at 0 with latch N and enabled: calls 1 to N + 1 leave N, N - 1, …, 0, and the line
rises on call N + 1 and not before; `irq_clear()` lowers it. Holding a count N of 1 or more, it is at 0 after N calls,
and enabled with the line down it raises the line on the N-th call and not before. While it is disabled no call raises
the line, and the counter counts as before (R674). The scanline hook is one such call on mapper 4 and does nothing on
the others, whose line is never up (R673, R675).

Note: Rests on the spec's own decisions D28, D29. -/
def Obligations.ScanlineHookAndIrqCounter : Prop :=
  (∀ m : Mapper4, m.irqCounter = 0 → m.irqEnable = true → m.irqActive = false →
    let n := m.irqLatch.toNat
    (∀ k, k ≤ n → (mapper4Scanlines (k + 1) m).irqCounter.toNat = n - k
      ∧ ((mapper4Scanlines (k + 1) m).irqActive = true ↔ k = n))
      ∧ ∀ c : Cartridge, c.mapper = .mapper4 (mapper4Scanlines (n + 1) m) →
        cartIrqState c = true ∧ cartIrqState (cartIrqClear c) = false)
    ∧ (∀ m : Mapper4, ∀ k, k ≤ m.irqCounter.toNat →
      (mapper4Scanlines k m).irqCounter.toNat = m.irqCounter.toNat - k
        ∧ (1 ≤ m.irqCounter.toNat → m.irqEnable = true → m.irqActive = false →
          ((mapper4Scanlines k m).irqActive = true ↔ k = m.irqCounter.toNat)))
    ∧ (∀ c : Cartridge,
      (∀ m, c.mapper = .mapper4 m → cartScanline c = { c with mapper := .mapper4 (mapper4Scanline m) }
        ∧ cartIrqState c = m.irqActive ∧ cartIrqClear c = { c with mapper := .mapper4 { m with irqActive := false } })
        ∧ ((∀ m, c.mapper ≠ .mapper4 m) → cartScanline c = c ∧ cartIrqState c = false ∧ cartIrqClear c = c))
    ∧ ∀ (m : Mapper4) (n : Nat), m.irqEnable = false →
      (mapper4Scanlines n m).irqActive = m.irqActive
        ∧ (mapper4Scanlines n m).irqCounter = (mapper4Scanlines n { m with irqEnable := true }).irqCounter

/-- The cartridge behind its windows. Every bank number reaches an offset inside its store, PRG and CHR, on every
mapper (R185, R170); which byte of the CHR store a read of 0x0000-0x1FFF of the PPU's space gives on each mapper
(R172, R175, R178, R180, R183); CHR RAM written is read back, at its own address only, and a write to CHR ROM is
dropped (R186); and the arrangement of the nametables that each mapper reports (R176, R184).

Note: Rests on the spec's own decisions D25, D27, D28, D33, D46, D48 and on its general-knowledge sentences. Mapper
1's 32 KiB banks are log 11's and mapper 3's one bank of CHR RAM is log 12. -/
def Obligations.CharacterOffsetsAndMirroring : Prop :=
  (∀ (c : Cartridge) (a : Word) (o : Nat), cartWf c = true →
    (cpuMapRead c a = .prg o → o < c.nPrg.toNat * 16384) ∧ (ppuMapRead c a = .chr o → o < chrSize c))
    ∧ (∀ (c : Cartridge) (a : Word), a.toNat < 0x2000 →
      let n := c.nChr.toNat
      let shows (offset : Nat) : Prop := ppuMapRead c a = .chr offset
        ∧ ∀ s : State, s.cart = some c → ppuRead s a = Memory.read c.chr offset
      (c.mapper = .mapper0 → shows a.toNat) ∧ (∀ b, c.mapper = .mapper2 b → shows a.toNat)
        ∧ (∀ b, c.mapper = .mapper3 b → shows (if n = 0 then a.toNat else b.toNat % n * 8192 + a.toNat))
        ∧ (∀ m, c.mapper = .mapper1 m → shows
          (if n = 0 then a.toNat
           else if m.control.getLsbD 4 = false then m.chr0.toNat / 2 % n * 8192 + a.toNat
           else (if a.toNat < 0x1000 then m.chr0.toNat else m.chr1.toNat) % (2 * n) * 4096 + a.toNat % 4096))
        ∧ ∀ m, c.mapper = .mapper4 m →
          let r (k : Nat) : Nat := (m.regs.toList.getD k 0).toNat
          let slot := a.toNat / 1024
          let pairs : Bool := decide (slot < 4) != m.bankSelect.getLsbD 7
          let bank := if pairs then r (slot % 4 / 2) / 2 * 2 + slot % 2 else r (2 + slot % 4)
          shows (if n = 0 then a.toNat else bank % (8 * n) * 1024 + a.toNat % 1024))
    ∧ (∀ (c : Cartridge) (a : Word), 0x2000 ≤ a.toNat → ppuMapRead c a = .notHandled)
    ∧ (∀ (s : State) (c : Cartridge) (a b : Word) (v : Byte), s.cart = some c → a.toNat < 0x2000 → b.toNat < 0x2000 →
      (c.nChr = 0 → ppuRead (ppuWrite s a v) b = if a = b then v else ppuRead s b)
        ∧ (c.nChr ≠ 0 → ppuWrite s a v = s))
    ∧ ∀ c : Cartridge,
      let header : Mirroring := if c.hwMirror = .vertical then .vertical else .horizontal
      (c.mapper = .mapper0 → cartMirroring c = header) ∧ (∀ b, c.mapper = .mapper2 b → cartMirroring c = header)
        ∧ (∀ b, c.mapper = .mapper3 b → cartMirroring c = header)
        ∧ (∀ m, c.mapper = .mapper1 m → cartMirroring c =
          [Mirroring.oneScreenLow, .oneScreenHigh, .vertical, .horizontal].getD (m.control.toNat % 4) .vertical)
        ∧ ∀ m, c.mapper = .mapper4 m → cartMirroring c = if m.mirror4 = 0 then .vertical else .horizontal

/-- Inserting an image: it fails, with the machine unchanged, exactly when one of the five conditions of R812 holds;
else the cartridge holds the header's fields and the image's bytes, the trainer's where flags6 bit 2 says there is
one, is well formed and has its mapper at the reset values, with the static RAM that power-on gives it (R800, R810,
R811, R812).

Note: Rests on the spec's own decisions D9, D31, D32, D52 and on its general-knowledge sentences. That a mapper stands
at its reset values when it is inserted is the spec's default (log 16). -/
def Obligations.CartridgeInsertion : Prop :=
  ∀ (sram image : List Byte) (s : State),
    let byte (k : Nat) : Byte := image.getD k 0
    let trainer := if (byte 6).getLsbD 2 then 512 else 0
    let nPrg := (byte 4).toNat
    let nChr := (byte 5).toNat
    let mapper := ((byte 7 &&& 0xF0) ||| (byte 6 >>> 4)).toNat
    let bad : Prop := image.length < 16 ∨ image.take 4 ≠ [0x4E, 0x45, 0x53, 0x1A] ∨ 4 < mapper ∨ nPrg = 0
      ∨ image.length < 16 + trainer + 16384 * nPrg + 8192 * nChr
    (bad → insertCartridge sram image s = .error .unsupported ∧ hostAct (.insert sram image) s = .next s)
      ∧ (¬ bad → ∃ c, insertCartridge sram image s = .ok (s.setCart (some c))
        ∧ hostAct (.insert sram image) s = .next (s.setCart (some c))
        ∧ c.nPrg = byte 4 ∧ c.nChr = byte 5 ∧ c.mapper.id = mapper
        ∧ (c.hwMirror = .vertical ↔ (byte 6).getLsbD 0 = true)
        ∧ (c.trainer.isSome = true ↔ (byte 6).getLsbD 2 = true)
        ∧ (∀ m, c.trainer = some m → ∀ k, k < 512 → Memory.read m k = byte (16 + k))
        ∧ (∀ k, k < 16384 * nPrg → Memory.read c.prg k = byte (16 + trainer + k))
        ∧ (∀ k, k < 8192 * nChr → Memory.read c.chr k = byte (16 + trainer + 16384 * nPrg + k))
        ∧ (nChr = 0 → ∀ k, Memory.read c.chr k = 0)
        ∧ ((∃ m, c.mapper = .mapper1 m) ∨ (∃ m, c.mapper = .mapper4 m) →
          ∀ k, k < 8192 → Memory.read (cartSram c) k = sram.getD k 0)
        ∧ cartWf c = true ∧ cartReset c = c)

end
end

