-- ==== Sys2Proof/Laws/Memory.lean ====
section
/-!
SUPPORT. The laws of the sparse stores: a read after a write, the frame of a write, and that a write within the
size keeps the canonical form. The first two hold of every list, canonical or not.
-/
namespace Sys2Proof.Machine

section Cells
variable {α : Type} (d : α)

theorem cellsRead_erase_same (m : List (Nat × α)) (a : Nat) : cellsRead d (cellsErase m a) a = d := by
  induction m with
  | nil => rfl
  | cons c m ih =>
    obtain ⟨k, v⟩ := c
    by_cases h : k = a <;> simp [cellsErase, cellsRead, h, ih]

theorem cellsRead_erase_ne (m : List (Nat × α)) {a b : Nat} (h : b ≠ a) :
    cellsRead d (cellsErase m a) b = cellsRead d m b := by
  induction m with
  | nil => rfl
  | cons c m ih =>
    obtain ⟨k, v⟩ := c
    by_cases hk : k = a
    · subst hk
      simp [cellsErase, cellsRead, ih, Ne.symm h]
    · simp [cellsErase, cellsRead, hk, ih]

theorem cellsRead_insert_same (m : List (Nat × α)) (a : Nat) (v : α) (h : ∀ c ∈ m, c.1 ≠ a) :
    cellsRead d (cellsInsert m a v) a = v := by
  induction m with
  | nil => simp [cellsInsert, cellsRead]
  | cons c m ih =>
    obtain ⟨k, w⟩ := c
    have hk : k ≠ a := h (k, w) (by simp)
    have hm : ∀ c ∈ m, c.1 ≠ a := fun c hc => h c (by simp [hc])
    by_cases hlt : a < k
    · simp [cellsInsert, cellsRead, hlt]
    · simp [cellsInsert, cellsRead, hlt, hk, ih hm]

theorem cellsRead_insert_ne (m : List (Nat × α)) (v : α) {a b : Nat} (h : b ≠ a) :
    cellsRead d (cellsInsert m a v) b = cellsRead d m b := by
  induction m with
  | nil => simp [cellsInsert, cellsRead, Ne.symm h]
  | cons c m ih =>
    obtain ⟨k, w⟩ := c
    by_cases hlt : a < k
    · simp [cellsInsert, cellsRead, hlt, Ne.symm h]
    · simp [cellsInsert, cellsRead, hlt, ih]

theorem cellsErase_ne (m : List (Nat × α)) (a : Nat) : ∀ c ∈ cellsErase m a, c.1 ≠ a := by
  induction m with
  | nil => simp [cellsErase]
  | cons c m ih =>
    obtain ⟨k, v⟩ := c
    by_cases hk : k = a
    · simpa [cellsErase, hk] using ih
    · intro c hc
      simp only [cellsErase, hk, if_false, List.mem_cons] at hc
      rcases hc with rfl | hc
      · exact hk
      · exact ih c hc

variable [DecidableEq α]

theorem cellsRead_write_same (m : List (Nat × α)) (a : Nat) (v : α) :
    cellsRead d (cellsWrite d m a v) a = v := by
  unfold cellsWrite
  split
  · next h => rw [h]; exact cellsRead_erase_same d m a
  · exact cellsRead_insert_same d _ a v (cellsErase_ne m a)

theorem cellsRead_write_ne (m : List (Nat × α)) (v : α) {a b : Nat} (h : b ≠ a) :
    cellsRead d (cellsWrite d m a v) b = cellsRead d m b := by
  unfold cellsWrite
  split
  · exact cellsRead_erase_ne d m h
  · rw [cellsRead_insert_ne d _ v h]; exact cellsRead_erase_ne d m h

theorem cellsWfFrom_mono {size lo lo' : Nat} (h : lo' ≤ lo) {m : List (Nat × α)}
    (hm : cellsWfFrom d size lo m = true) : cellsWfFrom d size lo' m = true := by
  cases m with
  | nil => rfl
  | cons c m =>
    obtain ⟨k, v⟩ := c
    simp only [cellsWfFrom, Bool.and_eq_true, decide_eq_true_eq] at hm ⊢
    exact ⟨⟨⟨by omega, hm.1.1.2⟩, hm.1.2⟩, hm.2⟩

theorem cellsErase_wf {size lo : Nat} (a : Nat) {m : List (Nat × α)} (hm : cellsWfFrom d size lo m = true) :
    cellsWfFrom d size lo (cellsErase m a) = true := by
  induction m generalizing lo with
  | nil => rfl
  | cons c m ih =>
    obtain ⟨k, v⟩ := c
    simp only [cellsWfFrom, Bool.and_eq_true, decide_eq_true_eq] at hm
    obtain ⟨⟨⟨hlo, hk⟩, hv⟩, hm⟩ := hm
    by_cases h : k = a
    · simp only [cellsErase, h, if_true]
      exact cellsWfFrom_mono d (by omega) (ih hm)
    · simp only [cellsErase, h, if_false, cellsWfFrom, Bool.and_eq_true, decide_eq_true_eq]
      exact ⟨⟨⟨hlo, hk⟩, hv⟩, ih hm⟩

theorem cellsInsert_wf {size lo a : Nat} {v : α} (ha : a < size) (hlo : lo ≤ a) (hv : v ≠ d)
    {m : List (Nat × α)} (hne : ∀ c ∈ m, c.1 ≠ a) (hm : cellsWfFrom d size lo m = true) :
    cellsWfFrom d size lo (cellsInsert m a v) = true := by
  induction m generalizing lo with
  | nil => simp [cellsInsert, cellsWfFrom, ha, hlo, hv]
  | cons c m ih =>
    obtain ⟨k, w⟩ := c
    have hka : k ≠ a := hne (k, w) (by simp)
    simp only [cellsWfFrom, Bool.and_eq_true, decide_eq_true_eq] at hm
    obtain ⟨⟨⟨hlok, hk⟩, hw⟩, hm⟩ := hm
    by_cases h : a < k
    · simp only [cellsInsert, h, if_true, cellsWfFrom, Bool.and_eq_true, decide_eq_true_eq]
      exact ⟨⟨⟨hlo, ha⟩, hv⟩, ⟨⟨by omega, hk⟩, hw⟩, hm⟩
    · simp only [cellsInsert, h, if_false, cellsWfFrom, Bool.and_eq_true, decide_eq_true_eq]
      exact ⟨⟨⟨hlok, hk⟩, hw⟩, ih (by omega) (fun c hc => hne c (by simp [hc])) hm⟩

theorem cellsWrite_wf {size a : Nat} (v : α) (ha : a < size) {m : List (Nat × α)}
    (hm : cellsWfFrom d size 0 m = true) : cellsWfFrom d size 0 (cellsWrite d m a v) = true := by
  unfold cellsWrite
  split
  · exact cellsErase_wf d a hm
  · next hv => exact cellsInsert_wf d ha (Nat.zero_le a) hv (cellsErase_ne m a) (cellsErase_wf d a hm)

end Cells

/-- A byte just written reads back. -/
@[simp] theorem Memory.read_write_same (m : Memory) (a : Nat) (v : Byte) :
    Memory.read (Memory.write m a v) a = v := cellsRead_write_same _ m a v

/-- A write leaves every other byte alone. -/
theorem Memory.read_write_ne (m : Memory) (v : Byte) {a b : Nat} (h : b ≠ a) :
    Memory.read (Memory.write m a v) b = Memory.read m b := cellsRead_write_ne _ m v h

/-- A read after a write, in one equation. -/
theorem Memory.read_write (m : Memory) (a b : Nat) (v : Byte) :
    Memory.read (Memory.write m a v) b = if b = a then v else Memory.read m b := by
  split
  · next h => rw [h, Memory.read_write_same]
  · next h => exact Memory.read_write_ne m v h

@[simp] theorem Memory.read_nil (a : Nat) : Memory.read [] a = 0 := rfl

/-- A write within the size keeps the canonical form. -/
theorem Memory.write_wf {size a : Nat} (v : Byte) (ha : a < size) {m : Memory} (hm : Memory.wf size m = true) :
    Memory.wf size (Memory.write m a v) = true := cellsWrite_wf _ v ha hm

@[simp] theorem Memory.wf_nil (size : Nat) : Memory.wf size [] = true := rfl

theorem storeFrom_wf (bytes : List Byte) (k size : Nat) (h : k + bytes.length ≤ size) :
    cellsWfFrom Memory.fill size k (storeFrom k bytes) = true := by
  induction bytes generalizing k with
  | nil => rfl
  | cons b bs ih =>
    simp only [List.length_cons] at h
    have hrec := ih (k + 1) (by omega)
    unfold storeFrom
    split
    · exact cellsWfFrom_mono _ (by omega) hrec
    · next hb =>
      simp only [cellsWfFrom, Bool.and_eq_true, decide_eq_true_eq]
      exact ⟨⟨⟨le_refl k, by omega⟩, hb⟩, hrec⟩

/-- A list of bytes laid out as a store is in canonical form. -/
theorem storeOf_wf (bytes : List Byte) {size : Nat} (h : bytes.length ≤ size) :
    Memory.wf size (storeOf bytes) = true := storeFrom_wf bytes 0 size (by omega)

theorem storeFrom_read_lt (bytes : List Byte) {k a : Nat} (h : a < k) :
    cellsRead Memory.fill (storeFrom k bytes) a = Memory.fill := by
  induction bytes generalizing k with
  | nil => rfl
  | cons b bs ih =>
    unfold storeFrom
    split
    · exact ih (by omega)
    · simp [cellsRead, show k ≠ a by omega, ih (show a < k + 1 by omega)]

theorem storeFrom_read (bytes : List Byte) (k a : Nat) :
    cellsRead Memory.fill (storeFrom k bytes) (k + a) = bytes.getD a Memory.fill := by
  induction bytes generalizing k a with
  | nil => rfl
  | cons b bs ih =>
    unfold storeFrom
    cases a with
    | zero =>
      split
      · next hb => simpa [hb] using storeFrom_read_lt bs (show k < k + 1 by omega)
      · simp [cellsRead]
    | succ a =>
      have hrec := ih (k + 1) a
      rw [show k + 1 + a = k + (a + 1) by omega] at hrec
      split
      · simpa using hrec
      · simpa [cellsRead] using hrec

/-- The store of a list of bytes reads the list's bytes, and `Memory.fill` beyond them. -/
theorem storeOf_read (bytes : List Byte) (a : Nat) :
    Memory.read (storeOf bytes) a = bytes.getD a Memory.fill := by
  simpa [storeOf, Memory.read] using storeFrom_read bytes 0 a

/-- A store of a size is canonical, whatever the bytes. -/
theorem storeOfSize_wf (size : Nat) (bytes : List Byte) : Memory.wf size (storeOfSize size bytes) = true :=
  storeOf_wf _ (by rw [List.length_take]; omega)

/-- A store of a size holds the list's bytes. -/
theorem storeOfSize_read {size a : Nat} (bytes : List Byte) (h : a < size) :
    Memory.read (storeOfSize size bytes) a = bytes.getD a Memory.fill := by
  rw [storeOfSize, storeOf_read]
  simp only [List.getD_eq_getElem?_getD]
  rw [List.getElem?_take_of_lt h]

/-- A write within the frame buffer keeps its canonical form. -/
theorem screenWrite_wf {a : Nat} (v : Pixel) (ha : a < 61440) {m : List (Nat × Pixel)} (hm : screenWf m = true) :
    screenWf (screenWrite m a v) = true := cellsWrite_wf _ v ha hm

/-- A pixel just written reads back. -/
@[simp] theorem screenRead_write_same (m : List (Nat × Pixel)) (a : Nat) (v : Pixel) :
    screenRead (screenWrite m a v) a = v := cellsRead_write_same _ m a v

/-- A pixel write leaves every other pixel alone. -/
theorem screenRead_write_ne (m : List (Nat × Pixel)) (v : Pixel) {a b : Nat} (h : b ≠ a) :
    screenRead (screenWrite m a v) b = screenRead m b := cellsRead_write_ne _ m v h

end Sys2Proof.Machine
end

