-- ==== Sys2Proof/Laws/Mapper.lean ====
section
/-!
SUPPORT. What the cartridge does to a CPU access: nothing below 0x6000, no header or PRG change, and its well-formedness
kept by every operation.
-/
namespace Sys2Proof.Machine

/-- No mapper claims a read below 0x6000 (R155). -/
theorem cartCpuRead_low (c : Cartridge) {a : Word} (h : a.toNat < 0x6000) : cartCpuRead c a = none := by
  have h1 : ¬ (0x8000 ≤ a.toNat) := by omega
  have h2 : ¬ (0x6000 ≤ a.toNat) := by omega
  cases hm : c.mapper <;> simp [cartCpuRead, cpuMapRead, hm, h1, h2]

/-- No mapper claims a write below 0x6000 (R155). -/
theorem cartCpuWrite_low (c : Cartridge) {a : Word} (v : Byte) (h : a.toNat < 0x6000) :
    cartCpuWrite c a v = none := by
  have h1 : ¬ (0x8000 ≤ a.toNat) := by omega
  have h2 : ¬ (0x6000 ≤ a.toNat) := by omega
  cases hm : c.mapper <;> simp [cartCpuWrite, hm, h1, h2]

/-- Every mapper claims a read of 0x8000-0xFFFF (R171, R173, R177, R179, R181). -/
theorem cartCpuRead_high (c : Cartridge) {a : Word} (h : 0x8000 ≤ a.toNat) :
    ∃ b, cartCpuRead c a = some b := by
  cases hm : c.mapper <;> simp [cartCpuRead, cpuMapRead, hm, h]

/-- A cartridge that differs only in its mapper's state: header, trainer, PRG and CHR are the same. -/
structure SameStores (c d : Cartridge) : Prop where
  nPrg : d.nPrg = c.nPrg
  nChr : d.nChr = c.nChr
  hwMirror : d.hwMirror = c.hwMirror
  trainer : d.trainer = c.trainer
  prg : d.prg = c.prg
  chr : d.chr = c.chr

theorem SameStores.refl (c : Cartridge) : SameStores c c := ⟨rfl, rfl, rfl, rfl, rfl, rfl⟩

/-- A cartridge with another mapper state has the same stores. -/
theorem SameStores.withMapper (c : Cartridge) (m : Mapper) : SameStores c { c with mapper := m } :=
  ⟨rfl, rfl, rfl, rfl, rfl, rfl⟩

/-- A CPU write changes no header, PRG or CHR byte (R186). -/
theorem cartCpuWrite_sameStores {c d : Cartridge} {a : Word} {v : Byte} (h : cartCpuWrite c a v = some d) :
    SameStores c d := by
  unfold cartCpuWrite at h
  split at h <;> simp only at h <;> (repeat' split at h) <;> cases h <;>
    first | exact SameStores.refl c | exact SameStores.withMapper c _

/-- The mapper's own well-formedness is all that can change with the mapper's state. -/
theorem cartWf_withMapper {c : Cartridge} {m : Mapper} (hc : cartWf c = true) (hm : mapperWf m = true) :
    cartWf { c with mapper := m } = true := by
  simp only [cartWf, Bool.and_eq_true] at hc ⊢
  exact ⟨hc.1, hm⟩

theorem cartWf_mapper {c : Cartridge} (hc : cartWf c = true) : mapperWf c.mapper = true := by
  simp only [cartWf, Bool.and_eq_true] at hc
  exact hc.2

/-- Mapper 1 never collects more than four bits (R83). -/
theorem mapper1Write_wf {m : Mapper1} (a : Word) (v : Byte) (hm : mapperWf (.mapper1 m) = true) :
    mapperWf (.mapper1 (mapper1Write m a v)) = true := by
  simp only [mapperWf, Bool.and_eq_true, decide_eq_true_eq] at hm ⊢
  obtain ⟨hcount, hsram⟩ := hm
  unfold mapper1Write
  simp only
  repeat' split
  all_goals refine ⟨?_, hsram⟩
  all_goals simp only
  all_goals omega

theorem mapper4Write_sram (m : Mapper4) (a : Word) (v : Byte) : (mapper4Write m a v).sram = m.sram := by
  unfold mapper4Write
  split <;> rfl

/-- A CPU write keeps the cartridge well formed. -/
theorem cartCpuWrite_wf {c d : Cartridge} {a : Word} {v : Byte} (hc : cartWf c = true)
    (h : cartCpuWrite c a v = some d) : cartWf d = true := by
  have hm := cartWf_mapper hc
  have hidx : a.toNat % 0x2000 < 8192 := by omega
  cases hmap : c.mapper with
  | mapper0 =>
    simp only [cartCpuWrite, hmap] at h
    split at h <;> cases h
    exact hc
  | mapper1 m =>
    rw [hmap] at hm
    simp only [cartCpuWrite, hmap] at h
    repeat' split at h
    all_goals cases h
    · exact cartWf_withMapper hc (mapper1Write_wf a v hm)
    · refine cartWf_withMapper hc ?_
      simp only [mapperWf, Bool.and_eq_true] at hm ⊢
      exact ⟨hm.1, Memory.write_wf v hidx hm.2⟩
  | mapper2 b =>
    simp only [cartCpuWrite, hmap] at h
    split at h <;> cases h
    exact cartWf_withMapper hc rfl
  | mapper3 b =>
    simp only [cartCpuWrite, hmap] at h
    split at h <;> cases h
    exact cartWf_withMapper hc rfl
  | mapper4 m =>
    rw [hmap] at hm
    simp only [cartCpuWrite, hmap] at h
    repeat' split at h
    all_goals cases h
    · refine cartWf_withMapper hc ?_
      simp only [mapperWf] at hm ⊢
      rw [mapper4Write_sram]
      exact hm
    · refine cartWf_withMapper hc ?_
      simp only [mapperWf] at hm ⊢
      exact Memory.write_wf v hidx hm

theorem cartScanline_sameStores (c : Cartridge) : SameStores c (cartScanline c) := by
  cases h : c.mapper <;> simp only [cartScanline, h] <;>
    first | exact SameStores.refl c | exact SameStores.withMapper c _

theorem cartIrqClear_sameStores (c : Cartridge) : SameStores c (cartIrqClear c) := by
  cases h : c.mapper <;> simp only [cartIrqClear, h] <;>
    first | exact SameStores.refl c | exact SameStores.withMapper c _

theorem cartReset_sameStores (c : Cartridge) : SameStores c (cartReset c) := by
  cases h : c.mapper <;> simp only [cartReset, h] <;>
    first | exact SameStores.refl c | exact SameStores.withMapper c _

theorem cartScanline_wf {c : Cartridge} (hc : cartWf c = true) : cartWf (cartScanline c) = true := by
  have hm := cartWf_mapper hc
  cases h : c.mapper <;> simp only [cartScanline, h] <;> rw [h] at hm <;>
    first | exact hc | exact cartWf_withMapper hc hm

theorem cartIrqClear_wf {c : Cartridge} (hc : cartWf c = true) : cartWf (cartIrqClear c) = true := by
  have hm := cartWf_mapper hc
  cases h : c.mapper <;> simp only [cartIrqClear, h] <;> rw [h] at hm <;>
    first | exact hc | exact cartWf_withMapper hc hm

theorem cartReset_wf {c : Cartridge} (hc : cartWf c = true) : cartWf (cartReset c) = true := by
  have hm := cartWf_mapper hc
  cases h : c.mapper <;> simp only [cartReset, h] <;> rw [h] at hm
  · exact hc
  · refine cartWf_withMapper hc ?_
    simp only [mapperWf, Bool.and_eq_true] at hm ⊢
    exact ⟨rfl, hm.2⟩
  · exact cartWf_withMapper hc rfl
  · exact cartWf_withMapper hc rfl
  · exact cartWf_withMapper hc hm

end Sys2Proof.Machine
end

