-- ==== Sys2Proof/Laws/State.lean ====
section
/-!
SUPPORT. What each plain update of `State` does to each field: one lemma per field per update, true by `rfl`.
-/
namespace Sys2Proof.Machine

section A
variable (s : State) (v : Byte)
@[simp] theorem State.setA_a : (s.setA v).cpu.a = v := rfl
@[simp] theorem State.setA_x : (s.setA v).cpu.x = s.cpu.x := rfl
@[simp] theorem State.setA_y : (s.setA v).cpu.y = s.cpu.y := rfl
@[simp] theorem State.setA_sp : (s.setA v).cpu.sp = s.cpu.sp := rfl
@[simp] theorem State.setA_pc : (s.setA v).cpu.pc = s.cpu.pc := rfl
@[simp] theorem State.setA_p : (s.setA v).cpu.p = s.cpu.p := rfl
@[simp] theorem State.setA_cycles : (s.setA v).cpu.cycles = s.cpu.cycles := rfl
@[simp] theorem State.setA_ram : (s.setA v).ram = s.ram := rfl
@[simp] theorem State.setA_master : (s.setA v).master = s.master := rfl
@[simp] theorem State.setA_dma : (s.setA v).dma = s.dma := rfl
@[simp] theorem State.setA_pad0 : (s.setA v).pad0 = s.pad0 := rfl
@[simp] theorem State.setA_pad1 : (s.setA v).pad1 = s.pad1 := rfl
@[simp] theorem State.setA_ppu : (s.setA v).ppu = s.ppu := rfl
@[simp] theorem State.setA_cart : (s.setA v).cart = s.cart := rfl
@[simp] theorem State.setA_draws : (s.setA v).draws = s.draws := rfl
end A

section X
variable (s : State) (v : Byte)
@[simp] theorem State.setX_a : (s.setX v).cpu.a = s.cpu.a := rfl
@[simp] theorem State.setX_x : (s.setX v).cpu.x = v := rfl
@[simp] theorem State.setX_y : (s.setX v).cpu.y = s.cpu.y := rfl
@[simp] theorem State.setX_sp : (s.setX v).cpu.sp = s.cpu.sp := rfl
@[simp] theorem State.setX_pc : (s.setX v).cpu.pc = s.cpu.pc := rfl
@[simp] theorem State.setX_p : (s.setX v).cpu.p = s.cpu.p := rfl
@[simp] theorem State.setX_cycles : (s.setX v).cpu.cycles = s.cpu.cycles := rfl
@[simp] theorem State.setX_ram : (s.setX v).ram = s.ram := rfl
@[simp] theorem State.setX_master : (s.setX v).master = s.master := rfl
@[simp] theorem State.setX_dma : (s.setX v).dma = s.dma := rfl
@[simp] theorem State.setX_pad0 : (s.setX v).pad0 = s.pad0 := rfl
@[simp] theorem State.setX_pad1 : (s.setX v).pad1 = s.pad1 := rfl
@[simp] theorem State.setX_ppu : (s.setX v).ppu = s.ppu := rfl
@[simp] theorem State.setX_cart : (s.setX v).cart = s.cart := rfl
@[simp] theorem State.setX_draws : (s.setX v).draws = s.draws := rfl
end X

section Y
variable (s : State) (v : Byte)
@[simp] theorem State.setY_a : (s.setY v).cpu.a = s.cpu.a := rfl
@[simp] theorem State.setY_x : (s.setY v).cpu.x = s.cpu.x := rfl
@[simp] theorem State.setY_y : (s.setY v).cpu.y = v := rfl
@[simp] theorem State.setY_sp : (s.setY v).cpu.sp = s.cpu.sp := rfl
@[simp] theorem State.setY_pc : (s.setY v).cpu.pc = s.cpu.pc := rfl
@[simp] theorem State.setY_p : (s.setY v).cpu.p = s.cpu.p := rfl
@[simp] theorem State.setY_cycles : (s.setY v).cpu.cycles = s.cpu.cycles := rfl
@[simp] theorem State.setY_ram : (s.setY v).ram = s.ram := rfl
@[simp] theorem State.setY_master : (s.setY v).master = s.master := rfl
@[simp] theorem State.setY_dma : (s.setY v).dma = s.dma := rfl
@[simp] theorem State.setY_pad0 : (s.setY v).pad0 = s.pad0 := rfl
@[simp] theorem State.setY_pad1 : (s.setY v).pad1 = s.pad1 := rfl
@[simp] theorem State.setY_ppu : (s.setY v).ppu = s.ppu := rfl
@[simp] theorem State.setY_cart : (s.setY v).cart = s.cart := rfl
@[simp] theorem State.setY_draws : (s.setY v).draws = s.draws := rfl
end Y

section Sp
variable (s : State) (v : Byte)
@[simp] theorem State.setSp_a : (s.setSp v).cpu.a = s.cpu.a := rfl
@[simp] theorem State.setSp_x : (s.setSp v).cpu.x = s.cpu.x := rfl
@[simp] theorem State.setSp_y : (s.setSp v).cpu.y = s.cpu.y := rfl
@[simp] theorem State.setSp_sp : (s.setSp v).cpu.sp = v := rfl
@[simp] theorem State.setSp_pc : (s.setSp v).cpu.pc = s.cpu.pc := rfl
@[simp] theorem State.setSp_p : (s.setSp v).cpu.p = s.cpu.p := rfl
@[simp] theorem State.setSp_cycles : (s.setSp v).cpu.cycles = s.cpu.cycles := rfl
@[simp] theorem State.setSp_ram : (s.setSp v).ram = s.ram := rfl
@[simp] theorem State.setSp_master : (s.setSp v).master = s.master := rfl
@[simp] theorem State.setSp_dma : (s.setSp v).dma = s.dma := rfl
@[simp] theorem State.setSp_pad0 : (s.setSp v).pad0 = s.pad0 := rfl
@[simp] theorem State.setSp_pad1 : (s.setSp v).pad1 = s.pad1 := rfl
@[simp] theorem State.setSp_ppu : (s.setSp v).ppu = s.ppu := rfl
@[simp] theorem State.setSp_cart : (s.setSp v).cart = s.cart := rfl
@[simp] theorem State.setSp_draws : (s.setSp v).draws = s.draws := rfl
end Sp

section Pc
variable (s : State) (v : Word)
@[simp] theorem State.setPc_a : (s.setPc v).cpu.a = s.cpu.a := rfl
@[simp] theorem State.setPc_x : (s.setPc v).cpu.x = s.cpu.x := rfl
@[simp] theorem State.setPc_y : (s.setPc v).cpu.y = s.cpu.y := rfl
@[simp] theorem State.setPc_sp : (s.setPc v).cpu.sp = s.cpu.sp := rfl
@[simp] theorem State.setPc_pc : (s.setPc v).cpu.pc = v := rfl
@[simp] theorem State.setPc_p : (s.setPc v).cpu.p = s.cpu.p := rfl
@[simp] theorem State.setPc_cycles : (s.setPc v).cpu.cycles = s.cpu.cycles := rfl
@[simp] theorem State.setPc_ram : (s.setPc v).ram = s.ram := rfl
@[simp] theorem State.setPc_master : (s.setPc v).master = s.master := rfl
@[simp] theorem State.setPc_dma : (s.setPc v).dma = s.dma := rfl
@[simp] theorem State.setPc_pad0 : (s.setPc v).pad0 = s.pad0 := rfl
@[simp] theorem State.setPc_pad1 : (s.setPc v).pad1 = s.pad1 := rfl
@[simp] theorem State.setPc_ppu : (s.setPc v).ppu = s.ppu := rfl
@[simp] theorem State.setPc_cart : (s.setPc v).cart = s.cart := rfl
@[simp] theorem State.setPc_draws : (s.setPc v).draws = s.draws := rfl
end Pc

section P
variable (s : State) (v : Byte)
@[simp] theorem State.setP_a : (s.setP v).cpu.a = s.cpu.a := rfl
@[simp] theorem State.setP_x : (s.setP v).cpu.x = s.cpu.x := rfl
@[simp] theorem State.setP_y : (s.setP v).cpu.y = s.cpu.y := rfl
@[simp] theorem State.setP_sp : (s.setP v).cpu.sp = s.cpu.sp := rfl
@[simp] theorem State.setP_pc : (s.setP v).cpu.pc = s.cpu.pc := rfl
@[simp] theorem State.setP_p : (s.setP v).cpu.p = v := rfl
@[simp] theorem State.setP_cycles : (s.setP v).cpu.cycles = s.cpu.cycles := rfl
@[simp] theorem State.setP_ram : (s.setP v).ram = s.ram := rfl
@[simp] theorem State.setP_master : (s.setP v).master = s.master := rfl
@[simp] theorem State.setP_dma : (s.setP v).dma = s.dma := rfl
@[simp] theorem State.setP_pad0 : (s.setP v).pad0 = s.pad0 := rfl
@[simp] theorem State.setP_pad1 : (s.setP v).pad1 = s.pad1 := rfl
@[simp] theorem State.setP_ppu : (s.setP v).ppu = s.ppu := rfl
@[simp] theorem State.setP_cart : (s.setP v).cart = s.cart := rfl
@[simp] theorem State.setP_draws : (s.setP v).draws = s.draws := rfl
end P

section Cycles
variable (s : State) (v : Nat)
@[simp] theorem State.setCycles_a : (s.setCycles v).cpu.a = s.cpu.a := rfl
@[simp] theorem State.setCycles_x : (s.setCycles v).cpu.x = s.cpu.x := rfl
@[simp] theorem State.setCycles_y : (s.setCycles v).cpu.y = s.cpu.y := rfl
@[simp] theorem State.setCycles_sp : (s.setCycles v).cpu.sp = s.cpu.sp := rfl
@[simp] theorem State.setCycles_pc : (s.setCycles v).cpu.pc = s.cpu.pc := rfl
@[simp] theorem State.setCycles_p : (s.setCycles v).cpu.p = s.cpu.p := rfl
@[simp] theorem State.setCycles_cycles : (s.setCycles v).cpu.cycles = v := rfl
@[simp] theorem State.setCycles_ram : (s.setCycles v).ram = s.ram := rfl
@[simp] theorem State.setCycles_master : (s.setCycles v).master = s.master := rfl
@[simp] theorem State.setCycles_dma : (s.setCycles v).dma = s.dma := rfl
@[simp] theorem State.setCycles_pad0 : (s.setCycles v).pad0 = s.pad0 := rfl
@[simp] theorem State.setCycles_pad1 : (s.setCycles v).pad1 = s.pad1 := rfl
@[simp] theorem State.setCycles_ppu : (s.setCycles v).ppu = s.ppu := rfl
@[simp] theorem State.setCycles_cart : (s.setCycles v).cart = s.cart := rfl
@[simp] theorem State.setCycles_draws : (s.setCycles v).draws = s.draws := rfl
end Cycles

section Ram
variable (s : State) (v : Memory)
@[simp] theorem State.setRam_cpu : (s.setRam v).cpu = s.cpu := rfl
@[simp] theorem State.setRam_ram : (s.setRam v).ram = v := rfl
@[simp] theorem State.setRam_master : (s.setRam v).master = s.master := rfl
@[simp] theorem State.setRam_dma : (s.setRam v).dma = s.dma := rfl
@[simp] theorem State.setRam_pad0 : (s.setRam v).pad0 = s.pad0 := rfl
@[simp] theorem State.setRam_pad1 : (s.setRam v).pad1 = s.pad1 := rfl
@[simp] theorem State.setRam_ppu : (s.setRam v).ppu = s.ppu := rfl
@[simp] theorem State.setRam_cart : (s.setRam v).cart = s.cart := rfl
@[simp] theorem State.setRam_draws : (s.setRam v).draws = s.draws := rfl
end Ram

section Master
variable (s : State) (v : Nat)
@[simp] theorem State.setMaster_cpu : (s.setMaster v).cpu = s.cpu := rfl
@[simp] theorem State.setMaster_ram : (s.setMaster v).ram = s.ram := rfl
@[simp] theorem State.setMaster_master : (s.setMaster v).master = v := rfl
@[simp] theorem State.setMaster_dma : (s.setMaster v).dma = s.dma := rfl
@[simp] theorem State.setMaster_pad0 : (s.setMaster v).pad0 = s.pad0 := rfl
@[simp] theorem State.setMaster_pad1 : (s.setMaster v).pad1 = s.pad1 := rfl
@[simp] theorem State.setMaster_ppu : (s.setMaster v).ppu = s.ppu := rfl
@[simp] theorem State.setMaster_cart : (s.setMaster v).cart = s.cart := rfl
@[simp] theorem State.setMaster_draws : (s.setMaster v).draws = s.draws := rfl
end Master

section Dma
variable (s : State) (v : Dma)
@[simp] theorem State.setDma_cpu : (s.setDma v).cpu = s.cpu := rfl
@[simp] theorem State.setDma_ram : (s.setDma v).ram = s.ram := rfl
@[simp] theorem State.setDma_master : (s.setDma v).master = s.master := rfl
@[simp] theorem State.setDma_dma : (s.setDma v).dma = v := rfl
@[simp] theorem State.setDma_pad0 : (s.setDma v).pad0 = s.pad0 := rfl
@[simp] theorem State.setDma_pad1 : (s.setDma v).pad1 = s.pad1 := rfl
@[simp] theorem State.setDma_ppu : (s.setDma v).ppu = s.ppu := rfl
@[simp] theorem State.setDma_cart : (s.setDma v).cart = s.cart := rfl
@[simp] theorem State.setDma_draws : (s.setDma v).draws = s.draws := rfl
end Dma

section Pad0
variable (s : State) (v : Pad)
@[simp] theorem State.setPad0_cpu : (s.setPad0 v).cpu = s.cpu := rfl
@[simp] theorem State.setPad0_ram : (s.setPad0 v).ram = s.ram := rfl
@[simp] theorem State.setPad0_master : (s.setPad0 v).master = s.master := rfl
@[simp] theorem State.setPad0_dma : (s.setPad0 v).dma = s.dma := rfl
@[simp] theorem State.setPad0_pad0 : (s.setPad0 v).pad0 = v := rfl
@[simp] theorem State.setPad0_pad1 : (s.setPad0 v).pad1 = s.pad1 := rfl
@[simp] theorem State.setPad0_ppu : (s.setPad0 v).ppu = s.ppu := rfl
@[simp] theorem State.setPad0_cart : (s.setPad0 v).cart = s.cart := rfl
@[simp] theorem State.setPad0_draws : (s.setPad0 v).draws = s.draws := rfl
end Pad0

section Pad1
variable (s : State) (v : Pad)
@[simp] theorem State.setPad1_cpu : (s.setPad1 v).cpu = s.cpu := rfl
@[simp] theorem State.setPad1_ram : (s.setPad1 v).ram = s.ram := rfl
@[simp] theorem State.setPad1_master : (s.setPad1 v).master = s.master := rfl
@[simp] theorem State.setPad1_dma : (s.setPad1 v).dma = s.dma := rfl
@[simp] theorem State.setPad1_pad0 : (s.setPad1 v).pad0 = s.pad0 := rfl
@[simp] theorem State.setPad1_pad1 : (s.setPad1 v).pad1 = v := rfl
@[simp] theorem State.setPad1_ppu : (s.setPad1 v).ppu = s.ppu := rfl
@[simp] theorem State.setPad1_cart : (s.setPad1 v).cart = s.cart := rfl
@[simp] theorem State.setPad1_draws : (s.setPad1 v).draws = s.draws := rfl
end Pad1

section Ppu
variable (s : State) (v : Ppu)
@[simp] theorem State.setPpu_cpu : (s.setPpu v).cpu = s.cpu := rfl
@[simp] theorem State.setPpu_ram : (s.setPpu v).ram = s.ram := rfl
@[simp] theorem State.setPpu_master : (s.setPpu v).master = s.master := rfl
@[simp] theorem State.setPpu_dma : (s.setPpu v).dma = s.dma := rfl
@[simp] theorem State.setPpu_pad0 : (s.setPpu v).pad0 = s.pad0 := rfl
@[simp] theorem State.setPpu_pad1 : (s.setPpu v).pad1 = s.pad1 := rfl
@[simp] theorem State.setPpu_ppu : (s.setPpu v).ppu = v := rfl
@[simp] theorem State.setPpu_cart : (s.setPpu v).cart = s.cart := rfl
@[simp] theorem State.setPpu_draws : (s.setPpu v).draws = s.draws := rfl
end Ppu

section Cart
variable (s : State) (v : Option Cartridge)
@[simp] theorem State.setCart_cpu : (s.setCart v).cpu = s.cpu := rfl
@[simp] theorem State.setCart_ram : (s.setCart v).ram = s.ram := rfl
@[simp] theorem State.setCart_master : (s.setCart v).master = s.master := rfl
@[simp] theorem State.setCart_dma : (s.setCart v).dma = s.dma := rfl
@[simp] theorem State.setCart_pad0 : (s.setCart v).pad0 = s.pad0 := rfl
@[simp] theorem State.setCart_pad1 : (s.setCart v).pad1 = s.pad1 := rfl
@[simp] theorem State.setCart_ppu : (s.setCart v).ppu = s.ppu := rfl
@[simp] theorem State.setCart_cart : (s.setCart v).cart = v := rfl
@[simp] theorem State.setCart_draws : (s.setCart v).draws = s.draws := rfl
end Cart

section Draws
variable (s : State) (v : Nat)
@[simp] theorem State.setDraws_cpu : (s.setDraws v).cpu = s.cpu := rfl
@[simp] theorem State.setDraws_ram : (s.setDraws v).ram = s.ram := rfl
@[simp] theorem State.setDraws_master : (s.setDraws v).master = s.master := rfl
@[simp] theorem State.setDraws_dma : (s.setDraws v).dma = s.dma := rfl
@[simp] theorem State.setDraws_pad0 : (s.setDraws v).pad0 = s.pad0 := rfl
@[simp] theorem State.setDraws_pad1 : (s.setDraws v).pad1 = s.pad1 := rfl
@[simp] theorem State.setDraws_ppu : (s.setDraws v).ppu = s.ppu := rfl
@[simp] theorem State.setDraws_cart : (s.setDraws v).cart = s.cart := rfl
@[simp] theorem State.setDraws_draws : (s.setDraws v).draws = v := rfl
end Draws

/-- Two states with equal components are equal. -/
theorem State.ext_components {s t : State} (hcpu : s.cpu = t.cpu) (hram : s.ram = t.ram)
    (hmaster : s.master = t.master) (hdma : s.dma = t.dma) (hpad0 : s.pad0 = t.pad0) (hpad1 : s.pad1 = t.pad1)
    (hppu : s.ppu = t.ppu) (hcart : s.cart = t.cart) (hdraws : s.draws = t.draws) : s = t := by
  cases s
  cases t
  simp_all

end Sys2Proof.Machine
end

