-- ==== Sys2Proof/Laws/Bus.lean ====
section
/-!
SUPPORT. What one CPU bus access can do: a read's effects on devices, a write's effects, and the plain equations of
accesses to work RAM and to addresses without side effects.
-/
namespace Sys2Proof.Machine

@[simp] theorem State.setPad_cpu (s : State) (k : Bool) (q : Pad) : (s.setPad k q).cpu = s.cpu := by
  cases k <;> rfl
@[simp] theorem State.setPad_ram (s : State) (k : Bool) (q : Pad) : (s.setPad k q).ram = s.ram := by
  cases k <;> rfl
@[simp] theorem State.setPad_master (s : State) (k : Bool) (q : Pad) : (s.setPad k q).master = s.master := by
  cases k <;> rfl
@[simp] theorem State.setPad_dma (s : State) (k : Bool) (q : Pad) : (s.setPad k q).dma = s.dma := by
  cases k <;> rfl
@[simp] theorem State.setPad_ppu (s : State) (k : Bool) (q : Pad) : (s.setPad k q).ppu = s.ppu := by
  cases k <;> rfl
@[simp] theorem State.setPad_cart (s : State) (k : Bool) (q : Pad) : (s.setPad k q).cart = s.cart := by
  cases k <;> rfl
@[simp] theorem State.setPad_draws (s : State) (k : Bool) (q : Pad) : (s.setPad k q).draws = s.draws := by
  cases k <;> rfl
@[simp] theorem State.pad_setPad (s : State) (k : Bool) (q : Pad) : (s.setPad k q).pad k = q := by
  cases k <;> rfl
@[simp] theorem State.pad_setPad_not (s : State) (k : Bool) (q : Pad) : (s.setPad k q).pad (!k) = s.pad (!k) := by
  cases k <;> rfl

/-- Everything a CPU or DMA read can change: the PPU's status, latch, read buffer and VRAM address, the controllers'
shift registers, the count of draws (R166). -/
structure ReadEffects (s t : State) : Prop where
  cpu : t.cpu = s.cpu
  ram : t.ram = s.ram
  master : t.master = s.master
  dma : t.dma = s.dma
  cart : t.cart = s.cart
  ppu : t.ppu = { s.ppu with
    status := t.ppu.status, vramAddr := t.ppu.vramAddr, w := t.ppu.w, dataBuffer := t.ppu.dataBuffer }
  pads : ∀ k, (t.pad k).live = (s.pad k).live ∧ (t.pad k).strobe = (s.pad k).strobe

theorem ReadEffects.refl (s : State) : ReadEffects s s := ⟨rfl, rfl, rfl, rfl, rfl, rfl, fun _ => ⟨rfl, rfl⟩⟩

theorem ReadEffects.trans {s t u : State} (h : ReadEffects s t) (g : ReadEffects t u) : ReadEffects s u := by
  refine ⟨g.cpu.trans h.cpu, g.ram.trans h.ram, g.master.trans h.master, g.dma.trans h.dma, g.cart.trans h.cart, ?_,
    fun k => ⟨(g.pads k).1.trans (h.pads k).1, (g.pads k).2.trans (h.pads k).2⟩⟩
  have hg := g.ppu
  rw [h.ppu] at hg
  exact hg

theorem ReadEffects.ofPpu (s : State) (status : Byte) (vram : BitVec 15) (w : Bool) (buffer : Byte) (n : Nat) :
    ReadEffects s ((s.setPpu { s.ppu with status := status, vramAddr := vram, w := w, dataBuffer := buffer }).setDraws n) :=
  ⟨rfl, rfl, rfl, rfl, rfl, rfl, fun k => by cases k <;> exact ⟨rfl, rfl⟩⟩

theorem readPpuRegister_effects (s : State) (r : BitVec 3) : ReadEffects s (readPpuRegister s r).2 := by
  unfold readPpuRegister
  split
  · exact ReadEffects.ofPpu s _ s.ppu.vramAddr _ s.ppu.dataBuffer _
  · exact ReadEffects.refl s
  · exact ⟨rfl, rfl, rfl, rfl, rfl, rfl, fun k => by cases k <;> exact ⟨rfl, rfl⟩⟩
  · exact ReadEffects.ofPpu s s.ppu.status s.ppu.vramAddr s.ppu.w s.ppu.dataBuffer _

theorem padRead_keeps (q : Pad) : (padRead q).2.live = q.live ∧ (padRead q).2.strobe = q.strobe := by
  unfold padRead
  split <;> exact ⟨rfl, rfl⟩

theorem busOwnRead_effects (s : State) (a : Word) : ReadEffects s (busOwnRead s a).2 := by
  unfold busOwnRead
  split
  · exact ReadEffects.refl s
  · exact readPpuRegister_effects s _
  · exact ReadEffects.refl s
  · next k _ =>
    refine ⟨by simp, by simp, by simp, by simp, by simp, by simp, fun j => ?_⟩
    cases k <;> cases j <;> first | exact padRead_keeps _ | exact ⟨rfl, rfl⟩
  · exact ReadEffects.refl s

/-- THE LAW OF A READ: whatever the address, it has the effects of `ReadEffects` and no other. -/
theorem cpuRead_effects (s : State) (a : Word) : ReadEffects s (cpuRead s a).2 := by
  unfold cpuRead
  split
  · exact ReadEffects.refl s
  · exact busOwnRead_effects s a

/-- Below 0x2000 lies work RAM (R153). -/
theorem busTarget_low {a : Word} (h : a.toNat < 0x2000) : busTarget a = .ram (ramIndex a) := if_pos h

/-- Above the controllers the bus itself decodes nothing (R157). -/
theorem busTarget_high {a : Word} (h : 0x4018 ≤ a.toNat) : busTarget a = .open := by
  have h1 : ¬ a.toNat < 0x2000 := by omega
  have h2 : ¬ a.toNat < 0x4000 := by omega
  have h3 : a ≠ 0x4014 := by intro e; subst e; revert h; decide
  have h4 : a ≠ 0x4016 := by intro e; subst e; revert h; decide
  have h5 : a ≠ 0x4017 := by intro e; subst e; revert h; decide
  unfold busTarget
  rw [if_neg h1, if_neg h2, if_neg h3, if_neg (by rintro (h | h) <;> contradiction)]

/-- A read of work RAM (R151, R153): the byte, no side effect. -/
theorem cpuRead_ram (s : State) {a : Word} (h : a.toNat < 0x2000) :
    cpuRead s a = (Memory.read s.ram (ramIndex a), s) := by
  have hc : s.cart.bind (fun c => cartCpuRead c a) = none := by
    cases s.cart with
    | none => rfl
    | some c => exact cartCpuRead_low c (by omega)
  simp [cpuRead, hc, busOwnRead, busTarget, h]

/-- A read above the controllers has no side effect (R158, R166). -/
theorem cpuRead_state_high (s : State) {a : Word} (h : 0x4018 ≤ a.toNat) : (cpuRead s a).2 = s := by
  unfold cpuRead
  split
  · rfl
  · simp [busOwnRead, busTarget_high h]

/-- Everything a CPU write can change (R152, R640, R651, R191): work RAM, the PPU's registers and memories, the DMA
bookkeeping, the controllers but for the host's bytes, the cartridge but for its header and PRG. -/
structure WriteEffects (s t : State) : Prop where
  cpu : t.cpu = s.cpu
  master : t.master = s.master
  draws : t.draws = s.draws
  scanline : t.ppu.scanline = s.ppu.scanline
  cycle : t.ppu.cycle = s.ppu.cycle
  nmi : t.ppu.nmi = s.ppu.nmi
  status : t.ppu.status = s.ppu.status
  screen : t.ppu.screen = s.ppu.screen
  live : ∀ k, (t.pad k).live = (s.pad k).live
  noCart : s.cart = none → t.cart = none
  cart : ∀ c, s.cart = some c → ∃ d, t.cart = some d ∧ d.nPrg = c.nPrg ∧ d.nChr = c.nChr ∧ d.hwMirror = c.hwMirror
    ∧ d.trainer = c.trainer ∧ d.prg = c.prg

theorem WriteEffects.ofSameCart {s t : State} (hcpu : t.cpu = s.cpu) (hmaster : t.master = s.master)
    (hdraws : t.draws = s.draws) (hscan : t.ppu.scanline = s.ppu.scanline) (hcyc : t.ppu.cycle = s.ppu.cycle)
    (hnmi : t.ppu.nmi = s.ppu.nmi) (hst : t.ppu.status = s.ppu.status) (hscr : t.ppu.screen = s.ppu.screen)
    (hlive : ∀ k, (t.pad k).live = (s.pad k).live) (hcart : t.cart = s.cart) : WriteEffects s t :=
  ⟨hcpu, hmaster, hdraws, hscan, hcyc, hnmi, hst, hscr, hlive, fun h => hcart.trans h,
    fun c h => ⟨c, hcart.trans h, rfl, rfl, rfl, rfl, rfl⟩⟩

theorem WriteEffects.refl (s : State) : WriteEffects s s :=
  WriteEffects.ofSameCart rfl rfl rfl rfl rfl rfl rfl rfl (fun _ => rfl) rfl

theorem WriteEffects.trans {s t u : State} (h : WriteEffects s t) (g : WriteEffects t u) : WriteEffects s u := by
  refine ⟨g.cpu.trans h.cpu, g.master.trans h.master, g.draws.trans h.draws, g.scanline.trans h.scanline,
    g.cycle.trans h.cycle, g.nmi.trans h.nmi, g.status.trans h.status, g.screen.trans h.screen,
    fun k => (g.live k).trans (h.live k), fun e => g.noCart (h.noCart e), fun c e => ?_⟩
  obtain ⟨d, hd, h1, h2, h3, h4, h5⟩ := h.cart c e
  obtain ⟨d', hd', g1, g2, g3, g4, g5⟩ := g.cart d hd
  exact ⟨d', hd', g1.trans h1, g2.trans h2, g3.trans h3, g4.trans h4, g5.trans h5⟩

theorem ppuOwnWrite_effects (s : State) (a : Word) (v : Byte) : WriteEffects s (ppuOwnWrite s a v) := by
  unfold ppuOwnWrite
  split <;> exact WriteEffects.ofSameCart rfl rfl rfl rfl rfl rfl rfl rfl (fun k => by cases k <;> rfl) rfl

theorem ppuWrite_effects (s : State) (a : Word) (v : Byte) : WriteEffects s (ppuWrite s a v) := by
  unfold ppuWrite
  simp only
  split
  · exact ppuOwnWrite_effects s _ v
  · next c hc =>
    split
    · exact ⟨rfl, rfl, rfl, rfl, rfl, rfl, rfl, rfl, fun k => by cases k <;> rfl,
        fun h => (by rw [hc] at h; cases h),
        fun c' h => by rw [hc] at h; cases h; exact ⟨_, rfl, rfl, rfl, rfl, rfl, rfl⟩⟩
    · exact WriteEffects.refl s
    · exact ppuOwnWrite_effects s _ v

theorem advanceVramAddr_effects (s : State) : WriteEffects s (advanceVramAddr s) :=
  WriteEffects.ofSameCart rfl rfl rfl rfl rfl rfl rfl rfl (fun k => by cases k <;> rfl) rfl

theorem writePpuRegister_effects (s : State) (r : BitVec 3) (v : Byte) : WriteEffects s (writePpuRegister s r v) := by
  unfold writePpuRegister
  split
  · exact WriteEffects.ofSameCart rfl rfl rfl rfl rfl rfl rfl rfl (fun k => by cases k <;> rfl) rfl
  · exact WriteEffects.ofSameCart rfl rfl rfl rfl rfl rfl rfl rfl (fun k => by cases k <;> rfl) rfl
  · exact WriteEffects.refl s
  · exact WriteEffects.ofSameCart rfl rfl rfl rfl rfl rfl rfl rfl (fun k => by cases k <;> rfl) rfl
  · exact WriteEffects.ofSameCart rfl rfl rfl rfl rfl rfl rfl rfl (fun k => by cases k <;> rfl) rfl
  · unfold writePpuScroll
    split <;> exact WriteEffects.ofSameCart rfl rfl rfl rfl rfl rfl rfl rfl (fun k => by cases k <;> rfl) rfl
  · unfold writePpuAddr
    simp only
    split <;> exact WriteEffects.ofSameCart rfl rfl rfl rfl rfl rfl rfl rfl (fun k => by cases k <;> rfl) rfl
  · exact (ppuWrite_effects s _ v).trans (advanceVramAddr_effects _)

theorem busOwnWrite_effects (s : State) (a : Word) (v : Byte) : WriteEffects s (busOwnWrite s a v) := by
  unfold busOwnWrite
  split
  · exact WriteEffects.ofSameCart rfl rfl rfl rfl rfl rfl rfl rfl (fun k => by cases k <;> rfl) rfl
  · exact writePpuRegister_effects s _ v
  · exact WriteEffects.ofSameCart rfl rfl rfl rfl rfl rfl rfl rfl (fun k => by cases k <;> rfl) rfl
  · next k _ =>
    exact WriteEffects.ofSameCart (by simp) (by simp) (by simp) (by simp) (by simp) (by simp) (by simp) (by simp)
      (fun j => by cases k <;> cases j <;> rfl) (by simp)
  · exact WriteEffects.refl s

/-- THE LAW OF A WRITE: whatever the address and the byte, it has the effects of `WriteEffects` and no other. -/
theorem cpuWrite_effects (s : State) (a : Word) (v : Byte) : WriteEffects s (cpuWrite s a v) := by
  unfold cpuWrite
  split
  · next d h =>
    cases hc : s.cart with
    | none => rw [hc] at h; cases h
    | some c =>
      rw [hc] at h
      have hs := cartCpuWrite_sameStores h
      exact ⟨rfl, rfl, rfl, rfl, rfl, rfl, rfl, rfl, fun k => by cases k <;> rfl,
        fun e => (by rw [hc] at e; cases e),
        fun c' e => by
          rw [hc] at e
          cases e
          exact ⟨d, rfl, hs.nPrg, hs.nChr, hs.hwMirror, hs.trainer, hs.prg⟩⟩
  · exact busOwnWrite_effects s a v

/-- A write to work RAM (R152, R153). -/
theorem cpuWrite_ram (s : State) {a : Word} (v : Byte) (h : a.toNat < 0x2000) :
    cpuWrite s a v = s.setRam (Memory.write s.ram (ramIndex a) v) := by
  have hc : s.cart.bind (fun c => cartCpuWrite c a v) = none := by
    cases s.cart with
    | none => rfl
    | some c => exact cartCpuWrite_low c v (by omega)
  simp [cpuWrite, hc, busOwnWrite, busTarget, h]

/-- A read leaves every byte of memory as it was. -/
theorem ReadEffects.memoryUnchanged {s t : State} (h : ReadEffects s t) : MemoryUnchanged s t := by
  refine ⟨fun a => ?_, fun k => ?_, h.cart⟩
  · simp only [storedByte, h.cart, h.ram]
  · rw [h.ppu]
    exact ⟨rfl, rfl, rfl, rfl⟩

/-- The debug read agrees with a normal read on storage and undecoded addresses (R162). -/
theorem peekRead_eq_cpuRead (s : State) {a : Word} (h : a.toNat < 0x2000 ∨ 0x4018 ≤ a.toNat) :
    peekRead s a = (cpuRead s a).1 := by
  rcases h with h | h
  · rw [cpuRead_ram s h]
    have hc : s.cart.bind (fun c => cartCpuRead c a) = none := by
      cases s.cart with
      | none => rfl
      | some c => exact cartCpuRead_low c (by omega)
    simp [peekRead, hc, busTarget, h]
  · unfold peekRead cpuRead
    split <;> simp_all only [busOwnRead, busTarget_high h]

end Sys2Proof.Machine
end

