-- ==== Sys2Proof/Laws/Decode.lean ====
section
/-!
SUPPORT. The two halves of an address, the operand bytes of a mode, and the length of a decoded instruction.
-/
namespace Sys2Proof

theorem word16_toNat (hi lo : Byte) : (word16 hi lo).toNat = hi.toNat * 256 + lo.toNat := by
  have := lo.isLt
  rw [word16, BitVec.toNat_append, ← Nat.shiftLeft_add_eq_or_of_lt (by omega), Nat.shiftLeft_eq]

theorem hiByte_toNat (w : Word) : (hiByte w).toNat = w.toNat / 256 := by
  have := w.isLt
  rw [hiByte, BitVec.extractLsb'_toNat, Nat.shiftRight_eq_div_pow]
  omega

theorem loByte_toNat (w : Word) : (loByte w).toNat = w.toNat % 256 := by
  rw [loByte, BitVec.extractLsb'_toNat, Nat.shiftRight_eq_div_pow]
  omega

@[simp] theorem hiByte_word16 (hi lo : Byte) : hiByte (word16 hi lo) = hi := by
  have := lo.isLt
  apply BitVec.eq_of_toNat_eq
  rw [hiByte_toNat, word16_toNat]
  omega

@[simp] theorem loByte_word16 (hi lo : Byte) : loByte (word16 hi lo) = lo := by
  have := lo.isLt
  apply BitVec.eq_of_toNat_eq
  rw [loByte_toNat, word16_toNat]
  omega

/-- An address is its two bytes (R17, R303). -/
@[simp] theorem word16_hiByte_loByte (w : Word) : word16 (hiByte w) (loByte w) = w := by
  apply BitVec.eq_of_toNat_eq
  rw [word16_toNat, hiByte_toNat, loByte_toNat]
  omega

/-- The operand bytes of a mode assemble to its operand: one byte, or two with the low byte first (R301, R303). -/
theorem assembleAddr_operandBytes (m : Addr) :
    (addrOperandCount m.tag = 1 ∧ ∃ b, addrOperandBytes m = [b] ∧ ∀ b', assembleAddr m.tag b b' = m)
      ∨ (addrOperandCount m.tag = 2 ∧ ∃ b b', addrOperandBytes m = [b, b'] ∧ assembleAddr m.tag b b' = m) := by
  cases m <;> simp [addrOperandBytes, addrOperandCount, assembleAddr, Addr.tag]

/-- The assembled operand has the tag of its mode. -/
@[simp] theorem assembleAddr_tag (t : AddrTag) (b1 b2 : Byte) : (assembleAddr t b1 b2).tag = t := by
  cases t <;> rfl

/-- An opcode byte has at most two operand bytes (R300). -/
theorem operandCount_le (op : Byte) : operandCount op ≤ 2 := by
  unfold operandCount
  split <;> first | omega | (unfold addrOperandCount; split <;> omega)

/-- Decoding an opcode byte followed by its operand bytes (R300). -/
theorem decode_cons {op : Byte} {operands : List Byte} (h : operandCount op = operands.length) (rest : List Byte) :
    decode (op :: (operands ++ rest)) = .ok (decodeBytes op (operands.getD 0 0) (operands.getD 1 0), rest) := by
  have h2 := operandCount_le op
  match operands, h with
  | [], h => simp only [decode, h, List.length_nil, List.nil_append]; rfl
  | [b], h => simp only [decode, h, List.length_singleton, List.cons_append, List.nil_append]; rfl
  | [b, b'], h =>
    rw [show [b, b'].length = 2 from rfl] at h
    simp only [decode, h, List.cons_append, List.nil_append]
    rfl
  | _ :: _ :: _ :: _, h => simp only [List.length_cons] at h; omega

end Sys2Proof
end

