-- ==== Sys2Proof/Laws/Flags.lean ====
section
/-!
SUPPORT. What each flag computation does to every flag, and that none touches anything but P.
-/
namespace Sys2Proof.Machine

/-- Writing one flag of P and reading any (R56, R18). -/
theorem writeFlag_getLsbD (p : Byte) (f g : Flag) (on : Bool) :
    (writeFlag p f on).getLsbD (flagBit g) = if g = f then on else p.getLsbD (flagBit g) := by
  cases on <;> cases f <;> cases g <;> simp [writeFlag, flagBit]

@[simp] theorem State.flag_setFlag (s : State) (f g : Flag) (on : Bool) :
    (s.setFlag f on).flag g = if g = f then on else s.flag g := writeFlag_getLsbD s.cpu.p f g on

section Frames
variable (s : State) (v : Byte) (w : Word) (n : Nat) (f : Flag)
@[simp] theorem State.flag_setA : (s.setA v).flag f = s.flag f := rfl
@[simp] theorem State.flag_setX : (s.setX v).flag f = s.flag f := rfl
@[simp] theorem State.flag_setY : (s.setY v).flag f = s.flag f := rfl
@[simp] theorem State.flag_setSp : (s.setSp v).flag f = s.flag f := rfl
@[simp] theorem State.flag_setPc : (s.setPc w).flag f = s.flag f := rfl
@[simp] theorem State.flag_setCycles : (s.setCycles n).flag f = s.flag f := rfl
@[simp] theorem State.flag_setRam (m : Memory) : (s.setRam m).flag f = s.flag f := rfl
@[simp] theorem State.flag_setMaster : (s.setMaster n).flag f = s.flag f := rfl
@[simp] theorem State.flag_setDma (d : Dma) : (s.setDma d).flag f = s.flag f := rfl
@[simp] theorem State.flag_setPpu (q : Ppu) : (s.setPpu q).flag f = s.flag f := rfl
@[simp] theorem State.flag_setCart (c : Option Cartridge) : (s.setCart c).flag f = s.flag f := rfl
@[simp] theorem State.flag_setDraws : (s.setDraws n).flag f = s.flag f := rfl
@[simp] theorem State.flag_setPad0 (k : Pad) : (s.setPad0 k).flag f = s.flag f := rfl
@[simp] theorem State.flag_setPad1 (k : Pad) : (s.setPad1 k).flag f = s.flag f := rfl
end Frames

/-- `SetNZ` on every flag (R21). -/
theorem setNZ_flags (s : State) (v : Byte) (f : Flag) : (setNZ s v).flag f = nzFlags s v f := by
  cases f <;> simp [setNZ, nzFlags]

/-- What a flag computation may do: another P, nothing else. -/
def OnlyP (s t : State) : Prop := t = s.setP t.cpu.p

theorem OnlyP.setFlag (s : State) (f : Flag) (on : Bool) : OnlyP s (s.setFlag f on) := rfl

theorem OnlyP.setNZ (s : State) (v : Byte) : OnlyP s (setNZ s v) := rfl

theorem OnlyP.setAddFlags (s : State) (a b : Byte) (c : Bool) : OnlyP s (setAddFlags s a b c) := rfl

theorem OnlyP.setCompareFlags (s : State) (r m : Byte) : OnlyP s (setCompareFlags s r m) := rfl

theorem OnlyP.setBitFlags (s : State) (a m : Byte) : OnlyP s (setBitFlags s a m) := rfl

/-- The flags of a compare (R480). -/
theorem setCompareFlags_flags (s : State) (r m : Byte) (f : Flag) :
    (setCompareFlags s r m).flag f = cnzFlags s (decide (m.toNat ≤ r.toNat)) (r - m) f := by
  have hz : (decide (r = m)) = decide (r - m = 0) := by
    rw [decide_eq_decide]
    constructor
    · intro h; simp [h]
    · intro h; exact sub_eq_zero.mp h
  cases f <;> simp [setCompareFlags, cnzFlags, nzFlags, hz]

/-- The flags of AddCore (R400). -/
theorem setAddFlags_flags (s : State) (a b : Byte) (c : Bool) (f : Flag) :
    (setAddFlags s a b c).flag f =
      if f = .v then addOverflow a b c else cnzFlags s (addCarry a b c) (addResult a b c) f := by
  cases f <;> simp [setAddFlags, setNZ_flags, cnzFlags, nzFlags]

/-- The flags of BIT (R423). -/
theorem setBitFlags_flags (s : State) (a m : Byte) (f : Flag) :
    (setBitFlags s a m).flag f =
      if f = .z then decide (a &&& m = 0) else if f = .n then m.getLsbD 7
      else if f = .v then m.getLsbD 6 else s.flag f := by
  cases f <;> simp [setBitFlags]

/-- PLP and RTI take six flags from the pulled byte, B is 0 and U is 1 (R564, R601, D6). -/
theorem pulledStatus_flags (v : Byte) (f : Flag) :
    (pulledStatus v).getLsbD (flagBit f) = if f = .b then false else if f = .u then true else v.getLsbD (flagBit f) := by
  cases f <;> simp [pulledStatus, flagBit]

end Sys2Proof.Machine
end

