-- ==== Sys2Proof/Laws/Ops.lean ====
section
/-!
SUPPORT. What each shared operation of the CPU does: the stack, 16-bit reads, interrupt entry and return.
-/
namespace Sys2Proof.Machine

/-- Every stack address lies in page 1 (R54, R161). -/
theorem stackAddress_toNat (sp : Byte) : (stackAddress sp).toNat = 256 + sp.toNat := by
  unfold stackAddress word16
  rw [BitVec.toNat_append]
  have := sp.isLt
  rw [Nat.shiftLeft_eq, show (1 : Byte).toNat = 1 from rfl, ← Nat.shiftLeft_eq,
    ← Nat.shiftLeft_add_eq_or_of_lt (by omega)]
  simp [Nat.shiftLeft_eq]

theorem stackAddress_ram (sp : Byte) : (stackAddress sp).toNat < 0x2000 := by
  rw [stackAddress_toNat]
  have := sp.isLt
  omega

theorem stackAddress_ramIndex (sp : Byte) : ramIndex (stackAddress sp) = 256 + sp.toNat := by
  rw [ramIndex, stackAddress_toNat]
  have := sp.isLt
  omega

/-- THE LAW OF A PUSH: the byte at 0x0100 + SP, then SP one less (R20). -/
theorem push_eq (s : State) (v : Byte) :
    push s v = (s.setRam (Memory.write s.ram (256 + s.cpu.sp.toNat) v)).setSp (s.cpu.sp - 1) := by
  simp [push, cpuWrite_ram s v (stackAddress_ram s.cpu.sp), stackAddress_ramIndex]

/-- THE LAW OF A PULL: SP one more, then the byte at 0x0100 + SP (R20). -/
theorem pull_eq (s : State) :
    pull s = (Memory.read s.ram (256 + (s.cpu.sp + 1).toNat), s.setSp (s.cpu.sp + 1)) := by
  simp [pull, cpuRead_ram _ (stackAddress_ram _), stackAddress_ramIndex]

/-- A word pushed: two bytes, the high one at the higher stack address (R163). -/
theorem pushWord_eq (s : State) (w : Word) :
    pushWord s w =
      (s.setRam (Memory.write (Memory.write s.ram (256 + s.cpu.sp.toNat) (hiByte w))
        (256 + (s.cpu.sp - 1).toNat) (loByte w))).setSp (s.cpu.sp - 1 - 1) := by
  simp [pushWord, push_eq, State.setRam, State.setSp]

/-- A word pulled: low byte first (R582). -/
theorem pullWord_eq (s : State) :
    pullWord s =
      (word16 (Memory.read s.ram (256 + (s.cpu.sp + 1 + 1).toNat)) (Memory.read s.ram (256 + (s.cpu.sp + 1).toNat)),
        s.setSp (s.cpu.sp + 1 + 1)) := by
  simp [pullWord, pull_eq, State.setSp]

/-- A 16-bit read has the effects of two reads. -/
theorem read16_effects (s : State) (a : Word) : ReadEffects s (read16 s a).2 :=
  (cpuRead_effects s a).trans (cpuRead_effects _ _)

/-- A vector read has no side effect (R158, R160). -/
theorem read16_vector (s : State) {a : Word} (h : 0x4018 ≤ a.toNat) (h' : 0x4018 ≤ (a + 1).toNat) :
    read16 s a = (word16 (cpuRead s (a + 1)).1 (cpuRead s a).1, s) := by
  simp only [read16, cpuRead_state_high s h, cpuRead_state_high s h']

/-- THE LAW OF TAKING AN INTERRUPT (R626): three bytes below SP, SP three less, I set, PC from the vector. -/
theorem takeInterrupt_eq (s : State) (image : Byte) {vector : Word} (h : 0x4018 ≤ vector.toNat)
    (h' : 0x4018 ≤ (vector + 1).toNat) :
    takeInterrupt s image vector =
      let m := Memory.write (Memory.write (Memory.write s.ram (256 + s.cpu.sp.toNat) (hiByte s.cpu.pc))
        (256 + (s.cpu.sp - 1).toNat) (loByte s.cpu.pc)) (256 + (s.cpu.sp - 2).toNat) image
      let t := ((s.setRam m).setSp (s.cpu.sp - 3)).setFlag .i true
      t.setPc (word16 (cpuRead t (vector + 1)).1 (cpuRead t vector).1) := by
  have e2 : s.cpu.sp - 1 - 1 = s.cpu.sp - 2 := by rw [BitVec.sub_sub]; rfl
  have e3 : s.cpu.sp - 2 - 1 = s.cpu.sp - 3 := by rw [BitVec.sub_sub]; rfl
  unfold takeInterrupt
  simp only [read16_vector _ h h', pushWord_eq, push_eq, State.setSp_sp, e2, e3,
    State.setSp_ram, State.setRam_ram]
  rfl

/-- THE LAW OF THE RETURN: P from the first pulled byte, PC from the next two, SP three more (R601, R629). -/
theorem returnFromInterrupt_eq (s : State) :
    returnFromInterrupt s =
      ((s.setP (pulledStatus (Memory.read s.ram (256 + (s.cpu.sp + 1).toNat)))).setSp (s.cpu.sp + 3)).setPc
        (word16 (Memory.read s.ram (256 + (s.cpu.sp + 3).toNat)) (Memory.read s.ram (256 + (s.cpu.sp + 2).toNat))) := by
  have e2 : s.cpu.sp + 1 + 1 = s.cpu.sp + 2 := by rw [BitVec.add_assoc]; rfl
  have e3 : s.cpu.sp + 2 + 1 = s.cpu.sp + 3 := by rw [BitVec.add_assoc]; rfl
  unfold returnFromInterrupt
  simp only [pull_eq, pullWord_eq, State.setP_sp, State.setSp_sp, State.setP_ram, State.setSp_ram, e2, e3]
  rfl

end Sys2Proof.Machine
end

