-- ==== Sys2Proof/Laws/Operands.lean ====
section
/-!
SUPPORT. What an addressing mode does: the pointer reads are in page zero and change nothing, so a mode only computes an
address; an operand read and a store are one access at it.
-/
namespace Sys2Proof.Machine

theorem zeroPage_toNat (z : Byte) : (zeroPage z).toNat = z.toNat := by
  unfold zeroPage
  rw [BitVec.toNat_setWidth]
  have := z.isLt
  omega

theorem zeroPage_ram (z : Byte) : (zeroPage z).toNat < 0x2000 := by
  rw [zeroPage_toNat]
  have := z.isLt
  omega

theorem zeroPage_ramIndex (z : Byte) : ramIndex (zeroPage z) = z.toNat := by
  rw [ramIndex, zeroPage_toNat]
  have := z.isLt
  omega

/-- A pointer in page zero: both bytes from work RAM, the pair wrapping in the page (R361, R362). -/
theorem zeroPagePointer_eq (s : State) (z : Byte) :
    zeroPagePointer s z = (word16 (Memory.read s.ram (z + 1).toNat) (Memory.read s.ram z.toNat), s) := by
  simp only [zeroPagePointer, cpuRead_ram _ (zeroPage_ram _), zeroPage_ramIndex]

/-- THE LAW OF A MODE: it changes nothing (R350-R362). -/
@[simp] theorem locate_state (m : Addr) (s : State) : (locate m s).state = s := by
  cases m <;> simp [locate, indexed, zeroPagePointer_eq]

/-- An operand read is one bus read at the effective address, but for IMM (R350). -/
theorem operand_eq (m : Addr) (s : State) (h : m.tag ≠ .imm) :
    operand m s = ⟨(cpuRead s (locate m s).addr).1, (locate m s).crossed, (cpuRead s (locate m s).addr).2⟩ := by
  cases m <;> first | exact absurd rfl h | simp [operand, readAt]

/-- THE LAW OF AN OPERAND READ: the effects of bus reads, no other. -/
theorem operand_effects (m : Addr) (s : State) : ReadEffects s (operand m s).state := by
  by_cases h : m.tag = .imm
  · cases m <;> first | exact ReadEffects.refl s | cases h
  · rw [operand_eq m s h]
    exact cpuRead_effects s _

/-- Only ABX, ABY and IZY can signal a page crossing (R364). -/
theorem operand_crossed (m : Addr) (s : State) : (operand m s).crossed = (locate m s).crossed := by
  cases m <;> rfl

/-- THE LAW OF A STORE: one bus write at the effective address (R350). -/
theorem storeTo_eq (m : Addr) (v : Byte) (s : State) : storeTo m v s = cpuWrite s (locate m s).addr v := by
  simp [storeTo]

/-- THE LAW OF A READ-MODIFY-WRITE: one read, then one write, at the effective address (R444). -/
theorem modify_eq (m : Addr) (f : Byte → State → Byte × State) (s : State) :
    modify m f s =
      cpuWrite (f (cpuRead s (locate m s).addr).1 (cpuRead s (locate m s).addr).2).2 (locate m s).addr
        (f (cpuRead s (locate m s).addr).1 (cpuRead s (locate m s).addr).2).1 := by
  simp [modify]

/-- JMP's address has the effects of bus reads (R360). -/
theorem jumpAddress_effects (t : JumpTarget) (s : State) : ReadEffects s (jumpAddress t s).2 := by
  cases t with
  | abs w => exact ReadEffects.refl s
  | ind p => exact (cpuRead_effects s _).trans (cpuRead_effects _ _)

end Sys2Proof.Machine
end

