-- ==== Sys2Proof/Laws/Frames.lean ====
section
/-!
SUPPORT. The frames of the claims (Safety.lean), once per shared operation: a plain read, a read at an address, a bus
write, and states that differ only in the CPU's registers.
-/
namespace Sys2Proof.Machine

/-- A state that differs only in the CPU's registers has the same bytes everywhere. -/
theorem OutsideCpu.memoryUnchanged {s t : State} (h : OutsideCpu s t) : MemoryUnchanged s t := by
  rw [h]
  exact ⟨fun _ => rfl, fun _ => ⟨rfl, rfl, rfl, rfl⟩, rfl⟩

/-- Memory unchanged by a read stays unchanged by register updates after it. -/
theorem MemoryUnchanged.outsideCpu {s u t : State} (h : MemoryUnchanged s u) (g : OutsideCpu u t) :
    MemoryUnchanged s t := by
  rw [g]
  exact h

/-- The bus's decode of an address with no read side effect (R151, R166). -/
theorem busTarget_plain {a : Word} (h : PlainAddress a) :
    busTarget a = .ram (ramIndex a) ∨ busTarget a = .dma ∨ busTarget a = .open := by
  obtain ⟨hw, h6, h7⟩ := h
  unfold InPpuWindow at hw
  by_cases h1 : a.toNat < 0x2000
  · exact Or.inl (busTarget_low h1)
  · have h2 : ¬ a.toNat < 0x4000 := by omega
    right
    unfold busTarget
    rw [if_neg h1, if_neg h2]
    by_cases h3 : a = 0x4014
    · exact Or.inl (if_pos h3)
    · right
      rw [if_neg h3, if_neg (by rintro (h | h) <;> contradiction)]

/-- A plain read changes nothing (R166). -/
theorem cpuRead_plain (s : State) {a : Word} (h : PlainAddress a) : (cpuRead s a).2 = s := by
  unfold cpuRead
  split
  · rfl
  · rcases busTarget_plain h with e | e | e <;> simp [busOwnRead, e]

/-- RAM addresses are plain. -/
theorem PlainAddress.ofRam {a : Word} (h : a.toNat < 0x2000) : PlainAddress a := by
  refine ⟨by unfold InPpuWindow; omega, ?_, ?_⟩ <;> (intro e; subst e; revert h; decide)

/-- What a read at `a` leaves of the PPU, the ports and the draws, by where `a` lies (R166). -/
theorem cpuRead_frame (s : State) (a : Word) :
    (¬ InPpuWindow a → (cpuRead s a).2.ppu = s.ppu ∧ (cpuRead s a).2.draws = s.draws)
      ∧ (a ≠ 0x4016 → (cpuRead s a).2.pad0 = s.pad0) ∧ (a ≠ 0x4017 → (cpuRead s a).2.pad1 = s.pad1) := by
  by_cases hp : PlainAddress a
  · rw [cpuRead_plain s hp]
    exact ⟨fun _ => ⟨rfl, rfl⟩, fun _ => rfl, fun _ => rfl⟩
  unfold cpuRead
  split
  · exact ⟨fun _ => ⟨rfl, rfl⟩, fun _ => rfl, fun _ => rfl⟩
  · by_cases hw : InPpuWindow a
    · obtain ⟨h1, h2⟩ := hw
      have e : busTarget a = .ppu (ppuRegisterOf a) := by
        unfold busTarget
        rw [if_neg (by omega), if_pos h2]
      refine ⟨fun h => absurd ⟨h1, h2⟩ h, ?_, ?_⟩ <;>
        (intro _; simp only [busOwnRead, e]; unfold readPpuRegister; split <;> rfl)
    · have h67 : a = 0x4016 ∨ a = 0x4017 := by
        by_contra hne
        exact hp ⟨hw, fun e => hne (Or.inl e), fun e => hne (Or.inr e)⟩
      rcases h67 with rfl | rfl
      · exact ⟨fun _ => ⟨rfl, rfl⟩, fun h => absurd rfl h, fun _ => rfl⟩
      · exact ⟨fun _ => ⟨rfl, rfl⟩, fun _ => rfl, fun h => absurd rfl h⟩

/-- The byte of storage at an address depends on work RAM and the cartridge alone. -/
theorem storedByte_congr {s t : State} (hr : t.ram = s.ram) (hc : t.cart = s.cart) (b : Word) :
    storedByte t b = storedByte s b := by
  simp only [storedByte, hr, hc]

/-- A RAM byte's storage (R153). -/
theorem storedByte_ram (s : State) {a : Word} (h : a.toNat < 0x2000) :
    storedByte s a = some (Memory.read s.ram (ramIndex a)) := by
  have hc : s.cart.bind (fun c => cartCpuRead c a) = none := by
    cases s.cart with
    | none => rfl
    | some c => exact cartCpuRead_low c (by omega)
  simp only [storedByte, hc, busTarget_low h]

/-- Away from work RAM, storage is the cartridge's. -/
theorem storedByte_notRam (s : State) {a : Word} (h : ¬ a.toNat < 0x2000) :
    storedByte s a = s.cart.bind (fun c => cartCpuRead c a) := by
  unfold storedByte
  split
  · next e => exact e.symm
  · next e =>
    rw [e]
    have hne : ∀ k, busTarget a ≠ .ram k := by
      intro k
      unfold busTarget
      rw [if_neg h]
      repeat' split
      all_goals exact fun e => by cases e
    split
    · next k e => exact absurd e (hne k)
    all_goals rfl

/-- Storage after a write to work RAM, at every address that does not name the byte (R153). -/
theorem storedByte_setRam_write (s : State) {a b : Word} (v : Byte) (ha : a.toNat < 0x2000)
    (h : ¬ SameRamByte a b) :
    storedByte (s.setRam (Memory.write s.ram (ramIndex a) v)) b = storedByte s b := by
  by_cases hb : b.toNat < 0x2000
  · rw [storedByte_ram _ hb, storedByte_ram _ hb]
    have hne : ramIndex b ≠ ramIndex a := fun e => h ⟨ha, hb, e.symm⟩
    rw [State.setRam_ram, Memory.read_write_ne _ v hne]
  · rw [storedByte_notRam _ hb, storedByte_notRam _ hb]
    rfl

/-- The cartridge's answer to a CPU read depends on its program store and its mapper alone. -/
theorem cartCpuRead_congr {c d : Cartridge} (hn : d.nPrg = c.nPrg) (hp : d.prg = c.prg) (hm : d.mapper = c.mapper)
    (a : Word) : cartCpuRead d a = cartCpuRead c a := by
  simp only [cartCpuRead, cpuMapRead, prgByte, cartSram, hn, hp, hm]

/-- A PPU write keeps the CPU's storage. -/
theorem ppuWrite_storedByte (s : State) (a : Word) (v : Byte) (b : Word) :
    storedByte (ppuWrite s a v) b = storedByte s b := by
  have own : ∀ x, storedByte (ppuOwnWrite s x v) b = storedByte s b := by
    intro x
    unfold ppuOwnWrite
    split <;> exact storedByte_congr rfl rfl b
  unfold ppuWrite
  simp only
  split
  · exact own _
  · next c hc =>
    split
    · simp only [storedByte, State.setCart_cart, hc, Option.bind_some, State.setCart_ram]
      rfl
    · rfl
    · exact own _

/-- A write to a PPU register keeps work RAM, the ports, the DMA engine and the CPU's storage (R640). -/
theorem writePpuRegister_frame (s : State) (r : BitVec 3) (v : Byte) :
    (∀ b, storedByte (writePpuRegister s r v) b = storedByte s b)
      ∧ (writePpuRegister s r v).pad0 = s.pad0 ∧ (writePpuRegister s r v).pad1 = s.pad1
      ∧ (writePpuRegister s r v).dma = s.dma ∧ (writePpuRegister s r v).ram = s.ram
      ∧ (r ≠ 7 → (writePpuRegister s r v).cart = s.cart)
      ∧ (r ≠ 4 → r ≠ 7 → PpuMemoryUnchanged s.ppu (writePpuRegister s r v).ppu) := by
  have hw : ∀ a, (ppuWrite s a v).pad0 = s.pad0 ∧ (ppuWrite s a v).pad1 = s.pad1 ∧ (ppuWrite s a v).dma = s.dma
      ∧ (ppuWrite s a v).ram = s.ram := by
    intro a
    unfold ppuWrite ppuOwnWrite
    simp only
    repeat' split
    all_goals exact ⟨rfl, rfl, rfl, rfl⟩
  unfold writePpuRegister
  split
  · exact ⟨fun _ => rfl, rfl, rfl, rfl, rfl, fun _ => rfl, fun _ _ _ => ⟨rfl, rfl, rfl, rfl⟩⟩
  · exact ⟨fun _ => rfl, rfl, rfl, rfl, rfl, fun _ => rfl, fun _ _ _ => ⟨rfl, rfl, rfl, rfl⟩⟩
  · exact ⟨fun _ => rfl, rfl, rfl, rfl, rfl, fun _ => rfl, fun _ _ _ => ⟨rfl, rfl, rfl, rfl⟩⟩
  · exact ⟨fun _ => rfl, rfl, rfl, rfl, rfl, fun _ => rfl, fun _ _ _ => ⟨rfl, rfl, rfl, rfl⟩⟩
  · next h =>
    exact ⟨fun _ => rfl, rfl, rfl, rfl, rfl, fun _ => rfl, fun h4 => absurd (BitVec.eq_of_toNat_eq h) h4⟩
  · unfold writePpuScroll
    split <;> exact ⟨fun _ => rfl, rfl, rfl, rfl, rfl, fun _ => rfl, fun _ _ _ => ⟨rfl, rfl, rfl, rfl⟩⟩
  · unfold writePpuAddr
    simp only
    split <;> exact ⟨fun _ => rfl, rfl, rfl, rfl, rfl, fun _ => rfl, fun _ _ _ => ⟨rfl, rfl, rfl, rfl⟩⟩
  · next h0 h1 h2 h3 h4 h5 h6 =>
    have h7 : r = 7 := by
      have := r.isLt
      apply BitVec.eq_of_toNat_eq
      show r.toNat = 7
      have g0 : r.toNat ≠ 0 := h0
      have g1 : r.toNat ≠ 1 := h1
      have g2 : r.toNat ≠ 2 := h2
      have g3 : r.toNat ≠ 3 := h3
      have g4 : r.toNat ≠ 4 := h4
      have g5 : r.toNat ≠ 5 := h5
      have g6 : r.toNat ≠ 6 := h6
      omega
    refine ⟨fun b => ?_, (hw _).1, (hw _).2.1, (hw _).2.2.1, (hw _).2.2.2, fun h => absurd h7 h,
      fun _ h => absurd h7 h⟩
    exact (storedByte_congr rfl rfl b).trans (ppuWrite_storedByte s _ v b)

/-- The static RAM index of an address determines it. -/
theorem sramIndex_inj {a b : Word} (ha : 0x6000 ≤ a.toNat) (ha' : a.toNat < 0x8000) (hb : 0x6000 ≤ b.toNat)
    (hb' : b.toNat < 0x8000) (h : b.toNat % 0x2000 = a.toNat % 0x2000) : b = a :=
  BitVec.eq_of_toNat_eq (by omega)

/-- What a CPU write the cartridge claims does to its answers to reads (R174, R177, R179, R182). -/
theorem cartCpuWrite_read {c d : Cartridge} {a : Word} {v : Byte} (h : cartCpuWrite c a v = some d) {b : Word}
    (hb : ¬ WriteReaches a b) : cartCpuRead d b = cartCpuRead c b := by
  have ha : 0x6000 ≤ a.toNat := by
    by_contra hlt
    rw [cartCpuWrite_low c v (by omega)] at h
    cases h
  unfold WriteReaches at hb
  by_cases hlow : b.toNat < 0x6000
  · rw [cartCpuRead_low d hlow, cartCpuRead_low c hlow]
  by_cases h8 : 0x8000 ≤ a.toNat
  · have hb8 : ¬ 0x8000 ≤ b.toNat := fun e => hb (Or.inr (Or.inr ⟨h8, e⟩))
    have hb6 : 0x6000 ≤ b.toNat := by omega
    cases hm : c.mapper <;> simp only [cartCpuWrite, hm, h8, if_true, Option.some.injEq] at h <;> subst h <;>
      simp only [cartCpuRead, cpuMapRead, hm, hb8, hb6, if_true, if_false, cartSram, mapper4Write_sram]
    · next m =>
      have : (mapper1Write m a v).sram = m.sram := by
        unfold mapper1Write
        simp only
        repeat' split
        all_goals rfl
      rw [this]
  · have hne : b ≠ a := fun e => hb (Or.inr (Or.inl ⟨ha, by omega, e⟩))
    have hix : ¬ 0x8000 ≤ b.toNat → b.toNat % 0x2000 ≠ a.toNat % 0x2000 := fun hb' e =>
      hne (sramIndex_inj ha (by omega) (by omega) (by omega) e)
    have hb6 : 0x6000 ≤ b.toNat := by omega
    by_cases hb8 : 0x8000 ≤ b.toNat
    · cases hm : c.mapper <;> simp only [cartCpuWrite, hm, h8, ha, if_true, if_false, Option.some.injEq,
        reduceCtorEq] at h <;> subst h <;>
        simp only [cartCpuRead, cpuMapRead, hm, hb8, if_true, mapper1PrgOffset, mapper4PrgOffset, mapper4PrgBank,
          prgByte]
    · cases hm : c.mapper <;> simp only [cartCpuWrite, hm, h8, ha, if_true, if_false, Option.some.injEq,
        reduceCtorEq] at h <;> subst h <;>
        simp only [cartCpuRead, cpuMapRead, hm, hb8, hb6, if_true, if_false, cartSram,
          Memory.read_write_ne _ v (hix hb8)]

/-- THE FRAME OF A BUS WRITE, after a read of the same address or without one (R152, R444). `u` is `s` or the state that the
read left. -/
theorem cpuWrite_frame {s u : State} {a : Word} (hu : u = s ∨ u = (cpuRead s a).2) (v : Byte) :
    StoreFrame s (cpuWrite u a v) a := by
  have hr : ReadEffects s u := by
    rcases hu with rfl | rfl
    · exact ReadEffects.refl _
    · exact cpuRead_effects s a
  have hf : (¬ InPpuWindow a → u.ppu = s.ppu ∧ u.draws = s.draws) ∧ (a ≠ 0x4016 → u.pad0 = s.pad0)
      ∧ (a ≠ 0x4017 → u.pad1 = s.pad1) := by
    rcases hu with rfl | rfl
    · exact ⟨fun _ => ⟨rfl, rfl⟩, fun _ => rfl, fun _ => rfl⟩
    · exact cpuRead_frame s a
  have hmu := hr.memoryUnchanged
  have hw := cpuWrite_effects u a v
  have hprg : ∀ c, s.cart = some c → ∃ d, (cpuWrite u a v).cart = some d ∧ d.nPrg = c.nPrg ∧ d.nChr = c.nChr
      ∧ d.hwMirror = c.hwMirror ∧ d.trainer = c.trainer ∧ d.prg = c.prg := fun c hc =>
    hw.cart c (hr.cart.trans hc)
  have hmaster : (cpuWrite u a v).master = s.master := hw.master.trans hr.master
  by_cases hcart : ∃ d, u.cart.bind (fun c => cartCpuWrite c a v) = some d
  · obtain ⟨d, hd⟩ := hcart
    have e : cpuWrite u a v = u.setCart (some d) := by unfold cpuWrite; rw [hd]
    obtain ⟨c, hc, hcd⟩ := Option.bind_eq_some_iff.mp hd
    have hcs : s.cart = some c := hr.cart.symm.trans hc
    have ha : 0x6000 ≤ a.toNat := by
      by_contra hlt
      rw [cartCpuWrite_low c v (by omega)] at hcd
      cases hcd
    have hnw : ¬ InPpuWindow a := by unfold InPpuWindow; omega
    have h16 : a ≠ 0x4016 := by intro e; subst e; revert ha; decide
    have h17 : a ≠ 0x4017 := by intro e; subst e; revert ha; decide
    rw [e] at hprg hmaster ⊢
    refine ⟨fun b hb => ?_, fun _ => hf.1 hnw, fun _ _ k => ?_, fun h => absurd h (by omega), hprg, fun _ => hr.dma,
      ⟨hf.2.1, hf.2.2⟩, hmaster⟩
    · by_cases hbr : b.toNat < 0x2000
      · rw [storedByte_ram _ hbr, storedByte_ram _ hbr, State.setCart_ram, hr.ram]
      · rw [storedByte_notRam _ hbr, storedByte_notRam _ hbr, State.setCart_cart, hcs]
        exact cartCpuWrite_read hcd hb
    · rw [State.setCart_ppu, (hf.1 hnw).1]
      exact ⟨rfl, rfl, rfl, rfl⟩
  · have hnone : u.cart.bind (fun c => cartCpuWrite c a v) = none := by
      cases hx : u.cart.bind (fun c => cartCpuWrite c a v) with
      | none => rfl
      | some d => exact absurd ⟨d, hx⟩ hcart
    have e : cpuWrite u a v = busOwnWrite u a v := by unfold cpuWrite; rw [hnone]
    rw [e] at hprg hmaster ⊢
    have keep : ∀ t : State, t.ram = u.ram → t.cart = u.cart → ∀ b, storedByte t b = storedByte s b := fun t h1 h2 b =>
      storedByte_congr (h1.trans hr.ram) (h2.trans hr.cart) b
    by_cases h1 : a.toNat < 0x2000
    · have e1 : busOwnWrite u a v = u.setRam (Memory.write u.ram (ramIndex a) v) := by
        simp only [busOwnWrite, busTarget_low h1]
      have hnw : ¬ InPpuWindow a := by unfold InPpuWindow; omega
      have h16 : a ≠ 0x4016 := by intro e; subst e; revert h1; decide
      have h17 : a ≠ 0x4017 := by intro e; subst e; revert h1; decide
      rw [e1] at hprg hmaster ⊢
      refine ⟨fun b hb => ?_, fun _ => hf.1 hnw, fun _ _ k => ?_, fun _ _ => hr.cart, hprg, fun _ => hr.dma,
        ⟨hf.2.1, hf.2.2⟩, hmaster⟩
      · rw [storedByte_setRam_write u v h1 (fun h => hb (Or.inl h))]
        exact hmu.1 b
      · rw [State.setRam_ppu, (hf.1 hnw).1]
        exact ⟨rfl, rfl, rfl, rfl⟩
    by_cases h2 : a.toNat < 0x4000
    · have hin : InPpuWindow a := ⟨by omega, h2⟩
      have e1 : busOwnWrite u a v = writePpuRegister u (ppuRegisterOf a) v := by
        have : busTarget a = .ppu (ppuRegisterOf a) := by
          unfold busTarget
          rw [if_neg h1, if_pos h2]
        simp only [busOwnWrite, this]
      obtain ⟨f1, f2, f3, f4, f5, f6, f7⟩ := writePpuRegister_frame u (ppuRegisterOf a) v
      rw [e1] at hprg hmaster ⊢
      refine ⟨fun b _ => (f1 b).trans (hmu.1 b), fun h => absurd hin h, fun r4 r7 k => ?_,
        fun _ h => (f6 (h hin)).trans hr.cart, hprg, fun _ => f4.trans hr.dma,
        ⟨fun h => f2.trans (hf.2.1 h), fun h => f3.trans (hf.2.2 h)⟩, hmaster⟩
      obtain ⟨g1, g2, g3, g4⟩ := f7 r4 r7 k
      obtain ⟨k1, k2, k3, k4⟩ := hmu.2.1 k
      exact ⟨g1.trans k1, g2.trans k2, g3.trans k3, g4.trans k4⟩
    have hnw : ¬ InPpuWindow a := by unfold InPpuWindow; omega
    have hppu := hf.1 hnw
    by_cases h3 : a = 0x4014
    · subst h3
      refine ⟨fun b _ => keep _ rfl rfl b, fun _ => hppu, fun _ _ k => ?_, fun _ _ => hr.cart, hprg,
        fun h => absurd rfl h, ⟨hf.2.1, hf.2.2⟩, hmaster⟩
      show _ ∧ _
      have : (busOwnWrite u 0x4014 v).ppu = u.ppu := rfl
      rw [this, hppu.1]
      exact ⟨rfl, rfl, rfl, rfl⟩
    by_cases h4 : a = 0x4016
    · subst h4
      refine ⟨fun b _ => keep _ rfl rfl b, fun _ => hppu, fun _ _ k => ?_, fun _ _ => hr.cart, hprg, fun _ => hr.dma,
        ⟨fun h => absurd rfl h, hf.2.2⟩, hmaster⟩
      have : (busOwnWrite u 0x4016 v).ppu = u.ppu := rfl
      rw [this, hppu.1]
      exact ⟨rfl, rfl, rfl, rfl⟩
    by_cases h5 : a = 0x4017
    · subst h5
      refine ⟨fun b _ => keep _ rfl rfl b, fun _ => hppu, fun _ _ k => ?_, fun _ _ => hr.cart, hprg, fun _ => hr.dma,
        ⟨hf.2.1, fun h => absurd rfl h⟩, hmaster⟩
      have : (busOwnWrite u 0x4017 v).ppu = u.ppu := rfl
      rw [this, hppu.1]
      exact ⟨rfl, rfl, rfl, rfl⟩
    · have e1 : busOwnWrite u a v = u := by
        have : busTarget a = .open := by
          unfold busTarget
          rw [if_neg h1, if_neg h2, if_neg h3, if_neg (by rintro (h | h) <;> contradiction)]
        simp only [busOwnWrite, this]
      rw [e1] at hprg hmaster ⊢
      refine ⟨fun b _ => hmu.1 b, fun _ => hppu, fun _ _ k => ?_, fun _ _ => hr.cart, hprg, fun _ => hr.dma,
        ⟨hf.2.1, hf.2.2⟩, hmaster⟩
      rw [hppu.1]
      exact ⟨rfl, rfl, rfl, rfl⟩

/-- Register updates after an access keep its frame. -/
theorem StoreFrame.outsideCpu {s u t : State} {a : Word} (h : StoreFrame s u a) (g : OutsideCpu u t) :
    StoreFrame s t a := by
  rw [g]
  exact ⟨h.bytes, h.ppu, h.ppuMemory, h.cart, h.prg, h.dma, h.pads, h.master⟩

end Sys2Proof.Machine
end

