-- ==== Sys2Proof/Laws/Ppu.lean ====
section
/-!
SUPPORT. What one PPU cycle can do, stage by stage: nothing to the CPU, work RAM, the DMA engine or the controllers; of
the cartridge only the scanline hook; the PPU's memories stay and its well-formedness is kept.
-/
namespace Sys2Proof.Machine

/-- Everything a stage of a PPU cycle can change: the PPU but for its memories, the mapper through the scanline hook, the
count of draws. -/
structure PpuEffects (s t : State) : Prop where
  cpu : t.cpu = s.cpu
  ram : t.ram = s.ram
  master : t.master = s.master
  dma : t.dma = s.dma
  pad0 : t.pad0 = s.pad0
  pad1 : t.pad1 = s.pad1
  oam : t.ppu.oam = s.ppu.oam
  nt : t.ppu.nt = s.ppu.nt
  pal : t.ppu.pal = s.ppu.pal
  pat : t.ppu.pat = s.ppu.pat
  noCart : s.cart = none → t.cart = none
  cart : ∀ c, s.cart = some c → ∃ d, t.cart = some d ∧ SameStores c d ∧ (cartWf c = true → cartWf d = true)
  wf : ppuWf s.ppu = true → ppuWf t.ppu = true

theorem PpuEffects.refl (s : State) : PpuEffects s s :=
  ⟨rfl, rfl, rfl, rfl, rfl, rfl, rfl, rfl, rfl, rfl, id, fun c h => ⟨c, h, SameStores.refl c, id⟩, id⟩

theorem SameStores.trans {c d e : Cartridge} (h : SameStores c d) (g : SameStores d e) : SameStores c e :=
  ⟨g.nPrg.trans h.nPrg, g.nChr.trans h.nChr, g.hwMirror.trans h.hwMirror, g.trainer.trans h.trainer,
    g.prg.trans h.prg, g.chr.trans h.chr⟩

theorem PpuEffects.trans {s t u : State} (h : PpuEffects s t) (g : PpuEffects t u) : PpuEffects s u := by
  refine ⟨g.cpu.trans h.cpu, g.ram.trans h.ram, g.master.trans h.master, g.dma.trans h.dma, g.pad0.trans h.pad0,
    g.pad1.trans h.pad1, g.oam.trans h.oam, g.nt.trans h.nt, g.pal.trans h.pal, g.pat.trans h.pat,
    fun e => g.noCart (h.noCart e), fun c e => ?_, fun e => g.wf (h.wf e)⟩
  obtain ⟨d, hd, hs, hw⟩ := h.cart c e
  obtain ⟨d', hd', gs, gw⟩ := g.cart d hd
  exact ⟨d', hd', hs.trans gs, fun x => gw (hw x)⟩

/-- A stage that only rewrites PPU registers, leaving the memories, the frame buffer and the raster position. -/
theorem PpuEffects.ofRegisters {s : State} {q : Ppu} (hoam : q.oam = s.ppu.oam) (hnt : q.nt = s.ppu.nt)
    (hpal : q.pal = s.ppu.pal) (hpat : q.pat = s.ppu.pat) (hwf : ppuWf s.ppu = true → ppuWf q = true) :
    PpuEffects s (s.setPpu q) :=
  ⟨rfl, rfl, rfl, rfl, rfl, rfl, hoam, hnt, hpal, hpat, id, fun c h => ⟨c, h, SameStores.refl c, id⟩, hwf⟩

theorem verticalBlank_effects (s : State) : PpuEffects s (s.setPpu (verticalBlank s.ppu)) := by
  unfold verticalBlank
  split
  · exact PpuEffects.ofRegisters rfl rfl rfl rfl id
  · split <;> exact PpuEffects.ofRegisters rfl rfl rfl rfl id

theorem shiftBackground_effects (s : State) : PpuEffects s (s.setPpu (shiftBackground s.ppu)) := by
  unfold shiftBackground
  split <;> exact PpuEffects.ofRegisters rfl rfl rfl rfl id

theorem reloadBackground_effects (s : State) : PpuEffects s (s.setPpu (reloadBackground s.ppu)) :=
  PpuEffects.ofRegisters rfl rfl rfl rfl id

theorem incrementCoarseX_effects (s : State) : PpuEffects s (s.setPpu (incrementCoarseX s.ppu)) := by
  unfold incrementCoarseX
  split <;> exact PpuEffects.ofRegisters rfl rfl rfl rfl id

theorem fetchTileId_effects (s : State) : PpuEffects s (fetchTileId s) :=
  PpuEffects.ofRegisters rfl rfl rfl rfl id

theorem fetchWindow_effects (s : State) : PpuEffects s (fetchWindow s) := by
  unfold fetchWindow
  split
  · refine (shiftBackground_effects s).trans ?_
    generalize s.setPpu (shiftBackground s.ppu) = t
    simp only
    split
    · exact (reloadBackground_effects t).trans (fetchTileId_effects _)
    · exact PpuEffects.ofRegisters rfl rfl rfl rfl id
    · exact PpuEffects.ofRegisters rfl rfl rfl rfl id
    · exact PpuEffects.ofRegisters rfl rfl rfl rfl id
    · exact incrementCoarseX_effects t
    · exact PpuEffects.refl t
  · exact PpuEffects.refl s

theorem incrementY_effects (s : State) : PpuEffects s (s.setPpu (incrementY s.ppu)) := by
  unfold incrementY
  split <;> exact PpuEffects.ofRegisters rfl rfl rfl rfl id

theorem reloadAndCopyX_effects (s : State) : PpuEffects s (s.setPpu (reloadAndCopyX s.ppu)) := by
  unfold reloadAndCopyX
  split
  · simp only
    split <;> exact PpuEffects.ofRegisters rfl rfl rfl rfl id
  · exact PpuEffects.ofRegisters rfl rfl rfl rfl id

theorem idleFetches_effects (s : State) : PpuEffects s (idleFetches s) := by
  unfold idleFetches
  split
  · exact fetchTileId_effects s
  · exact PpuEffects.refl s

theorem copyYOnPreRender_effects (s : State) : PpuEffects s (s.setPpu (copyYOnPreRender s.ppu)) := by
  unfold copyYOnPreRender
  split <;> exact PpuEffects.ofRegisters rfl rfl rfl rfl id

theorem scanlineHook_effects (s : State) : PpuEffects s (scanlineHook s) := by
  unfold scanlineHook
  split
  · refine ⟨rfl, rfl, rfl, rfl, rfl, rfl, rfl, rfl, rfl, rfl, fun h => ?_, fun c h => ?_, id⟩
    · simp [h]
    · exact ⟨cartScanline c, by simp [h], cartScanline_sameStores c, cartScanline_wf⟩
  · exact PpuEffects.refl s

theorem screenIndex_lt {q : Ppu} (h : onScreen q = true) : screenIndex q < 61440 := by
  simp only [onScreen, Bool.and_eq_true, decide_eq_true_eq] at h
  unfold screenIndex
  omega

theorem ppuWf_screenWrite {q : Ppu} (p : Pixel) (hs : onScreen q = true) (hq : ppuWf q = true) :
    ppuWf { q with screen := screenWrite q.screen (screenIndex q) p } = true := by
  simp only [ppuWf, Bool.and_eq_true] at hq ⊢
  exact ⟨⟨hq.1.1, screenWrite_wf p (screenIndex_lt hs) hq.1.2⟩, hq.2⟩

theorem outputPixel_effects (s : State) : PpuEffects s (outputPixel s) := by
  unfold outputPixel
  split
  · next h =>
    split
    · exact ⟨rfl, rfl, rfl, rfl, rfl, rfl, rfl, rfl, rfl, rfl, id, fun c e => ⟨c, e, SameStores.refl c, id⟩,
        ppuWf_screenWrite _ h⟩
    · exact PpuEffects.ofRegisters rfl rfl rfl rfl (ppuWf_screenWrite _ h)
  · exact PpuEffects.refl s

/-- The advance of the raster keeps the position in the frame (R79, R654). -/
theorem advanceRaster_wf {q : Ppu} (hq : ppuWf q = true) : ppuWf (advanceRaster q) = true := by
  simp only [ppuWf, Bool.and_eq_true] at hq
  obtain ⟨hm, hr⟩ := hq
  simp only [rasterWf, Bool.and_eq_true, decide_eq_true_eq] at hr
  unfold advanceRaster
  split
  · split
    · simp only [ppuWf, Bool.and_eq_true]
      exact ⟨hm, rfl⟩
    · simp only [ppuWf, Bool.and_eq_true, rasterWf, decide_eq_true_eq]
      exact ⟨hm, ⟨by omega, by omega⟩, by omega⟩
  · simp only [ppuWf, Bool.and_eq_true, rasterWf, decide_eq_true_eq]
    exact ⟨hm, hr.1, by omega⟩

theorem advanceRaster_effects (s : State) : PpuEffects s (s.setPpu (advanceRaster s.ppu)) := by
  refine PpuEffects.ofRegisters ?_ ?_ ?_ ?_ advanceRaster_wf <;>
    (unfold advanceRaster; split <;> first | rfl | (split <;> rfl))

/-- THE LAW OF A PPU CYCLE (R654): it has the effects of `PpuEffects` and no other. -/
theorem ppuClock_effects (s : State) : PpuEffects s (ppuClock s) := by
  unfold ppuClock
  simp only
  refine (verticalBlank_effects s).trans ?_
  refine (fetchWindow_effects _).trans ?_
  refine (incrementY_effects _).trans ?_
  refine (reloadAndCopyX_effects _).trans ?_
  refine (idleFetches_effects _).trans ?_
  refine (copyYOnPreRender_effects _).trans ?_
  refine (scanlineHook_effects _).trans ?_
  exact (outputPixel_effects _).trans (advanceRaster_effects _)

end Sys2Proof.Machine
end

