-- ==== Sys2Proof/Laws/Invariant.lean ====
section
/-!
SUPPORT. Every operation that reaches memory keeps every store canonical and of its size: the bus read and write, the PPU
write, the DMA step, the stack, the interrupt entries.
-/
namespace Sys2Proof.Machine

/-- Every store is canonical and of its size, and the raster lies in the frame: the invariant but for the Unused flag. -/
def StoresWf (s : State) : Prop := Memory.wf 2048 s.ram = true ∧ ppuWf s.ppu = true ∧ slotWf s.cart = true

theorem State.inv_iff (s : State) : s.Inv ↔ StoresWf s ∧ s.flag .u = true := by
  simp only [State.Inv, State.inv, StoresWf, Bool.and_eq_true]
  tauto

/-- Well-formedness looks at work RAM, the PPU and the cartridge only. -/
theorem StoresWf.congr {s t : State} (h : StoresWf s) (hr : t.ram = s.ram) (hp : t.ppu = s.ppu) (hc : t.cart = s.cart) :
    StoresWf t := by
  unfold StoresWf
  rw [hr, hp, hc]
  exact h

/-- The PPU's well-formedness looks at its memories, the frame buffer and the raster only. -/
theorem ppuWf_congr {q r : Ppu} (h : ppuWf q = true) (h1 : r.oam = q.oam) (h2 : r.nt = q.nt) (h3 : r.pal = q.pal)
    (h4 : r.pat = q.pat) (h5 : r.screen = q.screen) (h6 : r.scanline = q.scanline) (h7 : r.cycle = q.cycle) :
    ppuWf r = true := by
  simp only [ppuWf, rasterWf, h1, h2, h3, h4, h5, h6, h7] at h ⊢
  exact h

/-- A bus read keeps the stores (R166). -/
theorem StoresWf.read {s t : State} (h : StoresWf s) (hr : ReadEffects s t) : StoresWf t := by
  refine ⟨hr.ram ▸ h.1, ?_, hr.cart ▸ h.2.2⟩
  have e := hr.ppu
  exact ppuWf_congr h.2.1 (by rw [e]) (by rw [e]) (by rw [e]) (by rw [e]) (by rw [e]) (by rw [e]) (by rw [e])

theorem ppuWf_oamWrite {q : Ppu} (k : Byte) (v : Byte) (hq : ppuWf q = true) :
    ppuWf { q with oam := Memory.write q.oam k.toNat v } = true := by
  have := k.isLt
  simp only [ppuWf, Bool.and_eq_true] at hq ⊢
  exact ⟨⟨⟨⟨⟨Memory.write_wf v (by omega) hq.1.1.1.1.1, hq.1.1.1.1.2⟩, hq.1.1.1.2⟩, hq.1.1.2⟩, hq.1.2⟩, hq.2⟩

/-- Every index of the nametable store is below 2048 (R202). -/
theorem nametableIndex_lt (m : Mirroring) (a : Word) : nametableIndex m a < 2048 := by
  have h1 := (a.extractLsb' 10 1).isLt
  have h2 := (a.extractLsb' 11 1).isLt
  cases m <;> simp only [nametableIndex, nametableBank] <;> omega

/-- Every index of the palette store is below 32 (R203). -/
theorem paletteIndex_lt (a : Word) : paletteIndex a < 32 := by
  unfold paletteIndex
  simp only
  split <;> omega

theorem StoresWf.ppuOwnWrite {s : State} (h : StoresWf s) (a : Word) (v : Byte) : StoresWf (ppuOwnWrite s a v) := by
  obtain ⟨hr, hp, hc⟩ := h
  simp only [ppuWf, Bool.and_eq_true] at hp
  obtain ⟨⟨⟨⟨⟨h1, h2⟩, h3⟩, h4⟩, h5⟩, h6⟩ := hp
  unfold Sys2Proof.Machine.ppuOwnWrite ppuTarget
  by_cases l1 : a.toNat < 0x2000
  · rw [if_pos l1]
    refine ⟨hr, ?_, hc⟩
    simp only [State.setPpu_ppu, ppuWf, Bool.and_eq_true]
    exact ⟨⟨⟨⟨⟨h1, h2⟩, h3⟩, Memory.write_wf v (Nat.mod_lt _ (by omega)) h4⟩, h5⟩, h6⟩
  · rw [if_neg l1]
    by_cases l2 : a.toNat < 0x3F00
    · rw [if_pos l2]
      refine ⟨hr, ?_, hc⟩
      simp only [State.setPpu_ppu, ppuWf, Bool.and_eq_true]
      exact ⟨⟨⟨⟨⟨h1, Memory.write_wf v (nametableIndex_lt _ _) h2⟩, h3⟩, h4⟩, h5⟩, h6⟩
    · rw [if_neg l2]
      refine ⟨hr, ?_, hc⟩
      simp only [State.setPpu_ppu, ppuWf, Bool.and_eq_true]
      exact ⟨⟨⟨⟨⟨h1, h2⟩, Memory.write_wf v (paletteIndex_lt _) h3⟩, h4⟩, h5⟩, h6⟩

/-- A character write keeps the cartridge well formed (R186). -/
theorem cartWf_chrWrite {c : Cartridge} {a : Word} {k : Nat} (v : Byte) (hc : cartWf c = true)
    (h : ppuMapWrite c a = .chr k) : cartWf { c with chr := Memory.write c.chr k v } = true := by
  unfold ppuMapWrite at h
  split at h
  · next ha =>
    split at h
    · next hn =>
      cases h
      simp only [cartWf, Bool.and_eq_true, chrSize, hn, if_true] at hc ⊢
      exact ⟨⟨⟨hc.1.1.1, Memory.write_wf v ha hc.1.1.2⟩, hc.1.2⟩, hc.2⟩
    · cases h
  · cases h

/-- A PPU write keeps the stores (R200). -/
theorem StoresWf.ppuWrite {s : State} (h : StoresWf s) (a : Word) (v : Byte) : StoresWf (ppuWrite s a v) := by
  unfold Sys2Proof.Machine.ppuWrite
  simp only
  split
  · exact h.ppuOwnWrite _ v
  · next c hc =>
    have hw : cartWf c = true := by
      have := h.2.2
      rw [hc] at this
      exact this
    split
    · next k e => exact ⟨h.1, h.2.1, cartWf_chrWrite v hw e⟩
    · exact h
    · exact h.ppuOwnWrite _ v

/-- A write to a PPU register keeps the stores (R640). -/
theorem StoresWf.writePpuRegister {s : State} (h : StoresWf s) (r : BitVec 3) (v : Byte) :
    StoresWf (writePpuRegister s r v) := by
  have regs : ∀ q : Ppu, q.oam = s.ppu.oam → q.nt = s.ppu.nt → q.pal = s.ppu.pal → q.pat = s.ppu.pat →
      q.screen = s.ppu.screen → q.scanline = s.ppu.scanline → q.cycle = s.ppu.cycle → StoresWf (s.setPpu q) :=
    fun q h1 h2 h3 h4 h5 h6 h7 => ⟨h.1, ppuWf_congr h.2.1 h1 h2 h3 h4 h5 h6 h7, h.2.2⟩
  unfold Sys2Proof.Machine.writePpuRegister
  split
  · exact regs _ rfl rfl rfl rfl rfl rfl rfl
  · exact regs _ rfl rfl rfl rfl rfl rfl rfl
  · exact h
  · exact regs _ rfl rfl rfl rfl rfl rfl rfl
  · refine ⟨h.1, ?_, h.2.2⟩
    exact ppuWf_congr (ppuWf_oamWrite s.ppu.oamAddr v h.2.1) rfl rfl rfl rfl rfl rfl rfl
  · unfold writePpuScroll
    split <;> exact regs _ rfl rfl rfl rfl rfl rfl rfl
  · unfold writePpuAddr
    simp only
    split <;> exact regs _ rfl rfl rfl rfl rfl rfl rfl
  · have hw := h.ppuWrite (ppuAddressOf s.ppu.vramAddr) v
    exact ⟨hw.1, ppuWf_congr hw.2.1 rfl rfl rfl rfl rfl rfl rfl, hw.2.2⟩

/-- A bus write keeps the stores (R152). -/
theorem StoresWf.cpuWrite {s : State} (h : StoresWf s) (a : Word) (v : Byte) : StoresWf (cpuWrite s a v) := by
  unfold Sys2Proof.Machine.cpuWrite
  split
  · next d hd =>
    obtain ⟨c, hc, hcd⟩ := Option.bind_eq_some_iff.mp hd
    have hw : cartWf c = true := by
      have := h.2.2
      rw [hc] at this
      exact this
    exact ⟨h.1, h.2.1, cartCpuWrite_wf hw hcd⟩
  · unfold busOwnWrite
    split
    · next k e =>
      have hk : k < 2048 := by
        unfold busTarget at e
        repeat' split at e
        all_goals cases e
        exact Nat.mod_lt _ (by omega)
      exact ⟨Memory.write_wf v hk h.1, h.2.1, h.2.2⟩
    · exact h.writePpuRegister _ v
    · exact h.congr rfl rfl rfl
    · exact h.congr (by simp) (by simp) (by simp)
    · exact h

/-- A push keeps the stores (R20). -/
theorem StoresWf.push {s : State} (h : StoresWf s) (v : Byte) : StoresWf (push s v) :=
  (h.cpuWrite (stackAddress s.cpu.sp) v).congr rfl rfl rfl

/-- Taking an interrupt keeps the stores (R626). -/
theorem StoresWf.takeInterrupt {s : State} (h : StoresWf s) (image : Byte) (vector : Word) :
    StoresWf (takeInterrupt s image vector) := by
  have hp := ((h.push (hiByte s.cpu.pc)).push (loByte s.cpu.pc)).push image
  have hi : StoresWf ((Sys2Proof.Machine.push (pushWord s s.cpu.pc) image).setFlag .i true) := hp.congr rfl rfl rfl
  exact (hi.read (read16_effects _ vector)).congr rfl rfl rfl

/-- The DMA step keeps the stores (R190). -/
theorem StoresWf.dmaStep {s : State} (h : StoresWf s) : StoresWf (dmaStep s) := by
  unfold Sys2Proof.Machine.dmaStep
  split
  · split
    · exact h.congr rfl rfl rfl
    · exact h
  · split
    · exact (h.read (cpuRead_effects s _)).congr rfl rfl rfl
    · simp only
      split <;> exact ⟨h.1, ppuWf_oamWrite s.dma.addr s.dma.data h.2.1, h.2.2⟩

/-- Interrupt polling keeps the stores (R620). -/
theorem StoresWf.pollInterrupts {s : State} (h : StoresWf s) : StoresWf (pollInterrupts s) := by
  have hn : StoresWf (pollNmi s) := by
    unfold pollNmi nmiEntry
    split
    · have h' : StoresWf (s.setPpu { s.ppu with nmi := false }) :=
        ⟨h.1, ppuWf_congr h.2.1 rfl rfl rfl rfl rfl rfl rfl, h.2.2⟩
      exact (h'.takeInterrupt _ _).congr rfl rfl rfl
    · exact h
  unfold Sys2Proof.Machine.pollInterrupts pollIrq
  split
  · exact hn
  · next c hc =>
    split
    · have hw : cartWf c = true := by
        have := hn.2.2
        rw [hc] at this
        exact this
      have h' : StoresWf ((pollNmi s).setCart (some (cartIrqClear c))) := ⟨hn.1, hn.2.1, cartIrqClear_wf hw⟩
      unfold irqEntry
      split
      · exact h'
      · exact (h'.takeInterrupt _ _).congr rfl rfl rfl
    · exact hn

/-- A PPU cycle keeps the stores (R654). -/
theorem StoresWf.ppuClock {s : State} (h : StoresWf s) : StoresWf (ppuClock s) := by
  have e := ppuClock_effects s
  refine ⟨e.ram ▸ h.1, e.wf h.2.1, ?_⟩
  cases hc : s.cart with
  | none =>
    rw [e.noCart hc]
    rfl
  | some c =>
    obtain ⟨d, hd, _, hw⟩ := e.cart c hc
    have := h.2.2
    rw [hc] at this
    rw [hd]
    exact hw this

end Sys2Proof.Machine
end

