-- ==== Sys2Proof/Laws/PerInstr.lean ====
section
/-!
SUPPORT. One statement per instruction, about it as syntax: the encoder has an opcode byte for it exactly when it stands in
the opcode table, and that byte announces as many operand bytes as the encoder writes (R300, R301, R320, R324).
-/
namespace Sys2Proof.Laws.OpcodeListed

/-- The encoder has an opcode exactly for the table's rows, and the opcode byte fixes the length. -/
def Statement (i : Instr) : Prop :=
  (opcodeOf i).isSome = i.wellFormed ∧ ∀ op, opcodeOf i = some op → operandCount op = (operandBytes i).length

/-- An illegal opcode byte has no operand byte (R612). -/
theorem operandCount_illegal (op : Byte) (h : illegalOpcodes.contains op = true) : operandCount op = 0 := by
  have key : ∀ b ∈ illegalOpcodes, operandCount b = 0 := by decide
  exact key op (by simpa using h)

theorem adc (m : Addr) : Statement (.adc m) := by
  cases m <;> exact ⟨rfl, fun op h => by cases h <;> rfl⟩

theorem sbc (m : Addr) : Statement (.sbc m) := by
  cases m <;> exact ⟨rfl, fun op h => by cases h <;> rfl⟩

theorem and (m : Addr) : Statement (.and m) := by
  cases m <;> exact ⟨rfl, fun op h => by cases h <;> rfl⟩

theorem ora (m : Addr) : Statement (.ora m) := by
  cases m <;> exact ⟨rfl, fun op h => by cases h <;> rfl⟩

theorem eor (m : Addr) : Statement (.eor m) := by
  cases m <;> exact ⟨rfl, fun op h => by cases h <;> rfl⟩

theorem bit (m : Addr) : Statement (.bit m) := by
  cases m <;> exact ⟨rfl, fun op h => by cases h <;> rfl⟩

theorem asl (t : ShiftOperand) : Statement (.asl t) := by
  cases t with
  | acc => exact ⟨rfl, fun op h => by cases h; rfl⟩
  | mem m => cases m <;> exact ⟨rfl, fun op h => by cases h <;> rfl⟩

theorem lsr (t : ShiftOperand) : Statement (.lsr t) := by
  cases t with
  | acc => exact ⟨rfl, fun op h => by cases h; rfl⟩
  | mem m => cases m <;> exact ⟨rfl, fun op h => by cases h <;> rfl⟩

theorem rol (t : ShiftOperand) : Statement (.rol t) := by
  cases t with
  | acc => exact ⟨rfl, fun op h => by cases h; rfl⟩
  | mem m => cases m <;> exact ⟨rfl, fun op h => by cases h <;> rfl⟩

theorem ror (t : ShiftOperand) : Statement (.ror t) := by
  cases t with
  | acc => exact ⟨rfl, fun op h => by cases h; rfl⟩
  | mem m => cases m <;> exact ⟨rfl, fun op h => by cases h <;> rfl⟩

theorem bcc (rel : Byte) : Statement (.bcc rel) := ⟨rfl, fun op h => by cases h; rfl⟩

theorem bcs (rel : Byte) : Statement (.bcs rel) := ⟨rfl, fun op h => by cases h; rfl⟩

theorem beq (rel : Byte) : Statement (.beq rel) := ⟨rfl, fun op h => by cases h; rfl⟩

theorem bne (rel : Byte) : Statement (.bne rel) := ⟨rfl, fun op h => by cases h; rfl⟩

theorem bmi (rel : Byte) : Statement (.bmi rel) := ⟨rfl, fun op h => by cases h; rfl⟩

theorem bpl (rel : Byte) : Statement (.bpl rel) := ⟨rfl, fun op h => by cases h; rfl⟩

theorem bvc (rel : Byte) : Statement (.bvc rel) := ⟨rfl, fun op h => by cases h; rfl⟩

theorem bvs (rel : Byte) : Statement (.bvs rel) := ⟨rfl, fun op h => by cases h; rfl⟩

theorem cmp (m : Addr) : Statement (.cmp m) := by
  cases m <;> exact ⟨rfl, fun op h => by cases h <;> rfl⟩

theorem cpx (m : Addr) : Statement (.cpx m) := by
  cases m <;> exact ⟨rfl, fun op h => by cases h <;> rfl⟩

theorem cpy (m : Addr) : Statement (.cpy m) := by
  cases m <;> exact ⟨rfl, fun op h => by cases h <;> rfl⟩

theorem inc (m : Addr) : Statement (.inc m) := by
  cases m <;> exact ⟨rfl, fun op h => by cases h <;> rfl⟩

theorem dec (m : Addr) : Statement (.dec m) := by
  cases m <;> exact ⟨rfl, fun op h => by cases h <;> rfl⟩

theorem inx : Statement .inx := ⟨rfl, fun op h => by cases h; rfl⟩

theorem iny : Statement .iny := ⟨rfl, fun op h => by cases h; rfl⟩

theorem dex : Statement .dex := ⟨rfl, fun op h => by cases h; rfl⟩

theorem dey : Statement .dey := ⟨rfl, fun op h => by cases h; rfl⟩

theorem lda (m : Addr) : Statement (.lda m) := by
  cases m <;> exact ⟨rfl, fun op h => by cases h <;> rfl⟩

theorem ldx (m : Addr) : Statement (.ldx m) := by
  cases m <;> exact ⟨rfl, fun op h => by cases h <;> rfl⟩

theorem ldy (m : Addr) : Statement (.ldy m) := by
  cases m <;> exact ⟨rfl, fun op h => by cases h <;> rfl⟩

theorem sta (m : Addr) : Statement (.sta m) := by
  cases m <;> exact ⟨rfl, fun op h => by cases h <;> rfl⟩

theorem stx (m : Addr) : Statement (.stx m) := by
  cases m <;> exact ⟨rfl, fun op h => by cases h <;> rfl⟩

theorem sty (m : Addr) : Statement (.sty m) := by
  cases m <;> exact ⟨rfl, fun op h => by cases h <;> rfl⟩

theorem tax : Statement .tax := ⟨rfl, fun op h => by cases h; rfl⟩

theorem tay : Statement .tay := ⟨rfl, fun op h => by cases h; rfl⟩

theorem txa : Statement .txa := ⟨rfl, fun op h => by cases h; rfl⟩

theorem tya : Statement .tya := ⟨rfl, fun op h => by cases h; rfl⟩

theorem tsx : Statement .tsx := ⟨rfl, fun op h => by cases h; rfl⟩

theorem txs : Statement .txs := ⟨rfl, fun op h => by cases h; rfl⟩

theorem pha : Statement .pha := ⟨rfl, fun op h => by cases h; rfl⟩

theorem pla : Statement .pla := ⟨rfl, fun op h => by cases h; rfl⟩

theorem php : Statement .php := ⟨rfl, fun op h => by cases h; rfl⟩

theorem plp : Statement .plp := ⟨rfl, fun op h => by cases h; rfl⟩

theorem jmp (t : JumpTarget) : Statement (.jmp t) := by
  cases t <;> exact ⟨rfl, fun op h => by cases h; rfl⟩

theorem jsr (target : Word) : Statement (.jsr target) := ⟨rfl, fun op h => by cases h; rfl⟩

theorem rts : Statement .rts := ⟨rfl, fun op h => by cases h; rfl⟩

theorem brk : Statement .brk := ⟨rfl, fun op h => by cases h; rfl⟩

theorem rti : Statement .rti := ⟨rfl, fun op h => by cases h; rfl⟩

theorem clc : Statement .clc := ⟨rfl, fun op h => by cases h; rfl⟩

theorem sec : Statement .sec := ⟨rfl, fun op h => by cases h; rfl⟩

theorem cli : Statement .cli := ⟨rfl, fun op h => by cases h; rfl⟩

theorem sei : Statement .sei := ⟨rfl, fun op h => by cases h; rfl⟩

theorem cld : Statement .cld := ⟨rfl, fun op h => by cases h; rfl⟩

theorem sed : Statement .sed := ⟨rfl, fun op h => by cases h; rfl⟩

theorem clv : Statement .clv := ⟨rfl, fun op h => by cases h; rfl⟩

theorem nop : Statement .nop := ⟨rfl, fun op h => by cases h; rfl⟩

theorem illegal (op : Byte) : Statement (.illegal op) := by
  by_cases h : illegalOpcodes.contains op = true
  · refine ⟨by simp only [opcodeOf, Instr.wellFormed, h, if_true, Option.isSome_some], fun b e => ?_⟩
    simp only [opcodeOf, h, if_true, Option.some.injEq] at e
    rw [← e]
    exact operandCount_illegal op h
  · refine ⟨?_, fun b e => ?_⟩
    · simp only [opcodeOf, Instr.wellFormed, Bool.eq_false_iff.mpr h, Bool.false_eq_true, if_false, Option.isSome_none]
    · simp only [opcodeOf, h, if_false, reduceCtorEq] at e

end Sys2Proof.Laws.OpcodeListed
end

