-- ==== Sys2Proof/Laws/Reset.lean ====
section
/-!
SUPPORT. The reset sequence as one equation, and that `State.reset` is what it leaves of a power-on machine with no
cartridge (R800, R802, R803), whatever the registers that power-on leaves open.
-/
namespace Sys2Proof.Machine

/-- The registers `cpu.Reset()` leaves, PC from the vector (R87, R802). -/
theorem cpuReset_eq (a x y : Byte) (s : State) :
    cpuReset a x y s =
      { s with cpu := { a := a, x := x, y := y, sp := 0xFD,
                        pc := word16 (cpuRead s 0xFFFD).1 (cpuRead s 0xFFFC).1, p := 0x34, cycles := 8 } } := by
  have high : ∀ (b : Word), 0x4018 ≤ b.toNat → ∀ cpu : Cpu,
      (cpuRead { s with cpu := cpu } b).1 = (cpuRead s b).1 := by
    intro b hb cpu
    unfold cpuRead busOwnRead
    rw [busTarget_high hb]
    simp only
    split <;> rfl
  unfold cpuReset
  simp only
  rw [read16_vector _ (a := 0xFFFC) (by decide) (by decide)]
  simp only [State.setA, State.setX, State.setY, State.setSp, State.setP, State.setPc, State.setCycles]
  rw [show (0xFFFC : Word) + 1 = 0xFFFD from rfl, high 0xFFFD (by decide), high 0xFFFC (by decide)]

/-- With no cartridge a read above the controllers gives 0 (R156, R158). -/
theorem cpuRead_noCart {s : State} (h : s.cart = none) {a : Word} (ha : 0x4018 ≤ a.toNat) : cpuRead s a = (0, s) := by
  unfold cpuRead busOwnRead
  rw [h, busTarget_high ha]
  rfl

/-- Reset after power-on, for every `POWERON_MEM` and `RESET_AXY` and whatever the registers held: the registers at the
reset values, the memories as they were drawn. -/
theorem busReset_powerOn (mem : PowerOnMem) (cpu : Cpu) (regs : Ppu) (a x y : Byte) :
    busReset a x y (powerOn mem cpu regs) = powerOn mem { Cpu.reset with a := a, x := x, y := y } Ppu.reset := by
  simp only [busReset, cpuReset_eq]
  rw [cpuRead_noCart rfl (by decide), cpuRead_noCart rfl (by decide)]
  have hz : word16 0 0 = 0 := by decide
  have hp : (0x34 : Byte) ||| 0x20 = 0x34 := by decide
  simp only [hz, powerOn, Cpu.reset, hp]
  rfl

/-- `State.reset` is that state with every draw at 0 (log 2, log 3, log 16). -/
theorem State.reset_eq_busReset (cpu : Cpu) (regs : Ppu) :
    busReset 0 0 0 (powerOn ⟨[], [], [], [], []⟩ cpu regs) = State.reset := by
  rw [busReset_powerOn]
  rfl

end Sys2Proof.Machine
end

