-- ==== Sys2Proof/Machine/Disasm.lean ====
section
/-!
DEFINITION. The disassembler (R330, R331): text from memory, read only through the debug path.
-/
namespace Sys2Proof.Machine

/-- The mnemonic of an instruction, `???` for an illegal opcode (R331). -/
def mnemonicOf : Instr → String
  | .adc _ => "ADC"
  | .sbc _ => "SBC"
  | .and _ => "AND"
  | .ora _ => "ORA"
  | .eor _ => "EOR"
  | .bit _ => "BIT"
  | .asl _ => "ASL"
  | .lsr _ => "LSR"
  | .rol _ => "ROL"
  | .ror _ => "ROR"
  | .bcc _ => "BCC"
  | .bcs _ => "BCS"
  | .beq _ => "BEQ"
  | .bne _ => "BNE"
  | .bmi _ => "BMI"
  | .bpl _ => "BPL"
  | .bvc _ => "BVC"
  | .bvs _ => "BVS"
  | .cmp _ => "CMP"
  | .cpx _ => "CPX"
  | .cpy _ => "CPY"
  | .inc _ => "INC"
  | .dec _ => "DEC"
  | .inx => "INX"
  | .iny => "INY"
  | .dex => "DEX"
  | .dey => "DEY"
  | .lda _ => "LDA"
  | .ldx _ => "LDX"
  | .ldy _ => "LDY"
  | .sta _ => "STA"
  | .stx _ => "STX"
  | .sty _ => "STY"
  | .tax => "TAX"
  | .tay => "TAY"
  | .txa => "TXA"
  | .tya => "TYA"
  | .tsx => "TSX"
  | .txs => "TXS"
  | .pha => "PHA"
  | .pla => "PLA"
  | .php => "PHP"
  | .plp => "PLP"
  | .jmp _ => "JMP"
  | .jsr _ => "JSR"
  | .rts => "RTS"
  | .brk => "BRK"
  | .rti => "RTI"
  | .clc => "CLC"
  | .sec => "SEC"
  | .cli => "CLI"
  | .sei => "SEI"
  | .cld => "CLD"
  | .sed => "SED"
  | .clv => "CLV"
  | .nop => "NOP"
  | .illegal _ => "???"

/-- An upper-case hex digit. -/
def hexDigit (n : Nat) : Char := ['0', '1', '2', '3', '4', '5', '6', '7', '8', '9', 'A', 'B', 'C', 'D', 'E', 'F'].getD n '0'

/-- A byte as two hex digits. -/
def hex2 (b : Byte) : String := String.ofList [hexDigit (b.toNat / 16), hexDigit (b.toNat % 16)]

/-- An address as four hex digits. -/
def hex4 (w : Word) : String := hex2 (hiByte w) ++ hex2 (loByte w)

/-- The text of an operand (R330). -/
def addrText : Addr → String
  | .imm v => "#$" ++ hex2 v
  | .zp0 z => "$" ++ hex2 z
  | .zpx z => "$" ++ hex2 z ++ ",X"
  | .zpy z => "$" ++ hex2 z ++ ",Y"
  | .abs w => "$" ++ hex4 w
  | .abx w => "$" ++ hex4 w ++ ",X"
  | .aby w => "$" ++ hex4 w ++ ",Y"
  | .izx z => "($" ++ hex2 z ++ ",X)"
  | .izy z => "($" ++ hex2 z ++ "),Y"

/-- The mode tag of an operand (R301). -/
def addrTagText : Addr → String
  | .imm _ => "IMM"
  | .zp0 _ => "ZP0"
  | .zpx _ => "ZPX"
  | .zpy _ => "ZPY"
  | .abs _ => "ABS"
  | .abx _ => "ABX"
  | .aby _ => "ABY"
  | .izx _ => "IZX"
  | .izy _ => "IZY"

/-- The operand text and the mode tag of an instruction at an address; a branch shows its displacement and its target
(R331; log 20). -/
def operandText (a : Word) : Instr → String × String
  | .adc m | .sbc m | .and m | .ora m | .eor m | .bit m => (addrText m, addrTagText m)
  | .cmp m | .cpx m | .cpy m | .inc m | .dec m => (addrText m, addrTagText m)
  | .lda m | .ldx m | .ldy m | .sta m | .stx m | .sty m => (addrText m, addrTagText m)
  | .asl (.mem m) | .lsr (.mem m) | .rol (.mem m) | .ror (.mem m) => (addrText m, addrTagText m)
  | .asl .acc | .lsr .acc | .rol .acc | .ror .acc => ("A", "ACC")
  | .bcc r | .bcs r | .beq r | .bne r | .bmi r | .bpl r | .bvc r | .bvs r =>
    ("$" ++ hex2 r ++ " [$" ++ hex4 (branchTarget (a + 2) r) ++ "]", "REL")
  | .jmp (.abs w) | .jsr w => ("$" ++ hex4 w, "ABS")
  | .jmp (.ind p) => ("($" ++ hex4 p ++ ")", "IND")
  | .inx | .iny | .dex | .dey | .tax | .tay | .txa | .tya | .tsx | .txs => ("", "IMP")
  | .pha | .pla | .php | .plp | .rts | .brk | .rti => ("", "IMP")
  | .clc | .sec | .cli | .sei | .cld | .sed | .clv | .nop => ("", "IMP")
  | .illegal _ => ("", "IMP")

/-- The instruction that disassembly sees at an address, through `PeekRead` only (R162, R331). -/
def peekInstr (s : State) (a : Word) : Instr :=
  decodeBytes (peekRead s a) (peekRead s (a + 1)) (peekRead s (a + 2))

/-- How many bytes the disassembler steps over (R301; `ILLEGAL_LEN` for an illegal opcode, R612). -/
def instrLength : Instr → Nat
  | .illegal op => (Config.illegalLenPred op).val + 1
  | i => 1 + (operandBytes i).length

/-- The line of an instruction at an address: `$addr: MNE operand` and the mode tag in braces (R331). Where the operand is
empty, one space stands between the mnemonic and the tag: DESIGN CHOICE (log 20). -/
def disasmLine (a : Word) (i : Instr) : String :=
  let o := operandText a i
  let tag := String.ofList [Char.ofNat 123] ++ o.2 ++ String.ofList [Char.ofNat 125]
  "$" ++ hex4 a ++ ": " ++ mnemonicOf i ++ " " ++ (if o.1 = "" then "" else o.1 ++ " ") ++ tag

/-- `count` lines from an address on, as pairs of address and text (R331). The range by start and count, the stepping
order, and that addresses wrap past 0xFFFF and may then repeat are the model's: DESIGN CHOICE (log 20). -/
def disassemble (s : State) : (count : Nat) → (a : Word) → List (Word × String)
  | 0, _ => []
  | n + 1, a =>
    let i := peekInstr s a
    (a, disasmLine a i) :: disassemble s n (a + BitVec.ofNat 16 (instrLength i))

end Sys2Proof.Machine
end

