-- ==== Sys2Proof/Tests/Slice0.lean ====
section
/-!
SUPPORT. Tests. Expected values come from spec/95_test_vectors.md (the vector's name stands in the docstring) or from
the encodings and pseudocode of the rule cited. Each theorem whose name begins `witness_` shows that the hypotheses of
the obligation it names are met together.
-/
namespace Sys2Proof.Tests
open Sys2Proof Sys2Proof.Machine

/-! Well-formedness: for each check a term it refuses (R320, R324). -/

theorem test_wf_refuses_accumulator_forms :
    [Instr.adc (.zpy 0), .sbc (.zpy 0), .and (.zpy 0), .ora (.zpy 0), .eor (.zpy 0), .cmp (.zpy 0), .lda (.zpy 0),
      .bit (.imm 0), .bit (.zpx 0)].all (fun i => !i.wellFormed) = true := by decide

theorem test_wf_refuses_modify_forms :
    [Instr.asl (.mem (.imm 0)), .lsr (.mem (.aby 0)), .rol (.mem (.zpy 0)), .ror (.mem (.izx 0)), .inc (.imm 0),
      .dec (.izy 0)].all (fun i => !i.wellFormed) = true := by decide

theorem test_wf_refuses_index_forms :
    [Instr.cpx (.zpx 0), .cpy (.abx 0), .ldx (.zpx 0), .ldx (.abx 0), .ldy (.zpy 0), .ldy (.aby 0)].all
      (fun i => !i.wellFormed) = true := by decide

theorem test_wf_refuses_store_forms :
    [Instr.sta (.imm 0), .sta (.zpy 0), .stx (.zpx 0), .stx (.aby 0), .sty (.zpy 0), .sty (.abx 0)].all
      (fun i => !i.wellFormed) = true := by decide

theorem test_wf_refuses_documented_byte_as_illegal :
    [Instr.illegal 0xEA, .illegal 0x00, .illegal 0x81].all (fun i => !i.wellFormed) = true := by decide

theorem test_wf_accepts_table_rows :
    [Instr.asl .acc, .asl (.mem (.abx 0x12FF)), .stx (.zpy 1), .ldx (.aby 2), .sta (.izy 3), .bit (.abs 4),
      .illegal 0x02].all (fun i => i.wellFormed) = true := by decide

/-! Decoding: words written out from the encodings of the rules and the formats of R301. -/

/-- R401, R402: `69` IMM, `FD` ABX. -/
theorem test_decode_arithmetic :
    decode [0x69, 0x42] = .ok (.adc (.imm 0x42), []) ∧ decode [0xFD, 0x34, 0x12] = .ok (.sbc (.abx 0x1234), []) := by
  decide

/-- R420-R423. -/
theorem test_decode_logical :
    decode [0x31, 0x80] = .ok (.and (.izy 0x80), []) ∧ decode [0x15, 0x44] = .ok (.ora (.zpx 0x44), [])
      ∧ decode [0x59, 0xFF, 0x20] = .ok (.eor (.aby 0x20FF), []) ∧ decode [0x2C, 0x02, 0x20] = .ok (.bit (.abs 0x2002), [])
      := by decide

/-- R440-R443. -/
theorem test_decode_shifts :
    decode [0x0A] = .ok (.asl .acc, []) ∧ decode [0x5E, 0xFF, 0x12] = .ok (.lsr (.mem (.abx 0x12FF)), [])
      ∧ decode [0x26, 0x20] = .ok (.rol (.mem (.zp0 0x20)), []) ∧ decode [0x6E, 0x00, 0x03] = .ok (.ror (.mem (.abs 0x0300)), [])
      := by decide

/-- R461-R468. -/
theorem test_decode_branches :
    decode [0x90, 0x10] = .ok (.bcc 0x10, []) ∧ decode [0xB0, 0x10] = .ok (.bcs 0x10, [])
      ∧ decode [0xF0, 0xFE] = .ok (.beq 0xFE, []) ∧ decode [0xD0, 0xF7] = .ok (.bne 0xF7, [])
      ∧ decode [0x30, 0x80] = .ok (.bmi 0x80, []) ∧ decode [0x10, 0x7F] = .ok (.bpl 0x7F, [])
      ∧ decode [0x50, 0x02] = .ok (.bvc 0x02, []) ∧ decode [0x70, 0x00] = .ok (.bvs 0x00, []) := by decide

/-- R481-R483. -/
theorem test_decode_compares :
    decode [0xC1, 0x20] = .ok (.cmp (.izx 0x20), []) ∧ decode [0xE0, 0x09] = .ok (.cpx (.imm 0x09), [])
      ∧ decode [0xCC, 0x01, 0x02] = .ok (.cpy (.abs 0x0201), []) := by decide

/-- R500-R505. -/
theorem test_decode_increments :
    decode [0xFE, 0xFF, 0x12] = .ok (.inc (.abx 0x12FF), []) ∧ decode [0xC6, 0x10] = .ok (.dec (.zp0 0x10), [])
      ∧ decode [0xE8] = .ok (.inx, []) ∧ decode [0xC8] = .ok (.iny, []) ∧ decode [0xCA] = .ok (.dex, [])
      ∧ decode [0x88] = .ok (.dey, []) := by decide

/-- R520-R525. -/
theorem test_decode_loads_and_stores :
    decode [0xA1, 0xFE] = .ok (.lda (.izx 0xFE), []) ∧ decode [0xBE, 0xF0, 0x12] = .ok (.ldx (.aby 0x12F0), [])
      ∧ decode [0xB4, 0xF0] = .ok (.ldy (.zpx 0xF0), []) ∧ decode [0x91, 0x40] = .ok (.sta (.izy 0x40), [])
      ∧ decode [0x96, 0xFF] = .ok (.stx (.zpy 0xFF), []) ∧ decode [0x94, 0x01] = .ok (.sty (.zpx 0x01), []) := by decide

/-- R526-R531. -/
theorem test_decode_transfers :
    decode [0xAA] = .ok (.tax, []) ∧ decode [0xA8] = .ok (.tay, []) ∧ decode [0x8A] = .ok (.txa, [])
      ∧ decode [0x98] = .ok (.tya, []) ∧ decode [0xBA] = .ok (.tsx, []) ∧ decode [0x9A] = .ok (.txs, []) := by decide

/-- R561-R564. -/
theorem test_decode_stack :
    decode [0x48] = .ok (.pha, []) ∧ decode [0x68] = .ok (.pla, []) ∧ decode [0x08] = .ok (.php, [])
      ∧ decode [0x28] = .ok (.plp, []) := by decide

/-- R580-R582, R600, R601; the byte after BRK is not its operand (R302). -/
theorem test_decode_jumps :
    decode [0x4C, 0x00, 0xC0] = .ok (.jmp (.abs 0xC000), []) ∧ decode [0x6C, 0xFF, 0x02] = .ok (.jmp (.ind 0x02FF), [])
      ∧ decode [0x20, 0x00, 0x90] = .ok (.jsr 0x9000, []) ∧ decode [0x60] = .ok (.rts, [])
      ∧ decode [0x00, 0xAB] = .ok (.brk, [0xAB]) ∧ decode [0x40] = .ok (.rti, []) := by decide

/-- R602-R612; the bytes after an illegal opcode are not decoded (R612). -/
theorem test_decode_flags_nop_illegal :
    decode [0x18] = .ok (.clc, []) ∧ decode [0x38] = .ok (.sec, []) ∧ decode [0x58] = .ok (.cli, [])
      ∧ decode [0x78] = .ok (.sei, []) ∧ decode [0xD8] = .ok (.cld, []) ∧ decode [0xF8] = .ok (.sed, [])
      ∧ decode [0xB8] = .ok (.clv, []) ∧ decode [0xEA] = .ok (.nop, [])
      ∧ decode [0x02, 0x80] = .ok (.illegal 0x02, [0x80]) := by decide

/-- The only refusals of the decoder: bytes that the list does not hold. -/
theorem test_decode_missing_bytes :
    decode [] = .error .noOpcode ∧ decode [0xA9] = .error (.missingOperand 0xA9)
      ∧ decode [0xAD, 0x34] = .error (.missingOperand 0xAD) := by decide

/-- The table's bit numbering: the second byte is bits 15..8, and bits from `nbits` on are 0. -/
theorem test_decode_table_word :
    decodeTableWord 24 0x1234AD = some (.lda (.abs 0x1234)) ∧ decodeTableWord 8 0x1234AD = some (.lda (.abs 0)) := by
  decide

/-! Helpers: small states. -/

/-- The reset state with these registers and no cycles left. -/
def machine (a x y sp : Byte) (pc : Word) (p : Byte) : State :=
  { State.reset with cpu := { a := a, x := x, y := y, sp := sp, pc := pc, p := p, cycles := 0 } }

/-- A state with A and P given. -/
def acc (a p : Byte) : State := machine a 0 0 0xFD 0x8002 p

/-- A state with X and Y given. -/
def idx (x y : Byte) : State := machine 0 x y 0xFD 0x8003 0x24

/-- A state with PC and P given. -/
def atPc (pc : Word) (p : Byte) : State := machine 0 0 0 0xFD pc p

/-- Bytes written into work RAM. -/
def withRam (s : State) (cells : List (Nat × Byte)) : State :=
  { s with ram := cells.foldl (fun m c => Memory.write m c.1 c.2) s.ram }

/-- A cartridge with two program banks, the program bytes listed, and one bank of CHR ROM. -/
def cartWith (mapper : Mapper) (prg : Memory) : Cartridge :=
  { nPrg := 2, nChr := 1, hwMirror := .vertical, trainer := none, prg := prg, chr := [], mapper := mapper }

/-- A state with such a cartridge on mapper 0. -/
def withProgram (s : State) (prg : Memory) : State := { s with cart := some (cartWith .mapper0 prg) }

/-- The next state that a meaning or a step answers. -/
def after (r : Result) : State :=
  match r with
  | .next t => t
  | .fault _ => State.reset
  | .refused _ => State.reset

/-- The answer is a next state. -/
def isNext (r : Result) : Bool :=
  match r with
  | .next _ => true
  | .fault _ => false
  | .refused _ => false

theorem next_after {r : Result} (h : isNext r = true) : ∃ t, r = .next t := by
  cases r with
  | next t => exact ⟨t, rfl⟩
  | fault f => cases f
  | refused f => cases h

/-! Instructions: the vectors of spec/95, one or two for each. P is written as its byte. -/

/-- V-ADC2, V-ADC5. -/
theorem test_adc :
    ((after (exec (.adc (.imm 0x01)) (acc 0x7F 0x24))).cpu.a = 0x80
        ∧ (after (exec (.adc (.imm 0x01)) (acc 0x7F 0x24))).cpu.p = 0xE4)
      ∧ (after (exec (.adc (.imm 0xFF)) (acc 0xFF 0x25))).cpu.a = 0xFF
        ∧ (after (exec (.adc (.imm 0xFF)) (acc 0xFF 0x25))).cpu.p = 0xA5 := by decide

/-- V-ADC8, with D = 1. -/
theorem test_adc_is_binary :
    (after (exec (.adc (.imm 0x01)) (acc 0x09 0x2C))).cpu.a = 0x0A
      ∧ (after (exec (.adc (.imm 0x01)) (acc 0x09 0x2C))).cpu.p = 0x2C := by decide

/-- V-SBC2, V-SBC1. -/
theorem test_sbc :
    ((after (exec (.sbc (.imm 0x01)) (acc 0x80 0x25))).cpu.a = 0x7F
        ∧ (after (exec (.sbc (.imm 0x01)) (acc 0x80 0x25))).cpu.p = 0x65)
      ∧ (after (exec (.sbc (.imm 0x01)) (acc 0x00 0x25))).cpu.a = 0xFF
        ∧ (after (exec (.sbc (.imm 0x01)) (acc 0x00 0x25))).cpu.p = 0xA4 := by decide

/-- V-L1. -/
theorem test_and :
    (after (exec (.and (.imm 0x0F)) (acc 0xF0 0x24))).cpu.a = 0
      ∧ (after (exec (.and (.imm 0x0F)) (acc 0xF0 0x24))).cpu.p = 0x26 := by decide

/-- V-L4. -/
theorem test_ora :
    (after (exec (.ora (.imm 0x01)) (acc 0x80 0x24))).cpu.a = 0x81
      ∧ (after (exec (.ora (.imm 0x01)) (acc 0x80 0x24))).cpu.p = 0xA4 := by decide

/-- V-L5. -/
theorem test_eor :
    (after (exec (.eor (.imm 0x55)) (acc 0xAA 0x24))).cpu.a = 0xFF
      ∧ (after (exec (.eor (.imm 0x55)) (acc 0xAA 0x24))).cpu.p = 0xA4 := by decide

/-- V-L8, V-L7. -/
theorem test_bit :
    (after (exec (.bit (.zp0 0x10)) (withRam (acc 0x00 0x24) [(0x10, 0xFF)]))).cpu.p = 0xE6
      ∧ (after (exec (.bit (.zp0 0x10)) (withRam (acc 0xFF 0xE4) [(0x10, 0x3F)]))).cpu.p = 0x24 := by decide

/-- V-S1, V-S10. -/
theorem test_asl :
    ((after (exec (.asl .acc) (acc 0x80 0x24))).cpu.a = 0 ∧ (after (exec (.asl .acc) (acc 0x80 0x24))).cpu.p = 0x27)
      ∧ Memory.read (after (exec (.asl (.mem (.zp0 0x10))) (withRam (acc 0x33 0x24) [(0x10, 0xC0)]))).ram 0x10 = 0x80
        ∧ (after (exec (.asl (.mem (.zp0 0x10))) (withRam (acc 0x33 0x24) [(0x10, 0xC0)]))).cpu.p = 0xA5
        ∧ (after (exec (.asl (.mem (.zp0 0x10))) (withRam (acc 0x33 0x24) [(0x10, 0xC0)]))).cpu.a = 0x33 := by decide

/-- V-S3, V-S4. -/
theorem test_lsr :
    ((after (exec (.lsr .acc) (acc 0x01 0x24))).cpu.a = 0 ∧ (after (exec (.lsr .acc) (acc 0x01 0x24))).cpu.p = 0x27)
      ∧ Memory.read (after (exec (.lsr (.mem (.zp0 0x10))) (withRam (acc 0 0x25) [(0x10, 0x80)]))).ram 0x10 = 0x40
        ∧ (after (exec (.lsr (.mem (.zp0 0x10))) (withRam (acc 0 0x25) [(0x10, 0x80)]))).cpu.p = 0x24 := by decide

/-- V-S6, V-S5. -/
theorem test_rol :
    ((after (exec (.rol .acc) (acc 0x55 0x25))).cpu.a = 0xAB ∧ (after (exec (.rol .acc) (acc 0x55 0x25))).cpu.p = 0xA4)
      ∧ Memory.read (after (exec (.rol (.mem (.zp0 0x10))) (withRam (acc 0 0x24) [(0x10, 0x80)]))).ram 0x10 = 0x00
        ∧ (after (exec (.rol (.mem (.zp0 0x10))) (withRam (acc 0 0x24) [(0x10, 0x80)]))).cpu.p = 0x27 := by decide

/-- V-S9, V-S8. -/
theorem test_ror :
    ((after (exec (.ror .acc) (acc 0xAA 0x25))).cpu.a = 0xD5 ∧ (after (exec (.ror .acc) (acc 0xAA 0x25))).cpu.p = 0xA4)
      ∧ Memory.read (after (exec (.ror (.mem (.zp0 0x10))) (withRam (acc 0 0x25) []))).ram 0x10 = 0x80
        ∧ (after (exec (.ror (.mem (.zp0 0x10))) (withRam (acc 0 0x25) []))).cpu.p = 0xA4 := by decide

/-- V-B4: another page. -/
theorem test_bcc :
    (after (exec (.bcc 0x10) (atPc 0x80F2 0x24))).cpu.pc = 0x8102
      ∧ (after (exec (.bcc 0x10) (atPc 0x80F2 0x24))).cpu.cycles = 4 := by decide

/-- V-B8: a 16-bit wrap. -/
theorem test_bcs :
    (after (exec (.bcs 0x10) (atPc 0xFFF2 0x25))).cpu.pc = 0x0002
      ∧ (after (exec (.bcs 0x10) (atPc 0xFFF2 0x25))).cpu.cycles = 4 := by decide

/-- V-B3. -/
theorem test_beq :
    (after (exec (.beq 0xFE) (atPc 0x8002 0x26))).cpu.pc = 0x8000
      ∧ (after (exec (.beq 0xFE) (atPc 0x8002 0x26))).cpu.cycles = 3 := by decide

/-- V-B1, V-B2. -/
theorem test_bne :
    ((after (exec (.bne 0x05) (atPc 0x8002 0x24))).cpu.pc = 0x8007
        ∧ (after (exec (.bne 0x05) (atPc 0x8002 0x24))).cpu.cycles = 3)
      ∧ (after (exec (.bne 0x05) (atPc 0x8002 0x26))).cpu.pc = 0x8002
        ∧ (after (exec (.bne 0x05) (atPc 0x8002 0x26))).cpu.cycles = 2 := by decide

/-- V-B5. -/
theorem test_bmi :
    (after (exec (.bmi 0x80) (atPc 0x8002 0xA4))).cpu.pc = 0x7F82
      ∧ (after (exec (.bmi 0x80) (atPc 0x8002 0xA4))).cpu.cycles = 4 := by decide

/-- V-B6. -/
theorem test_bpl :
    (after (exec (.bpl 0x7F) (atPc 0x8002 0x24))).cpu.pc = 0x8081
      ∧ (after (exec (.bpl 0x7F) (atPc 0x8002 0x24))).cpu.cycles = 3 := by decide

/-- V-B9. -/
theorem test_bvc :
    (after (exec (.bvc 0x02) (atPc 0x8002 0x64))).cpu.pc = 0x8002
      ∧ (after (exec (.bvc 0x02) (atPc 0x8002 0x64))).cpu.cycles = 2 := by decide

/-- V-B7: the page of the next instruction counts. -/
theorem test_bvs :
    (after (exec (.bvs 0x00) (atPc 0x8100 0x64))).cpu.pc = 0x8100
      ∧ (after (exec (.bvs 0x00) (atPc 0x8100 0x64))).cpu.cycles = 3 := by decide

/-- V-C2, V-C5. -/
theorem test_cmp :
    (after (exec (.cmp (.imm 0x20)) (acc 0x10 0x24))).cpu.p = 0xA4
      ∧ (after (exec (.cmp (.imm 0x00)) (acc 0xFF 0x24))).cpu.p = 0xA5 := by decide

/-- V-C6. -/
theorem test_cpx : (after (exec (.cpx (.imm 0x7F)) (idx 0x80 0))).cpu.p = 0x25 := by decide

/-- V-C7. -/
theorem test_cpy : (after (exec (.cpy (.imm 0x00)) (idx 1 0))).cpu.p = 0x27 := by decide

/-- V-I1, V-I8. -/
theorem test_inc :
    Memory.read (after (exec (.inc (.zp0 0x10)) (withRam (acc 0 0x24) [(0x10, 0xFF)]))).ram 0x10 = 0
      ∧ (after (exec (.inc (.zp0 0x10)) (withRam (acc 0 0x24) [(0x10, 0xFF)]))).cpu.p = 0x26
      ∧ (after (exec (.inc (.abx 0x12FF)) (idx 1 0))).cpu.cycles = 7 := by decide

/-- V-I3. -/
theorem test_dec :
    Memory.read (after (exec (.dec (.zp0 0x10)) (acc 0 0x24))).ram 0x10 = 0xFF
      ∧ (after (exec (.dec (.zp0 0x10)) (acc 0 0x24))).cpu.p = 0xA4 := by decide

/-- V-I4 and V-I5. -/
theorem test_inx_iny :
    (after (exec .inx (idx 0xFF 0))).cpu.x = 0 ∧ (after (exec .inx (idx 0xFF 0))).cpu.p = 0x26
      ∧ (after (exec .iny (idx 0 0x7F))).cpu.y = 0x80 ∧ (after (exec .iny (idx 0 0x7F))).cpu.p = 0xA4 := by decide

/-- V-I6 and V-I7. -/
theorem test_dex_dey :
    (after (exec .dex (idx 0 1))).cpu.x = 0xFF ∧ (after (exec .dex (idx 0 1))).cpu.p = 0xA4
      ∧ (after (exec .dey (idx 5 1))).cpu.y = 0 ∧ (after (exec .dey (idx 5 1))).cpu.p = 0x26 := by decide

/-- V-LS1. -/
theorem test_lda :
    (after (exec (.lda (.imm 0x80)) (acc 0 0x24))).cpu.a = 0x80
      ∧ (after (exec (.lda (.imm 0x80)) (acc 0 0x24))).cpu.p = 0xA4 := by decide

/-- V-A8 and V-A10: pointers that wrap in page zero. -/
theorem test_lda_pointers :
    (after (exec (.lda (.izx 0xFE)) (withRam (idx 1 0) [(0xFF, 0x00), (0x00, 0x03), (0x300, 0x5A)]))).cpu.a = 0x5A
      ∧ (after (exec (.lda (.izy 0xFF)) (withRam (idx 0 0x10) [(0x00, 0x02), (0x210, 0xA5)]))).cpu.a = 0xA5 := by decide

/-- V-LS3: abs,Y through a RAM mirror and over a page. -/
theorem test_ldx :
    (after (exec (.ldx (.aby 0x12F0)) (withRam (idx 0 0x20) [(0x310, 0x77)]))).cpu.x = 0x77
      ∧ (after (exec (.ldx (.aby 0x12F0)) (withRam (idx 0 0x20) [(0x310, 0x77)]))).cpu.cycles = 5 := by decide

/-- V-A2 with LDY: zp,X wraps in page zero. -/
theorem test_ldy :
    (after (exec (.ldy (.zpx 0xF0)) (withRam (idx 0x20 9) [(0x10, 0x81)]))).cpu.y = 0x81
      ∧ (after (exec (.ldy (.zpx 0xF0)) (withRam (idx 0x20 9) [(0x10, 0x81)]))).cpu.p = 0xA4 := by decide

/-- V-LS4. -/
theorem test_sta :
    (after (exec (.sta (.abs 0x2000)) (acc 0x80 0x24))).ppu.ctrl = 0x80
      ∧ (after (exec (.sta (.abs 0x2000)) (acc 0x80 0x24))).ppu.tramAddr = 0 := by decide

/-- V-A3 with STX. -/
theorem test_stx : Memory.read (after (exec (.stx (.zpy 0xFF)) (idx 0x44 0x01))).ram 0 = 0x44 := by decide

/-- V-A2 with STY. -/
theorem test_sty : Memory.read (after (exec (.sty (.zpx 0xF0)) (idx 0x20 0x55))).ram 0x10 = 0x55 := by decide

/-- V-LS9 and R527. -/
theorem test_tax_tay :
    (after (exec .tax (machine 0 7 7 0xFD 0x8001 0x24))).cpu.x = 0
      ∧ (after (exec .tax (machine 0 7 7 0xFD 0x8001 0x24))).cpu.p = 0x26
      ∧ (after (exec .tay (machine 0x80 7 7 0xFD 0x8001 0x24))).cpu.y = 0x80
      ∧ (after (exec .tay (machine 0x80 7 7 0xFD 0x8001 0x24))).cpu.p = 0xA4 := by decide

/-- R528, R529. -/
theorem test_txa_tya :
    (after (exec .txa (idx 0x90 0))).cpu.a = 0x90 ∧ (after (exec .txa (idx 0x90 0))).cpu.p = 0xA4
      ∧ (after (exec .tya (idx 0x90 0))).cpu.a = 0 ∧ (after (exec .tya (idx 0x90 0))).cpu.p = 0x26 := by decide

/-- V-LS8. -/
theorem test_txs_tsx :
    (after (exec .txs (idx 0 1))).cpu.sp = 0 ∧ (after (exec .txs (idx 0 1))).cpu.p = 0x24
      ∧ (after (exec .tsx (machine 1 1 1 0 0x8001 0x24))).cpu.x = 0
      ∧ (after (exec .tsx (machine 1 1 1 0 0x8001 0x24))).cpu.p = 0x26 := by decide

/-- V-ST1. -/
theorem test_pha :
    Memory.read (after (exec .pha (machine 0x12 0 0 0 0x8001 0x24))).ram 0x100 = 0x12
      ∧ (after (exec .pha (machine 0x12 0 0 0 0x8001 0x24))).cpu.sp = 0xFF := by decide

/-- V-ST2. -/
theorem test_pla :
    (after (exec .pla (machine 9 0 0 0xFF 0x8001 0x24))).cpu.a = 0
      ∧ (after (exec .pla (machine 9 0 0 0xFF 0x8001 0x24))).cpu.p = 0x26
      ∧ (after (exec .pla (machine 9 0 0 0xFF 0x8001 0x24))).cpu.sp = 0 := by decide

/-- V-ST3. -/
theorem test_php :
    Memory.read (after (exec .php (atPc 0x8001 0x24))).ram 0x1FD = 0x34
      ∧ Memory.read (after (exec .php (atPc 0x8001 0xE7))).ram 0x1FD = 0xF7 := by decide

/-- V-ST4. -/
theorem test_plp :
    (after (exec .plp (withRam (atPc 0x8001 0x24) [(0x1FE, 0x10)]))).cpu.p = 0x20
      ∧ (after (exec .plp (withRam (atPc 0x8001 0x24) [(0x1FE, 0xCF)]))).cpu.p = 0xEF := by decide

/-- V-J2, and V-A15 with the page-wrap bug (W3). -/
theorem test_jmp :
    (after (exec (.jmp (.abs 0xC000)) (atPc 0x8003 0x24))).cpu.pc = 0xC000
      ∧ (after (exec (.jmp (.ind 0x02FF))
          (withRam (atPc 0x8003 0x24) [(0x2FF, 0x34), (0x200, 0x12), (0x300, 0x56)]))).cpu.pc = 0x1234 := by decide

/-- V-J1: the JSR stands at 0x80FE. -/
theorem test_jsr :
    (after (exec (.jsr 0x9000) (atPc 0x8101 0x24))).cpu.pc = 0x9000
      ∧ (after (exec (.jsr 0x9000) (atPc 0x8101 0x24))).cpu.sp = 0xFB
      ∧ Memory.read (after (exec (.jsr 0x9000) (atPc 0x8101 0x24))).ram 0x1FD = 0x81
      ∧ Memory.read (after (exec (.jsr 0x9000) (atPc 0x8101 0x24))).ram 0x1FC = 0x00 := by decide

/-- V-J1, the return. -/
theorem test_rts : (after (exec .rts (after (exec (.jsr 0x9000) (atPc 0x8101 0x24))))).cpu.pc = 0x8101 := by decide

/-- The state of V-J3: BRK at 0x8000, the vector 0x9000. -/
def brkState : State := withProgram (atPc 0x8001 0x24) [(0x7FFF, 0x90)]

/-- V-J3. -/
theorem test_brk :
    Memory.read (after (exec .brk brkState)).ram 0x1FD = 0x80 ∧ Memory.read (after (exec .brk brkState)).ram 0x1FC = 0x02
      ∧ Memory.read (after (exec .brk brkState)).ram 0x1FB = 0x34 ∧ (after (exec .brk brkState)).cpu.p = 0x24
      ∧ (after (exec .brk brkState)).cpu.pc = 0x9000 := by decide

/-- The state of V-J4. -/
def rtiState : State := withRam (machine 0 0 0 0xFA 0x9001 0x24) [(0x1FB, 0xFF), (0x1FC, 0x34), (0x1FD, 0x12)]

/-- V-J4. -/
theorem test_rti :
    (after (exec .rti rtiState)).cpu.p = 0xEF ∧ (after (exec .rti rtiState)).cpu.pc = 0x1234
      ∧ (after (exec .rti rtiState)).cpu.sp = 0xFD := by decide

/-- V-J6 and the rules R602-R608. -/
theorem test_flag_instructions :
    (after (exec .clc (acc 0 0x25))).cpu.p = 0x24 ∧ (after (exec .sec (acc 0 0x24))).cpu.p = 0x25
      ∧ (after (exec .cli (acc 0 0x24))).cpu.p = 0x20 ∧ (after (exec .sei (acc 0 0x20))).cpu.p = 0x24
      ∧ (after (exec .cld (acc 0 0x2C))).cpu.p = 0x24 ∧ (after (exec .sed (acc 0 0x24))).cpu.p = 0x2C
      ∧ (after (exec .clv (acc 0 0x64))).cpu.p = 0x24 := by decide

/-- V-J7. -/
theorem test_nop : after (exec .nop (acc 1 0x24)) = (acc 1 0x24).setCycles 2 := by decide

/-- V-J8, but for the open length and count. -/
theorem test_illegal :
    (after (exec (.illegal 0x02) (acc 1 0x24))).cpu.p = 0x24 ∧ (after (exec (.illegal 0x02) (acc 1 0x24))).cpu.a = 1
      ∧ (after (exec (.illegal 0x02) (acc 1 0x24))).ram = [] := by decide

/-- W8. -/
theorem test_cycles :
    (after (exec (.lda (.abx 0x12FF)) (idx 1 0))).cpu.cycles = 5
      ∧ (after (exec (.sta (.abx 0x12FF)) (idx 1 0))).cpu.cycles = 5
      ∧ (after (exec (.asl (.mem (.abx 0x12FF))) (idx 1 0))).cpu.cycles = 7
      ∧ (after (exec (.lda (.izy 0x40)) (withRam (idx 0 1) [(0x40, 0xFF), (0x41, 0x10)]))).cpu.cycles = 6
      ∧ (after (exec (.lda (.abx 0x1200)) (idx 1 0))).cpu.cycles = 4 := by decide

/-! Interrupts. -/

/-- The state before V-E1: the IRQ vector is 0xA000. -/
def irqState : State := withProgram (atPc 0x8123 0x21) [(0x7FFF, 0xA0)]

/-- V-E1, V-E5. -/
theorem test_irq_entry :
    Memory.read (irqEntry irqState).ram 0x1FD = 0x81 ∧ Memory.read (irqEntry irqState).ram 0x1FC = 0x23
      ∧ Memory.read (irqEntry irqState).ram 0x1FB = 0x21 ∧ (irqEntry irqState).cpu.sp = 0xFA
      ∧ (irqEntry irqState).cpu.p = 0x25 ∧ (irqEntry irqState).cpu.pc = 0xA000 ∧ (irqEntry irqState).cpu.cycles = 7
      ∧ (after (exec .rti (irqEntry irqState))).cpu.p = 0x21
      ∧ (after (exec .rti (irqEntry irqState))).cpu.pc = 0x8123 := by decide

/-- The state before V-E3: the NMI vector is 0xB000. -/
def nmiState : State := withProgram (atPc 0x8123 0x34) [(0x7FFB, 0xB0)]

/-- V-E3. -/
theorem test_nmi_entry :
    Memory.read (nmiEntry nmiState).ram 0x1FB = 0x24 ∧ (nmiEntry nmiState).cpu.p = 0x34
      ∧ (nmiEntry nmiState).cpu.sp = 0xFA ∧ (nmiEntry nmiState).cpu.pc = 0xB000
      ∧ (nmiEntry nmiState).cpu.cycles = 8 := by decide

/-- Mapper 4 as after reset with the IRQ line up. -/
def raised : Mapper4 := { resetMapper4 .vertical [] with irqActive := true }

/-- A state with mapper 4, its IRQ line up, the NMI line as given, the NMI vector 0xB000 and the IRQ vector 0xA000. -/
def pollState (p : Byte) (nmi : Bool) : State :=
  { atPc 0x8123 p with
    cart := some (cartWith (.mapper4 raised) [(0x7FFB, 0xB0), (0x7FFF, 0xA0)])
    ppu := { Ppu.reset with nmi := nmi } }

/-- V-E4 and V-E2: the IRQ that meets an NMI, or I = 1, is lost, and both lines are down. -/
theorem test_polling :
    (pollInterrupts (pollState 0x20 true)).cpu.pc = 0xB000 ∧ (pollInterrupts (pollState 0x20 true)).cpu.sp = 0xFA
      ∧ (pollInterrupts (pollState 0x20 true)).ppu.nmi = false
      ∧ (pollInterrupts (pollState 0x20 true)).cart.map cartIrqState = some false
      ∧ (pollInterrupts (pollState 0x24 false)).cpu.pc = 0x8123
      ∧ (pollInterrupts (pollState 0x24 false)).cart.map cartIrqState = some false
      ∧ (pollInterrupts (pollState 0x20 false)).cpu.pc = 0xA000 := by decide

/-! Devices. -/

/-- V-D1, but for the bits that V-D1 reads and the sprite unit leaves open. -/
theorem test_ppustatus :
    (readPpuStatus (State.reset.setPpu { Ppu.reset with status := 0xE0, w := true })).2.ppu.status = 0x60
      ∧ (readPpuStatus (State.reset.setPpu { Ppu.reset with status := 0xE0, w := true })).2.ppu.w = false := by decide

/-- V-D2. -/
theorem test_ppuscroll :
    let t := (cpuWrite (cpuWrite State.reset 0x2005 0x7D) 0x2005 0x5E).ppu
    t.fineX = 5 ∧ coarseX t.tramAddr = 15 ∧ fineY t.tramAddr = 6 ∧ coarseY t.tramAddr = 11 ∧ t.w = false := by decide

/-- V-D3. -/
theorem test_ppudata_read :
    let s := State.reset.setPpu { Ppu.reset with nt := [(0x108, 0x99)], dataBuffer := 0x11 }
    let s := (cpuWrite (cpuWrite (withProgram s []) 0x2006 0x21) 0x2006 0x08)
    s.ppu.vramAddr = 0x2108 ∧ (cpuRead s 0x2007).1 = 0x11 ∧ (cpuRead s 0x2007).2.ppu.dataBuffer = 0x99
      ∧ (cpuRead s 0x2007).2.ppu.vramAddr = 0x2109
      ∧ (cpuRead (cpuWrite s 0x2000 0x04) 0x2007).2.ppu.vramAddr = 0x2128 := by decide

/-- V-D4. -/
theorem test_ppudata_write :
    let s := cpuWrite (cpuWrite State.reset 0x2006 0xFF) 0x2006 0xFF
    s.ppu.vramAddr = 0x3FFF ∧ Memory.read (cpuWrite s 0x2007 0x2A).ppu.pal 0x1F = 0x2A
      ∧ (cpuWrite s 0x2007 0x2A).ppu.vramAddr = 0x4000 := by decide

/-- W4. -/
theorem test_palette_mirroring :
    let s := cpuWrite (cpuWrite (cpuWrite State.reset 0x2006 0x3F) 0x2006 0x10) 0x2007 0x2A
    let s := cpuWrite (cpuWrite s 0x2006 0x3F) 0x2006 0x00
    (cpuRead s 0x2007).1 = 0x2A ∧ (cpuRead s 0x2007).2.ppu.dataBuffer = 0x2A := by decide

/-- V-D5 and V-D6. -/
theorem test_oamdata_ppuctrl :
    Memory.read (cpuWrite (cpuWrite State.reset 0x2003 0xFF) 0x2004 0x77).ppu.oam 0xFF = 0x77
      ∧ (cpuWrite (cpuWrite State.reset 0x2003 0xFF) 0x2004 0x77).ppu.oamAddr = 0
      ∧ nametableX (cpuWrite State.reset 0x2000 0x03).ppu.tramAddr = 1
      ∧ nametableY (cpuWrite State.reset 0x2000 0x03).ppu.tramAddr = 1 := by decide

/-- A state whose port 0 has the live byte 0x81. -/
def padState : State := setPadLive State.reset false 0x81

/-- V-D7, V-D8, V-D9. -/
theorem test_controller :
    readTimes 9 (cpuWrite (cpuWrite padState 0x4016 1) 0x4016 0) 0x4016 = [1, 0, 0, 0, 0, 0, 0, 1, 0]
      ∧ readTimes 3 (cpuWrite padState 0x4016 1) 0x4016 = [1, 1, 1]
      ∧ (cpuWrite padState 0x4017 1).pad0 = padState.pad0 := by decide

/-- V-D10 and V-D11: a wait ends on an odd tick only; then a read and a write. -/
theorem test_dma_steps :
    let s := (cpuWrite (withRam State.reset [(0x200, 0x42)]) 0x4014 0x02)
    (dmaStep (s.setMaster 66)).dma.wait = true ∧ (dmaStep (s.setMaster 63)).dma.wait = false
      ∧ Memory.read (dmaTicks 3 (s.setMaster 63)).ppu.oam 0 = 0x42
      ∧ (dmaTicks 3 (s.setMaster 63)).dma.addr = 1 := by decide

/-- A PPU at a raster position with the mask and the VRAM address given. -/
def raster (scanline : Int) (cycle : Nat) (mask : Byte) (v : BitVec 15) : State :=
  State.reset.setPpu { Ppu.reset with scanline := scanline, cycle := cycle, mask := mask, vramAddr := v }

/-- W5: vblank, its end, and the wrap of the frame. -/
theorem test_vblank :
    (ppuClock (raster 241 1 0 0)).ppu.status = 0x80 ∧ (ppuClock (raster 241 1 0 0)).ppu.nmi = false
      ∧ (ppuClock ((raster 241 1 0 0).setPpu { (raster 241 1 0 0).ppu with ctrl := 0x80 })).ppu.nmi = true
      ∧ (ppuClock ((raster (-1) 1 0 0).setPpu { (raster (-1) 1 0 0).ppu with status := 0xE0 })).ppu.status = 0
      ∧ (ppuClock (raster 260 340 0 0)).ppu.scanline = -1 ∧ (ppuClock (raster 260 340 0 0)).ppu.frameComplete = true
      ∧ (ppuClock (raster 260 339 0 0)).ppu.frameComplete = false := by decide

/-- V-D13, V-D17: the coarse-X increment at cycle 8, with rendering on and off. -/
theorem test_coarse_x_increment :
    (ppuClock (raster 0 8 0x08 0x001F)).ppu.vramAddr = 0x0400 ∧ (ppuClock (raster 0 8 0 0x001F)).ppu.vramAddr = 0x001F := by
  decide

/-- V-D14: the Y increment (fine 7, coarse 29 and 31). -/
theorem test_y_increment : nextY 0x73A0 = 0x0800 ∧ nextY 0x73E0 = 0x0000 := by decide

/-- V-D15. -/
theorem test_attribute_fetch : attributeAddress 0x0042 = 0x23C0 ∧ attributeQuadrant 0x0042 0xE4 = 3 := by decide

/-- V-D16. -/
theorem test_background_pixel :
    let s := State.reset.setPpu { Ppu.reset with mask := 0x08, bgPatHi := 0x8000, pal := [(2, 0x6A)] }
    backgroundPixel s.ppu = (2, 0) ∧ colourIndex s 2 0 = 0x2A := by decide

/-! Mappers and cartridges. -/

/-- Mapper 1 with eight program banks after V-M1's writes. -/
def serialLoaded : State :=
  let c : Cartridge := { cartWith (.mapper1 { resetMapper1 [] with load := 3, loadCount := 2, control := 0 }) [] with nPrg := 8 }
  let s := cpuWrite { State.reset with cart := some c } 0x8000 0x80
  let s := cpuWrite (cpuWrite (cpuWrite s 0xE000 1) 0xE000 0) 0xE000 1
  cpuWrite (cpuWrite s 0xE000 0) 0xE000 0

/-- V-M1. -/
theorem test_mapper1 :
    serialLoaded.cart.map (fun c => (cpuMapRead c 0x8000, cpuMapRead c 0xC000)) = some (.prg 0x14000, .prg 0x1C000) := by
  decide

/-- V-M2 and V-M3. -/
theorem test_mapper2_mapper3 :
    (cartCpuWrite { cartWith (.mapper2 0) [] with nPrg := 8 } 0x8000 0x03).map
        (fun c => (cpuMapRead c 0x8000, cpuMapRead c 0xFFFF)) = some (.prg 0xC000, .prg 0x1FFFF)
      ∧ (cartCpuWrite { cartWith (.mapper3 0) [] with nChr := 4 } 0x8000 0x02).map (fun c => ppuMapRead c 0x0000) =
        some (.chr 0x4000) := by decide

/-- The cartridge of V-M4 with a value of `bank_select`. -/
def mapper4Cart (bankSelect : Byte) : Cartridge :=
  { cartWith (.mapper4 { resetMapper4 .vertical [] with bankSelect := bankSelect, regs := #v[0, 0, 0, 0, 0, 0, 5, 1] }) [] with
    nPrg := 16 }

/-- V-M4. -/
theorem test_mapper4_windows :
    cpuMapRead (mapper4Cart 0x06) 0x8000 = .prg (5 * 8192) ∧ cpuMapRead (mapper4Cart 0x06) 0xC000 = .prg (30 * 8192)
      ∧ cpuMapRead (mapper4Cart 0x06) 0xE000 = .prg (31 * 8192) ∧ cpuMapRead (mapper4Cart 0x46) 0x8000 = .prg (30 * 8192)
      ∧ cpuMapRead (mapper4Cart 0x46) 0xC000 = .prg (5 * 8192) := by decide

/-- Mapper 4 after V-M4a's arming writes. -/
def armed : Mapper4 := mapper4Write (mapper4Write (mapper4Write (resetMapper4 .vertical []) 0xC000 0x03) 0xC001 0) 0xE001 0

/-- V-M4a, V-M4c. -/
theorem test_mapper4_irq :
    [1, 2, 3, 4, 5].map (fun n => ((mapper4Scanlines n armed).irqCounter, (mapper4Scanlines n armed).irqActive)) =
        [(3, false), (2, false), (1, false), (0, true), (3, true)]
      ∧ (mapper4Scanlines 1 (mapper4Write armed 0xC000 0)).irqActive = true
      ∧ (mapper4Write (mapper4Scanlines 4 armed) 0xE000 0).irqActive = false := by decide

/-- V-M5. -/
theorem test_nametables :
    nametableIndex .vertical 0x2400 = 1024 ∧ nametableIndex .vertical 0x2800 = 0 ∧ nametableIndex .horizontal 0x2400 = 0
      ∧ nametableIndex .horizontal 0x2800 = 1024 ∧ nametableIndex .vertical 0x3000 = nametableIndex .vertical 0x2000 := by
  decide

/-- V-M6. -/
theorem test_chr_writes :
    ppuRead (ppuWrite { State.reset with cart := some { cartWith .mapper0 [] with nChr := 0 } } 0x0010 0x5A) 0x0010 = 0x5A
      ∧ ppuRead (ppuWrite (withProgram State.reset []) 0x0010 0x5A) 0x0010 = 0 := by decide

/-- W6, V-LS5 and V-LS7. -/
theorem test_mapper0 :
    cpuMapRead { cartWith .mapper0 [] with nPrg := 1 } 0xC000 = cpuMapRead { cartWith .mapper0 [] with nPrg := 1 } 0x8000
      ∧ cpuMapRead { cartWith .mapper0 [] with nPrg := 1 } 0xFFFC = .prg 0x3FFC
      ∧ cpuMapRead (cartWith .mapper0 []) 0xFFFC = .prg 0x7FFC ∧ cartCpuRead (cartWith .mapper0 []) 0x6000 = none
      ∧ cartCpuRead (cartWith (.mapper1 (resetMapper1 [(0, 0x33)])) []) 0x6000 = some 0x33 := by decide

/-- V-R1, V-R2. -/
theorem test_headers :
    parseHeader [0x4E, 0x45, 0x53, 0x1A, 2, 1, 0x01, 0] = ⟨2, 1, .vertical, false, 0⟩
      ∧ declaredLength (parseHeader [0x4E, 0x45, 0x53, 0x1A, 2, 1, 0x01, 0]) = 40976
      ∧ parseHeader [0x4E, 0x45, 0x53, 0x1A, 2, 1, 0x41, 0] = ⟨2, 1, .vertical, false, 4⟩
      ∧ parseHeader [0x4E, 0x45, 0x53, 0x1A, 2, 1, 0x14, 0] = ⟨2, 1, .horizontal, true, 1⟩
      ∧ (parseHeader [0x4E, 0x45, 0x53, 0x1A, 2, 1, 0, 0x10]).mapperId = 16 ∧ newMapper 16 .vertical [] = none := by decide

/-- W1. -/
theorem test_reset :
    (busReset 1 2 3 (withProgram State.reset [(0x7FFD, 0x80)])).cpu =
      { a := 1, x := 2, y := 3, sp := 0xFD, pc := 0x8000, p := 0x34, cycles := 8 } := by decide

/-- V-R5, V-R6. -/
theorem test_reset_without_cartridge :
    (busReset 0 0 0 (cpuWrite State.reset 0x4014 2)).cpu.pc = 0
      ∧ (busReset 0 0 0 (cpuWrite State.reset 0x4014 2)).dma.transfer = false
      ∧ (busReset 0 0 0 (cpuWrite State.reset 0x4014 2)).dma.wait = true := by decide

/-- R800, R802, R810: the static RAM of an inserted mapper-1 cartridge and the memories at power-on hold what
`POWERON_MEM` gives, and reset zeroes the PPU's registers whatever they held. -/
theorem test_power_on_memory :
    let t := busReset 1 2 3 (powerOn ⟨[0x11], [0x22], [], [], [0x33]⟩ Cpu.reset { Ppu.reset with oamAddr := 9 })
    (newMapper 1 .vertical (storeOfSize 8192 [0, 0x77])).map (fun m => Memory.read (cartSram (cartWith m [])) 1) = some 0x77
      ∧ Memory.read t.ram 0 = 0x11 ∧ Memory.read t.ppu.oam 0 = 0x22 ∧ t.ppu.oamAddr = 0 := by decide

/-- R57, R780: U is 1 in the dump and as stored between power-on and reset, whatever P the registers had. -/
theorem test_dump_before_reset :
    let s := powerOn ⟨[], [], [], [], []⟩ { Cpu.reset with p := 0x11 } Ppu.reset
    (registerDump s).flagU = true ∧ s.flag .u = true ∧ (registerDump s).flagB = true ∧ (registerDump s).flagI = false := by
  decide

/-- R183 with `inv` = 1: slot 5 shows R[0] | 1, slot 1 shows R[3]. -/
theorem test_mapper4_chr :
    let c : Cartridge := { cartWith (.mapper4 { resetMapper4 .vertical [] with
      bankSelect := 0x80, regs := #v[4, 0, 0, 6, 0, 0, 0, 1] }) [] with nChr := 2 }
    ppuMapRead c 0x1401 = .chr (5 * 1024 + 1) ∧ ppuMapRead c 0x0402 = .chr (6 * 1024 + 2) := by decide

/-! Steps. -/

/-- R821: an execute tick fetches, runs and counts down by one; PC stands after the operand. -/
theorem test_step_runs_the_instruction :
    (after (step (withProgram (atPc 0x8000 0x24) [(0, 0xA9), (1, 0x80)]))).cpu =
      { a := 0x80, x := 0, y := 0, sp := 0xFD, pc := 0x8002, p := 0xA4, cycles := 1 } := by decide

/-- A placed instruction runs in the very next step. -/
theorem test_placed_instruction_runs :
    (after (step (State.reset.withFetchWord 24 0x0034A2))).cpu.x = 0x34
      ∧ (after (step (State.reset.withFetchWord 16 0x80A9))).cpu.p = 0xB4 := by decide

/-- R331: one line of the disassembly. -/
theorem test_disassembly_line :
    disasmLine 0x8000 (.lda (.abx 0x12FF)) =
      "$8000: LDA $12FF,X " ++ String.ofList [Char.ofNat 123] ++ "ABX" ++ String.ofList [Char.ofNat 125] := by decide

/-! Witnesses: for each obligation with hypotheses, states and operands that meet them together, at the ends of the ranges
where it has several clauses. Obligations not named here have no hypotheses. -/

theorem witness_DecodeOfEncodeIsTheInstruction : (Instr.adc (.abx 0xFFFF)).WellFormed ∧ (Instr.illegal 0xFF).WellFormed := by
  decide

/-- One mode of each column, at the two ends. -/
theorem witness_EveryOpcodeDecodesAndHasItsCycles :
    (Instr.adc (.imm 0)).WellFormed ∧ (Instr.lda (.izy 0)).WellFormed ∧ (Instr.bit (.abs 0)).WellFormed
      ∧ (Instr.sta (.zp0 0)).WellFormed ∧ (Instr.sta (.izy 0)).WellFormed ∧ (Instr.sty (.zpx 0)).WellFormed
      ∧ (Instr.asl (.mem (.zp0 0))).WellFormed ∧ (Instr.dec (.abx 0)).WellFormed := by decide

theorem witness_StepIsExecOfTheFetchedInstruction :
    (acc 0 0x24).master % 3 = 0 ∧ (acc 0 0x24).dma.transfer = false ∧ (acc 0 0x24).cpu.cycles = 0 := by decide

theorem witness_FetchReadsTheBytesAtPc (pc : Word) (h : pc = 0x1FFD ∨ pc = 0x4000 ∨ pc = 0x4018 ∨ pc = 0xFFFE) :
    (∀ k : Nat, k < 3 → PlainAddress (pc + BitVec.ofNat 16 k))
      ∧ ∃ i rest, decode [(cpuRead (atPc pc 0x24) pc).1, (cpuRead (atPc pc 0x24) (pc + 1)).1,
        (cpuRead (atPc pc 0x24) (pc + 2)).1] = .ok (i, rest) := by
  unfold PlainAddress InPpuWindow
  rcases h with rfl | rfl | rfl | rfl <;> exact ⟨by decide, .brk, _, rfl⟩

theorem witness_TicksThatDoNotFetch :
    ((acc 0 0x24).setMaster 1).master % 3 ≠ 0 ∧ ((acc 0 0x24).setMaster 2).master % 3 ≠ 0
      ∧ (State.reset.master % 3 = 0 ∧ State.reset.dma.transfer = false ∧ State.reset.cpu.cycles ≠ 0)
      ∧ (cpuWrite State.reset 0x4014 2).master % 3 = 0 ∧ (cpuWrite State.reset 0x4014 2).dma.transfer = true := by decide

theorem witness_TicksThatDoNotFetch_next : ∃ t, step State.reset = .next t := next_after (by decide)

theorem witness_StepKeepsTheMachineInvariant :
    State.reset.Inv ∧ (withProgram State.reset []).Inv ∧ (pollState 0x24 true).Inv
      ∧ ∃ t, step (withProgram State.reset []) = .next t := ⟨by decide, by decide, by decide, next_after (r := step (withProgram State.reset [])) (by decide)⟩

theorem witness_StepKeepsCartridgeRomAndHostBytes :
    (∃ t, step State.reset = .next t) ∧ State.reset.cart = none ∧ (∃ t, step (withProgram State.reset []) = .next t)
      ∧ (withProgram State.reset []).cart = some (cartWith .mapper0 []) ∧ (cartWith .mapper0 []).nChr ≠ 0 :=
  ⟨next_after (by decide), rfl, next_after (by decide), rfl, by decide⟩

theorem witness_ResetSequenceLeavesTheseValues : State.reset.cart = none := rfl

theorem witness_MapperValuesAfterReset :
    (cartWith .mapper0 []).mapper = .mapper0 ∧ (cartWith (.mapper1 (resetMapper1 [])) []).mapper = .mapper1 (resetMapper1 [])
      ∧ (cartWith (.mapper2 7) []).mapper = .mapper2 7 ∧ (cartWith (.mapper3 2) []).mapper = .mapper3 2
      ∧ (cartWith (.mapper4 raised) []).mapper = .mapper4 raised := by decide

theorem witness_IrqAndNmiEntry : (acc 0 0x24).flag .i = true ∧ (acc 0 0x20).flag .i = false := by decide

theorem witness_PollingTakesNmiBeforeIrq :
    State.reset.cart = none ∧ (∃ c, (withProgram State.reset []).cart = some c ∧ cartIrqState c = false)
      ∧ (∃ c, (pollState 0x24 true).cart = some c ∧ cartIrqState c = true) ∧ (pollState 0x24 true).ppu.nmi = true
      ∧ (∃ c, (pollState 0x20 false).cart = some c ∧ cartIrqState c = true) ∧ (pollState 0x20 false).ppu.nmi = false :=
  ⟨rfl, ⟨_, rfl, rfl⟩, ⟨_, rfl, rfl⟩, rfl, ⟨_, rfl, rfl⟩, rfl⟩

theorem witness_RtiUndoesInterruptEntry : irqState.flag .i = false := by decide

theorem witness_RtsReturnsAfterTheCall : ∃ t, exec (.jsr 0x9000) (atPc 0x8101 0x24) = .next t := ⟨_, rfl⟩

theorem witness_SbcUndoesAdc :
    ∃ t v, exec (.adc (.imm 0x50)) (acc 0x50 0x24) = .next t ∧ (acc 0xA0 0x25).cpu.a = t.cpu.a
      ∧ (operand (.imm 0x50) (acc 0xA0 0x25)).value = (operand (.imm 0x50) (acc 0x50 0x24)).value
      ∧ (acc 0xA0 0x25).flag .c = (!(acc 0x50 0x24).flag .c) ∧ exec (.sbc (.imm 0x50)) (acc 0xA0 0x25) = .next v :=
  ⟨_, _, rfl, by decide, rfl, by decide, rfl⟩

theorem witness_CarryAndOverflowMeanWhatTheySay :
    (∃ t, exec (.adc (.zp0 0)) (acc 0x7F 0x25) = .next t) ∧ ∃ t, exec (.sbc (.zp0 0)) (acc 0x80 0x24) = .next t :=
  ⟨⟨_, rfl⟩, ⟨_, rfl⟩⟩

theorem witness_BusReadsChangeOnlyDeviceLatches :
    PlainAddress 0x1FFF ∧ PlainAddress 0x4000 ∧ PlainAddress 0x4015 ∧ PlainAddress 0x4018 ∧ PlainAddress 0xFFFF
      ∧ ¬ InPpuWindow 0x1FFF ∧ ¬ InPpuWindow 0x4000 ∧ (0x4017 : Word) ≠ 0x4016 ∧ (0x4016 : Word) ≠ 0x4017 := by
  unfold PlainAddress InPpuWindow; decide

theorem witness_RamAndPpuRegisterMirrors :
    ((0x07FF : Word).toNat < 0x0800 ∧ (0 : Nat) < 4 ∧ (3 : Nat) < 4) ∧ InPpuWindow 0x2000 ∧ InPpuWindow 0x3FFF := by
  unfold InPpuWindow; decide

/-- The ends of the undecoded ranges: for reads 0x4014 is among them. -/
theorem witness_UndecodedAddressesReadZero :
    ([0x4000, 0x4013, 0x4014, 0x4015, 0x4018, 0x5FFF, 0x6000, 0x7FFF] : List Word).all (fun a =>
        decide (0x4000 ≤ a.toNat) && decide (a ≠ 0x4016) && decide (a ≠ 0x4017)
          && ((withProgram State.reset []).cart.bind (fun c => cartCpuRead c a)).isNone) = true
      ∧ ([0x4000, 0x4013, 0x4015, 0x4018, 0x5FFF, 0x6000, 0x7FFF] : List Word).all (fun a =>
        decide (0x4000 ≤ a.toNat) && decide (a ≠ 0x4014) && decide (a ≠ 0x4016) && decide (a ≠ 0x4017)
          && ((withProgram State.reset []).cart.bind (fun c => cartCpuWrite c a 1)).isNone) = true
      ∧ (State.reset.cart.bind (fun c => cartCpuRead c 0xFFFF)).isNone = true
      ∧ (State.reset.cart.bind (fun c => cartCpuWrite c 0xFFFF 1)).isNone = true := by decide

/-- Also of SharedWriteLatch. -/
theorem witness_PpuRegisterWrites : State.reset.ppu.w = false ∧ (cpuWrite State.reset 0x2005 0).ppu.w = true := by decide

theorem witness_PpuMemoriesAndTheirAliases :
    (State.reset.cart = none ∧ (0x1FFF : Word).toNat < 0x2000 ∧ (0xDFFF : Word).toNat % 0x4000 < 0x2000)
      ∧ ((withProgram State.reset []).cart = some (cartWith .mapper0 []) ∧ (cartWith .mapper0 []).nChr ≠ 0
        ∧ { cartWith .mapper0 [] with nChr := 0 }.nChr = 0)
      ∧ (0x2000 ≤ (0xE000 : Word).toNat % 0x4000 ∧ (0x3EFF : Word).toNat % 0x4000 < 0x3F00)
      ∧ 0x3F00 ≤ (0xFFFF : Word).toNat % 0x4000 ∧ 0x3F00 ≤ (0x3F00 : Word).toNat ∧ (0x3FFF : Word).toNat < 0x4000 ∧ (0 : Nat) < 4 ∧ (3 : Nat) < 4
      ∧ 0x2000 ≤ (0x2000 : Word).toNat ∧ (0x3EFF : Word).toNat < 0x3F00 := by decide

/-- The last page below the PPU's registers, the first above the controllers, and the last of all are plain. -/
theorem witness_DmaCopiesThePageIntoOam_plain (page : Nat) (h : page = 0x1F ∨ page = 0x41 ∨ page = 0xFF) :
    ∀ k, k < 256 → PlainAddress (BitVec.ofNat 16 (page * 256 + k)) := by
  intro k hk
  have ht : (BitVec.ofNat 16 (page * 256 + k)).toNat = page * 256 + k := by
    rw [BitVec.toNat_ofNat, Nat.mod_eq_of_lt (by omega)]
  unfold PlainAddress InPpuWindow
  refine ⟨by omega, fun e => ?_, fun e => ?_⟩ <;> rw [e] at ht <;> simp at ht <;> omega

theorem witness_DmaCopiesThePageIntoOam :
    let even := cpuWrite State.reset 0x4014 0x1F
    let odd := (cpuWrite State.reset 0x4014 0x00).setMaster 3
    let last := State.reset.setDma { Dma.reset with addr := 255, transfer := true, wait := false }
    (even.dma.transfer = true ∧ even.dma.wait = true ∧ even.dma.addr = 0 ∧ even.dma.page.toNat < 0x20
        ∧ even.master % 2 = 0)
      ∧ (odd.dma.transfer = true ∧ odd.dma.wait = true ∧ odd.dma.addr = 0 ∧ odd.dma.page.toNat < 0x20
        ∧ odd.master % 2 = 1)
      ∧ last.dma.wait = false ∧ last.master % 2 = 0 ∧ (last.setMaster 3).master % 2 = 1 ∧ last.dma.addr = 255 := by decide

theorem witness_VblankAtItsRasterPositions :
    ((raster 241 1 0 0).ppu.scanline = 241 ∧ (raster 241 1 0 0).ppu.cycle = 1)
      ∧ ((raster (-1) 1 0 0).ppu.scanline = -1 ∧ (raster (-1) 1 0 0).ppu.cycle = 1)
      ∧ (raster 241 0 0 0).ppu.cycle ≠ 1 ∧ (raster 241 2 0 0).ppu.cycle ≠ 1 ∧ (raster (-1) 2 0 0).ppu.cycle ≠ 1
      ∧ (raster 240 1 0 0).ppu.scanline ≠ 241 ∧ (raster 240 1 0 0).ppu.scanline ≠ -1
      ∧ (raster 0 1 0 0).ppu.scanline ≠ 241 ∧ (raster 0 1 0 0).ppu.scanline ≠ -1 := by decide

theorem witness_RasterAdvanceAndFramePeriod :
    rasterWf (raster (-1) 0 0 0).ppu = true ∧ rasterWf (raster 260 340 0 0).ppu = true
      ∧ State.reset.ppu.scanline = 0 ∧ State.reset.ppu.cycle = 0 ∧ State.reset.ppu.frameComplete = false
      ∧ (raster 0 339 0 0).ppu.cycle ≠ 340 ∧ (raster 259 340 0 0).ppu.cycle = 340 := by decide

theorem witness_ScrollIncrementsAndCopies :
    coarseX 0x001F = 31 ∧ coarseX 0x001E ≠ 31 ∧ fineY 0x6000 ≠ 7
      ∧ (fineY 0x73A0 = 7 ∧ coarseY 0x73A0 = 29) ∧ (fineY 0x73E0 = 7 ∧ coarseY 0x73E0 = 31)
      ∧ fineY 0x73C0 = 7 ∧ coarseY 0x73C0 ≠ 29 ∧ coarseY 0x73C0 ≠ 31 := by decide

/-- Raster positions with rendering on at which each branch of the statement is taken, and one with it off. -/
theorem witness_VramAddressHookAndFramePerPpuCycle :
    [raster 239 256 8 0, raster (-1) 257 16 0, raster 0 8 8 0, raster 0 248 8 0, raster 0 328 8 0, raster 0 336 8 0,
      raster (-1) 280 8 0, raster (-1) 304 8 0, raster 0 260 8 0, raster 240 256 8 0, raster 260 340 0 0].all
        (fun s => rasterWf s.ppu) = true := by decide

/-- Raster positions at which each phase of the fetch window, the idle fetches and neither happen, and the corners of the
screen with background and sprites off and on. -/
theorem witness_BackgroundRegistersAndPixels :
    [raster (-1) 1 8 0, raster 0 2 8 0, raster 0 3 8 0, raster 0 5 8 0, raster 0 7 8 0, raster 0 9 0 0, raster 239 257 8 0,
      raster 0 258 8 0, raster 0 320 8 0, raster 0 321 8 0, raster 0 337 8 0, raster 0 338 8 0, raster 0 340 8 0,
      raster 240 9 8 0].all (fun s => rasterWf s.ppu) = true
      ∧ [raster 0 1 0 0, raster 0 256 0x08 0, raster 239 1 0x10 0, raster 239 256 0xE7 0].all (fun s =>
        decide (0 ≤ s.ppu.scanline) && decide (s.ppu.scanline ≤ 239) && decide (1 ≤ s.ppu.cycle)
          && decide (s.ppu.cycle ≤ 256)) = true
      ∧ [raster (-1) 1 0x10 0, raster 240 256 0x10 0, raster 0 0 0x10 0, raster 239 257 0x10 0].all (fun s =>
        decide (s.ppu.scanline < 0 ∨ 239 < s.ppu.scanline ∨ s.ppu.cycle < 1 ∨ 256 < s.ppu.cycle)) = true := by decide

/-- The ends of the windows; the cartridge is on each of the mappers. -/
theorem witness_ProgramWindowsOfMappers023 (m : Mapper) (h : m = .mapper0 ∨ m = .mapper2 5 ∨ m = .mapper3 1) :
    let s := { State.reset with cart := some (cartWith m []) }
    s.cart = some (cartWith m [])
      ∧ ((cartWith m []).mapper = .mapper0 ∨ (∃ b, (cartWith m []).mapper = .mapper2 b)
        ∨ ∃ b, (cartWith m []).mapper = .mapper3 b)
      ∧ (0x7FFF : Word).toNat < 0x8000 ∧ 0x8000 ≤ (0x8000 : Word).toNat ∧ (0xBFFF : Word).toNat < 0xC000
      ∧ 0xC000 ≤ (0xC000 : Word).toNat ∧ 0x8000 ≤ (0xFFFF : Word).toNat := by
  rcases h with rfl | rfl | rfl
  · exact ⟨rfl, .inl rfl, by decide⟩
  · exact ⟨rfl, .inr (.inl ⟨5, rfl⟩), by decide⟩
  · exact ⟨rfl, .inr (.inr ⟨1, rfl⟩), by decide⟩

/-- Mapper 1 in a PRG mode. -/
def mapper1In (mode : BitVec 5) : Mapper1 := { resetMapper1 [] with control := mode <<< 2 }

theorem witness_MapperOneWindowsAndStaticRam (mode : BitVec 5) (h : mode = 0 ∨ mode = 1 ∨ mode = 2 ∨ mode = 3) :
    let c := cartWith (.mapper1 (mapper1In mode)) []
    c.mapper = .mapper1 (mapper1In mode) ∧ (mapper1In mode).control.toNat / 4 % 4 = mode.toNat ∧ 2 ≤ c.nPrg.toNat
      ∧ { c with nPrg := 1 }.nPrg.toNat = 1
      ∧ 0x8000 ≤ (0x8000 : Word).toNat ∧ (0x5FFF : Word).toNat < 0x6000 ∧ 0x6000 ≤ (0x6000 : Word).toNat
      ∧ (0x7FFF : Word).toNat < 0x8000 := by
  rcases h with rfl | rfl | rfl | rfl <;> exact ⟨rfl, by decide⟩

theorem witness_MapperOneSerialLoad :
    (∃ m, (cartWith (.mapper1 (resetMapper1 [])) []).mapper = .mapper1 m ∧ m.loadCount = 0)
      ∧ (0x80 : Byte).getLsbD 7 = true ∧ (0x7F : Byte).getLsbD 7 = false ∧ (0x00 : Byte).getLsbD 7 = false
      ∧ 0x8000 ≤ (0x8000 : Word).toNat ∧ 0x8000 ≤ (0xFFFF : Word).toNat := ⟨⟨_, rfl, rfl⟩, by decide⟩

theorem witness_MapperFourWindowsAndRegisters :
    (∃ m, (mapper4Cart 0x46).mapper = .mapper4 m ∧ m.bankSelect.getLsbD 6 = true)
      ∧ (∃ m, (mapper4Cart 0x06).mapper = .mapper4 m ∧ m.bankSelect.getLsbD 6 = false)
      ∧ ([0x8000, 0x9FFF, 0xA000, 0xBFFF, 0xC000, 0xDFFF, 0xE000, 0xFFFF] : List Word).map
        (fun a => ((a.toNat - 0x8000) / 0x2000, a.toNat % 2))
          = [(0, 0), (0, 1), (1, 0), (1, 1), (2, 0), (2, 1), (3, 0), (3, 1)] := ⟨⟨_, rfl, rfl⟩, ⟨_, rfl, rfl⟩, by decide⟩

theorem witness_ScanlineHookAndIrqCounter :
    (armed.irqCounter = 0 ∧ armed.irqEnable = true ∧ armed.irqActive = false)
      ∧ (0 ≤ armed.irqLatch.toNat ∧ 3 ≤ armed.irqLatch.toNat)
      ∧ (3 ≤ (mapper4Scanlines 1 armed).irqCounter.toNat ∧ 1 ≤ (mapper4Scanlines 1 armed).irqCounter.toNat
        ∧ (mapper4Scanlines 1 armed).irqEnable = true ∧ (mapper4Scanlines 1 armed).irqActive = false
        ∧ (resetMapper4 .vertical []).irqEnable = false)
      ∧ (cartWith (.mapper4 (mapper4Scanlines 4 armed)) []).mapper
        = .mapper4 (mapper4Scanlines (armed.irqLatch.toNat + 1) armed) := by decide

/-- For the mirroring clauses the cartridges of witness_MapperValuesAfterReset serve. -/
theorem witness_CharacterOffsetsAndMirroring :
    (∃ o, cartWf (cartWith .mapper0 []) = true ∧ cpuMapRead (cartWith .mapper0 []) 0xFFFF = .prg o)
      ∧ (∃ o, cpuMapRead { cartWith (.mapper1 (mapper1In 0)) [] with nPrg := 1 } 0xFFFF = .prg o
        ∧ cartWf { cartWith (.mapper1 (mapper1In 0)) [] with nPrg := 1 } = true)
      ∧ (∃ o, ppuMapRead (cartWith (.mapper3 3) []) 0x1FFF = .chr o ∧ cartWf (cartWith (.mapper3 3) []) = true)
      ∧ (cartWith (.mapper3 3) []).nChr ≠ 0 ∧ { cartWith (.mapper3 3) [] with nChr := 0 }.nChr = 0
      ∧ (0x1FFF : Word).toNat < 0x2000 ∧ 0x2000 ≤ (0x2000 : Word).toNat
      ∧ (withProgram State.reset []).cart = some (cartWith .mapper0 []) :=
  ⟨⟨_, by decide, rfl⟩, ⟨_, rfl, by decide⟩, ⟨_, rfl, by decide⟩, by decide, by decide, by decide, by decide, rfl⟩

/-- The five ways an image is bad. -/
theorem witness_CartridgeInsertion_bad :
    let header (nPrg flags6 flags7 : Byte) : List Byte :=
      [0x4E, 0x45, 0x53, 0x1A, nPrg, 0, flags6, flags7, 0, 0, 0, 0, 0, 0, 0, 0]
    let mapper (image : List Byte) := ((image.getD 7 0 &&& 0xF0) ||| (image.getD 6 0 >>> 4)).toNat
    (header 1 0 0).dropLast.length < 16 ∧ (0x00 :: (header 1 0 0).tail).take 4 ≠ [0x4E, 0x45, 0x53, 0x1A]
      ∧ 4 < mapper (header 1 0x50 0) ∧ 4 < mapper (header 1 0 0x10) ∧ ((header 0 0 0).getD 4 0).toNat = 0
      ∧ (header 1 0 0).length < 16 + 0 + 16384 * ((header 1 0 0).getD 4 0).toNat := by decide

/-- An image of one program bank and CHR RAM, of the length R812 asks for. -/
def smallImage : List Byte :=
  [0x4E, 0x45, 0x53, 0x1A, 1, 0, 0x41, 0, 0, 0, 0, 0, 0, 0, 0, 0] ++ List.replicate 16384 (0xEA : Byte)

theorem smallImage_length : smallImage.length = 16400 := by
  unfold smallImage
  rw [List.length_append, List.length_replicate]
  rfl

theorem witness_CartridgeInsertion_good :
    ¬ (smallImage.length < 16 ∨ smallImage.take 4 ≠ [0x4E, 0x45, 0x53, 0x1A]
      ∨ 4 < ((smallImage.getD 7 0 &&& 0xF0) ||| (smallImage.getD 6 0 >>> 4)).toNat ∨ (smallImage.getD 4 0).toNat = 0
      ∨ smallImage.length < 16 + (if (smallImage.getD 6 0).getLsbD 2 then 512 else 0)
        + 16384 * (smallImage.getD 4 0).toNat + 8192 * (smallImage.getD 5 0).toNat) := by
  rw [smallImage_length]
  rw [show smallImage.take 4 = [0x4E, 0x45, 0x53, 0x1A] from rfl, show smallImage.getD 7 0 = 0 from rfl,
    show smallImage.getD 6 0 = 0x41 from rfl, show smallImage.getD 4 0 = 1 from rfl,
    show smallImage.getD 5 0 = 0 from rfl]
  decide

theorem smallImage_valid : imageValid smallImage = true := by
  unfold imageValid declaredLength trainerSize
  rw [smallImage_length]
  rw [show parseHeader smallImage =
    { nPrg := 1, nChr := 0, hwMirror := .vertical, trainer := false, mapperId := 4 } from rfl,
    show smallImage.take 4 = [0x4E, 0x45, 0x53, 0x1A] from rfl]
  decide

/-- Machines with a well-formed cartridge in; for the other clauses witness_StepKeepsTheMachineInvariant serves. -/
theorem witness_ResetMeetsTheMachineInvariant (mem : PowerOnMem) :
    ∃ s, insertCartridge [] smallImage (powerOn mem Cpu.reset Ppu.reset) = .ok s := by
  unfold insertCartridge loadCartridge
  rw [if_pos smallImage_valid, show parseHeader smallImage =
    { nPrg := 1, nChr := 0, hwMirror := .vertical, trainer := false, mapperId := 4 } from rfl]
  exact ⟨_, rfl⟩

/-- An image with a trainer, one program bank and CHR RAM, of the length R812 asks for. -/
def trainerImage : List Byte :=
  [0x4E, 0x45, 0x53, 0x1A, 1, 0, 0x04, 0, 0, 0, 0, 0, 0, 0, 0, 0] ++ List.replicate 16896 (0xEA : Byte)

theorem trainerImage_length : trainerImage.length = 16912 := by
  unfold trainerImage
  rw [List.length_append, List.length_replicate]
  rfl

/-- The image is good and its cartridge has a trainer. -/
theorem witness_CartridgeInsertion_trainer :
    ¬ (trainerImage.length < 16 ∨ trainerImage.take 4 ≠ [0x4E, 0x45, 0x53, 0x1A]
      ∨ 4 < ((trainerImage.getD 7 0 &&& 0xF0) ||| (trainerImage.getD 6 0 >>> 4)).toNat ∨ (trainerImage.getD 4 0).toNat = 0
      ∨ trainerImage.length < 16 + (if (trainerImage.getD 6 0).getLsbD 2 then 512 else 0)
        + 16384 * (trainerImage.getD 4 0).toNat + 8192 * (trainerImage.getD 5 0).toNat)
      ∧ ∃ m, (cartridgeOf trainerImage .mapper0).trainer = some m := by
  rw [trainerImage_length]
  rw [show trainerImage.take 4 = [0x4E, 0x45, 0x53, 0x1A] from rfl, show trainerImage.getD 7 0 = 0 from rfl,
    show trainerImage.getD 6 0 = 0x04 from rfl, show trainerImage.getD 4 0 = 1 from rfl,
    show trainerImage.getD 5 0 = 0 from rfl]
  exact ⟨by decide, _, rfl⟩

end Sys2Proof.Tests
end

section
/-!
PROOFS of the scope's statements: no step and no instruction stops, and the four stack instructions complete. The frame of
a run of pushes and the completion of an instruction that changes only the CPU are stated for any instruction.
-/
namespace Sys2Proof.Machine

/-! No outcome but a next state. -/

/-- No arm of the dispatch faults or refuses (R22, R612; log 9). -/
theorem exec_next (i : Instr) (s : State) : ∃ t, exec i s = .next t := by
  cases i <;> exact ⟨_, rfl⟩

theorem mapNext_next (f : State → State) {r : Result} (h : ∃ t, r = .next t) : ∃ t, mapNext f r = .next t := by
  obtain ⟨t, rfl⟩ := h
  exact ⟨f t, rfl⟩

theorem cpuClock_next (s : State) : ∃ t, cpuClock s = .next t := by
  unfold cpuClock
  split
  · exact mapNext_next endExecute (exec_next _ _)
  · exact ⟨_, rfl⟩

theorem cpuOrDma_next (s : State) : ∃ t, cpuOrDma s = .next t := by
  unfold cpuOrDma
  split
  · exact ⟨_, rfl⟩
  · exact cpuClock_next s

theorem step_next (s : State) : ∃ t, step s = .next t := by
  unfold step busClock
  split
  · exact mapNext_next endTick (cpuOrDma_next _)
  · exact ⟨_, rfl⟩

/-- Settles O7, by the branches of the master tick: only an execute tick can stop, and no instruction does. -/
theorem everyStepAnswersANextState : Obligations.EveryStepAnswersANextState :=
  ⟨step_next, exec_next⟩

/-! The frame of a run of pushes. -/

theorem StackFrame.refl (s : State) : StackFrame s s 0 := ⟨fun _ _ => rfl, rfl⟩

/-- One more push after `n` widens the frame by the byte SP then names (R20). -/
theorem StackFrame.push {s u : State} {n : Nat} (h : StackFrame s u n)
    (hsp : u.cpu.sp = s.cpu.sp - BitVec.ofNat 8 n) (v : Byte) : StackFrame s (push u v) (n + 1) := by
  obtain ⟨hbytes, hrest⟩ := h
  rw [push_eq]
  refine ⟨fun b hb => ?_, ?_⟩
  · have hwrite : storedByte (u.setRam (Memory.write u.ram (256 + u.cpu.sp.toNat) v)) b = storedByte u b := by
      rw [← stackAddress_ramIndex]
      exact storedByte_setRam_write u v (stackAddress_ram _) (hsp ▸ hb n (Nat.lt_succ_self n))
    exact hwrite.trans (hbytes b fun j hj => hb j (Nat.lt_succ_of_lt hj))
  · rw [hrest]
    rfl

/-- The frame does not look at the CPU's registers. -/
theorem StackFrame.outsideCpu {s u t : State} {n : Nat} (h : StackFrame s u n) (g : OutsideCpu u t) :
    StackFrame s t n := by
  obtain ⟨hbytes, hrest⟩ := h
  rw [g]
  exact ⟨hbytes, by rw [hrest]⟩

/-- A byte just pushed stands at 0x0100 + SP (R20). -/
theorem read_ram_push (s : State) (v : Byte) : Memory.read (push s v).ram (256 + s.cpu.sp.toNat) = v := by
  rw [push_eq]
  exact Memory.read_write_same _ _ _

/-- An instruction whose whole effect is one push: the byte on the stack, SP one less, the base cycles, and the frame
(R20, R821). -/
theorem completes_of_exec_push {i : Instr} {s : State} {v : Byte} (h : exec i s = .next (finish i 0 (push s v))) :
    ∃ t, exec i s = .next t ∧ t.cpu = { s.cpu with sp := s.cpu.sp - 1, cycles := baseCycles i }
      ∧ Memory.read t.ram (256 + s.cpu.sp.toNat) = v ∧ StackFrame s t 1 := by
  refine ⟨_, h, ?_, read_ram_push s v, ?_⟩
  · rw [push_eq]
    rfl
  · have hpush : StackFrame s (push s v) 1 := (StackFrame.refl s).push (BitVec.sub_zero _).symm v
    exact hpush.outsideCpu rfl

/-- Settles O32: PHA and PHP are each one push, of A and of P with B and U set. -/
theorem pushesWriteOneStackByte : Obligations.PushesWriteOneStackByte :=
  fun _ => ⟨completes_of_exec_push (i := .pha) rfl, completes_of_exec_push (i := .php) rfl⟩

/-! Instructions that change only the CPU's registers. -/

/-- What changes only the CPU's registers completes with every byte of memory as it was. -/
theorem CompletesInCpu.of_exec {i : Instr} {s t : State} {cpu : Cpu} {g : Flag → Bool} (hexec : exec i s = .next t)
    (hregs : RegistersAre t cpu) (hflags : FlagsAre t g) (hout : OutsideCpu s t) : CompletesInCpu i s cpu g :=
  ⟨t, hexec, hregs, hflags, hout, hout.memoryUnchanged⟩

/-- PLA as one equation (R562). -/
theorem exec_pla (s : State) :
    exec .pla s =
      let v := Memory.read s.ram (256 + (s.cpu.sp + 1).toNat)
      .next (finish .pla 0 ((setNZ (s.setSp (s.cpu.sp + 1)) v).setA v)) := by
  change execPla s = _
  rw [execPla, pull_eq]

/-- PLP as one equation (R564). -/
theorem exec_plp (s : State) :
    exec .plp s =
      .next (finish .plp 0
        ((s.setSp (s.cpu.sp + 1)).setP (pulledStatus (Memory.read s.ram (256 + (s.cpu.sp + 1).toNat))))) := by
  change execPlp s = _
  rw [execPlp, pull_eq]

/-- Settles O33: PLA pulls A, whose flags are those of `SetNZ`; PLP pulls P, whose flags are those of `pulledStatus`. -/
theorem pullsReadOneStackByte : Obligations.PullsReadOneStackByte := by
  intro s v
  constructor
  · have hflags : FlagsAre (finish .pla 0 ((setNZ (s.setSp (s.cpu.sp + 1)) v).setA v)) (nzFlags s v) := by
      intro f
      exact (setNZ_flags (s.setSp (s.cpu.sp + 1)) v f).trans (by cases f <;> rfl)
    exact .of_exec (exec_pla s) rfl hflags rfl
  · exact .of_exec (exec_plp s) rfl (pulledStatus_flags v) rfl

end Sys2Proof.Machine
end

section
/-!
PROOFS of what every step keeps. A step is a PPU cycle, a chain of elementary effects (`Moves`), and one more
on `master`; each thing kept is then one induction over that chain.
-/
namespace Sys2Proof.Machine

/-! The chain of effects between the PPU cycle and the end of a master tick. -/

/-- `t` is reached from `s` by register updates, bus reads and writes, and what the DMA engine and the interrupt polling do
beside them (R190, R620). -/
inductive Moves : State → State → Prop
  | registers {s t : State} (h : OutsideCpu s t) : Moves s t
  | read (s : State) (a : Word) : Moves s (cpuRead s a).2
  | write (s : State) (a : Word) (v : Byte) : Moves s (cpuWrite s a v)
  | dma (s : State) (d : Dma) : Moves s (s.setDma d)
  | oam (s : State) (k v : Byte) : Moves s (s.setPpu { s.ppu with oam := Memory.write s.ppu.oam k.toNat v })
  | nmiClear (s : State) : Moves s (s.setPpu { s.ppu with nmi := false })
  | irqClear (s : State) {c : Cartridge} (h : s.cart = some c) : Moves s (s.setCart (some (cartIrqClear c)))
  | trans {s t u : State} (h : Moves s t) (g : Moves t u) : Moves s u

theorem Moves.refl (s : State) : Moves s s := .registers rfl

/-- Register updates after a chain of effects. -/
theorem Moves.outsideCpu {s u t : State} (h : Moves s u) (g : OutsideCpu u t) : Moves s t := h.trans (.registers g)

section
variable {s u : State} (h : Moves s u) (v : Byte) (w : Word)
include h
theorem Moves.setA : Moves s (u.setA v) := h.outsideCpu rfl
theorem Moves.setX : Moves s (u.setX v) := h.outsideCpu rfl
theorem Moves.setY : Moves s (u.setY v) := h.outsideCpu rfl
theorem Moves.setP : Moves s (u.setP v) := h.outsideCpu rfl
theorem Moves.setPc : Moves s (u.setPc w) := h.outsideCpu rfl
theorem Moves.finish (i : Instr) (extra : Nat) : Moves s (finish i extra u) := h.outsideCpu rfl
theorem Moves.onlyP {t : State} (g : OnlyP u t) : Moves s t := g ▸ h.setP _
end

/-! Every part of a tick is such a chain. -/

theorem push_moves (s : State) (v : Byte) : Moves s (push s v) := (Moves.write s _ v).outsideCpu rfl

theorem pushWord_moves (s : State) (w : Word) : Moves s (pushWord s w) := (push_moves s _).trans (push_moves _ _)

theorem pull_moves (s : State) : Moves s (pull s).2 := by
  rw [pull_eq]
  exact .registers rfl

theorem pullWord_moves (s : State) : Moves s (pullWord s).2 := (pull_moves s).trans (pull_moves _)

theorem read16_moves (s : State) (a : Word) : Moves s (read16 s a).2 := (Moves.read s a).trans (.read _ _)

theorem takeInterrupt_moves (s : State) (image : Byte) (vector : Word) : Moves s (takeInterrupt s image vector) :=
  have hpush : Moves s ((push (pushWord s s.cpu.pc) image).setFlag .i true) :=
    ((pushWord_moves s _).trans (push_moves _ image)).onlyP (.setFlag _ _ _)
  (hpush.trans (read16_moves _ vector)).setPc _

theorem returnFromInterrupt_moves (s : State) : Moves s (returnFromInterrupt s) := by
  rw [returnFromInterrupt_eq]
  exact .registers rfl

theorem operand_moves (m : Addr) (s : State) : Moves s (operand m s).state := by
  by_cases h : m.tag = .imm
  · cases m with
    | imm v => exact .refl s
    | _ => cases h
  · rw [operand_eq m s h]
    exact .read s _

theorem storeTo_moves (m : Addr) (v : Byte) (s : State) : Moves s (storeTo m v s) := by
  rw [storeTo_eq]
  exact .write s _ v

/-- A read-modify-write whose function only sets flags: a read, the flags, a write (R444). -/
theorem modify_moves (m : Addr) {f : Byte → State → Byte × State} (hf : ∀ v s, OnlyP s (f v s).2) (s : State) :
    Moves s (modify m f s) := by
  rw [modify_eq]
  exact ((Moves.read s _).onlyP (hf _ _)).trans (.write _ _ _)

theorem modifyShift_moves (o : ShiftOperand) {f : Byte → State → Byte × State} (hf : ∀ v s, OnlyP s (f v s).2)
    (s : State) : Moves s (modifyShift o f s) := by
  cases o with
  | acc => exact ((Moves.refl s).onlyP (hf s.cpu.a s)).setA _
  | mem m => exact modify_moves m hf s

theorem jumpAddress_moves (t : JumpTarget) (s : State) : Moves s (jumpAddress t s).2 := by
  cases t with
  | abs w => exact .refl s
  | ind p => exact (Moves.read s p).trans (.read _ _)

theorem branch_moves (i : Instr) (taken : Bool) (rel : Byte) (s : State) : Moves s (branch i taken rel s) := by
  cases taken <;> exact .registers rfl

theorem OnlyP.shiftFlags (s : State) (carry : Bool) (r : Byte) : OnlyP s (shiftFlags s carry r) := rfl

/-- THE LAW OF AN INSTRUCTION: its effects are those of a chain of register updates, bus reads and bus writes. -/
theorem exec_moves (i : Instr) {s t : State} (h : exec i s = .next t) : Moves s t := by
  have hs := Moves.refl s
  cases i <;> cases h
  case adc m | sbc m => exact (((operand_moves m s).onlyP (.setAddFlags _ _ _ _)).setA _).finish _ _
  case and m | ora m | eor m | lda m => exact (((operand_moves m s).onlyP (.setNZ _ _)).setA _).finish _ _
  case ldx m => exact (((operand_moves m s).onlyP (.setNZ _ _)).setX _).finish _ _
  case ldy m => exact (((operand_moves m s).onlyP (.setNZ _ _)).setY _).finish _ _
  case bit m => exact ((operand_moves m s).onlyP (.setBitFlags _ _ _)).finish _ _
  case cmp m | cpx m | cpy m => exact ((operand_moves m s).onlyP (.setCompareFlags _ _ _)).finish _ _
  case sta m | stx m | sty m => exact (storeTo_moves m _ s).finish _ _
  case inc m | dec m => exact (modify_moves m (fun _ _ => .setNZ _ _) s).finish _ _
  case asl o | lsr o | rol o | ror o => exact (modifyShift_moves o (fun _ _ => .shiftFlags _ _ _) s).finish _ _
  case bcc rel | bcs rel | beq rel | bne rel | bmi rel | bpl rel | bvc rel | bvs rel => exact branch_moves _ _ rel s
  case txa | tya => exact ((hs.onlyP (.setNZ s _)).setA _).finish _ _
  case inx | dex | tax | tsx => exact ((hs.onlyP (.setNZ s _)).setX _).finish _ _
  case iny | dey | tay => exact ((hs.onlyP (.setNZ s _)).setY _).finish _ _
  case pha | php => exact (push_moves s _).finish _ _
  case pla => exact (((pull_moves s).onlyP (.setNZ _ _)).setA _).finish _ _
  case plp => exact ((pull_moves s).setP _).finish _ _
  case jmp o => exact ((jumpAddress_moves o s).setPc _).finish _ _
  case jsr w => exact ((pushWord_moves s _).setPc _).finish _ _
  case rts => exact ((pullWord_moves s).setPc _).finish _ _
  case brk => exact ((hs.setPc _).trans (takeInterrupt_moves _ _ _)).finish _ _
  case rti => exact (returnFromInterrupt_moves s).finish _ _
  case clc | sec | cli | sei | cld | sed | clv => exact (hs.onlyP (.setFlag s _ _)).finish _ _
  case txs => exact .registers rfl
  case nop => exact hs.finish _ _
  case illegal op => exact (hs.setPc _).finish _ _

theorem fetchByte_moves (s : State) : Moves s (fetchByte s).2 := (Moves.read s s.cpu.pc).setPc _

theorem fetchInstr_moves (s : State) : Moves s (fetchInstr s).2 := by
  have h1 := fetchByte_moves s
  have h2 := h1.trans (fetchByte_moves _)
  unfold fetchInstr
  simp only
  split
  · exact h1
  · exact h2
  · exact h2.trans (fetchByte_moves _)

theorem dmaStep_moves (s : State) : Moves s (dmaStep s) := by
  unfold dmaStep
  split
  · split
    · exact .dma s _
    · exact .refl s
  · split
    · exact (Moves.read s _).trans (.dma _ _)
    · simp only
      split <;> exact (Moves.oam s s.dma.addr s.dma.data).trans (.dma _ _)

theorem pollNmi_moves (s : State) : Moves s (pollNmi s) := by
  unfold pollNmi
  split
  · exact ((Moves.nmiClear s).trans (takeInterrupt_moves _ _ _)).outsideCpu rfl
  · exact .refl s

theorem irqEntry_moves (s : State) : Moves s (irqEntry s) := by
  unfold irqEntry
  split
  · exact .refl s
  · exact (takeInterrupt_moves s _ _).outsideCpu rfl

theorem pollIrq_moves (s : State) : Moves s (pollIrq s) := by
  unfold pollIrq
  split
  · exact .refl s
  · next c hc =>
    split
    · exact (Moves.irqClear s hc).trans (irqEntry_moves _)
    · exact .refl s

theorem pollInterrupts_moves (s : State) : Moves s (pollInterrupts s) := (pollNmi_moves s).trans (pollIrq_moves _)

/-! The four kinds of master tick (R820, R821). -/

theorem ppuClock_dma (s : State) : (ppuClock s).dma = s.dma := (ppuClock_effects s).dma

theorem ppuClock_cpu (s : State) : (ppuClock s).cpu = s.cpu := (ppuClock_effects s).cpu

theorem step_ppuOnly {s : State} (h : s.master % 3 ≠ 0) : step s = .next (endTick (ppuClock s)) := by
  simp [step, busClock, cpuTick, h]

theorem step_dma {s : State} (h : s.master % 3 = 0) (hd : s.dma.transfer = true) :
    step s = .next (endTick (dmaStep (ppuClock s))) := by
  simp [step, busClock, cpuTick, cpuOrDma, ppuClock_dma, mapNext, h, hd]

theorem step_countDown {s : State} (h : s.master % 3 = 0) (hd : s.dma.transfer = false) (hc : s.cpu.cycles ≠ 0) :
    step s = .next (endTick (countDown (ppuClock s))) := by
  simp [step, busClock, cpuTick, cpuOrDma, cpuClock, ppuClock_dma, ppuClock_cpu, mapNext, h, hd, hc]

theorem step_execute {s t : State} (h : s.master % 3 = 0) (hd : s.dma.transfer = false) (hc : s.cpu.cycles = 0)
    (hx : exec (fetchInstr (ppuClock s)).1 (fetchInstr (ppuClock s)).2 = .next t) :
    step s = .next (endTick (endExecute t)) := by
  simp [step, busClock, cpuTick, cpuOrDma, cpuClock, ppuClock_dma, ppuClock_cpu, mapNext, h, hd, hc, hx]

/-- What the machine may have done when the end of the tick comes. -/
inductive TickBody (s : State) : State → Prop
  | ppuOnly : TickBody s (ppuClock s)
  | dma : TickBody s (dmaStep (ppuClock s))
  | countDown : TickBody s (countDown (ppuClock s))
  | execute {v : State} (h : exec (fetchInstr (ppuClock s)).1 (fetchInstr (ppuClock s)).2 = .next v) :
    TickBody s (endExecute v)

/-- THE LAW OF A STEP: one of the four bodies, then the end of the tick. -/
theorem step_cases {s t : State} (h : step s = .next t) : ∃ u, TickBody s u ∧ t = endTick u := by
  have of_eq : ∀ u, TickBody s u → step s = .next (endTick u) → ∃ u, TickBody s u ∧ t = endTick u := by
    intro u hu e
    cases h.symm.trans e
    exact ⟨u, hu, rfl⟩
  by_cases hm : s.master % 3 = 0
  · cases hd : s.dma.transfer with
    | true => exact of_eq _ .dma (step_dma hm hd)
    | false =>
      by_cases hc : s.cpu.cycles = 0
      · obtain ⟨v, hv⟩ := exec_next (fetchInstr (ppuClock s)).1 (fetchInstr (ppuClock s)).2
        exact of_eq _ (.execute hv) (step_execute hm hd hc hv)
      · exact of_eq _ .countDown (step_countDown hm hd hc)
  · exact of_eq _ .ppuOnly (step_ppuOnly hm)

theorem TickBody.moves {s u : State} (h : TickBody s u) : Moves (ppuClock s) u := by
  cases h with
  | ppuOnly => exact .refl _
  | dma => exact dmaStep_moves _
  | countDown => exact .registers rfl
  | execute hx => exact ((fetchInstr_moves _).trans (exec_moves _ hx)).outsideCpu rfl

/-- A step is the PPU cycle, a chain of effects, and one more on `master`. -/
theorem step_moves {s t : State} (h : step s = .next t) : ∃ u, Moves (ppuClock s) u ∧ t = u.setMaster (u.master + 1) := by
  obtain ⟨u, hu, rfl⟩ := step_cases h
  exact ⟨pollInterrupts u, hu.moves.trans (pollInterrupts_moves u), rfl⟩

/-! What a chain of effects keeps. -/

/-- The effects of a tick keep every store canonical and of its size. -/
theorem Moves.storesWf {s t : State} (h : Moves s t) (hs : StoresWf s) : StoresWf t := by
  induction h with
  | registers g => exact g ▸ hs
  | read s a => exact hs.read (cpuRead_effects s a)
  | write s a v => exact hs.cpuWrite a v
  | dma s d => exact hs
  | oam s k v =>
    obtain ⟨hram, hppu, hcart⟩ := hs
    exact ⟨hram, ppuWf_oamWrite k v hppu, hcart⟩
  | nmiClear s => exact hs
  | irqClear s hc =>
    obtain ⟨hram, hppu, hcart⟩ := hs
    rw [hc] at hcart
    exact ⟨hram, hppu, cartIrqClear_wf hcart⟩
  | trans _ _ ihst ihtu => exact ihtu (ihst hs)

/-- Only the end of a tick moves `master` (R69, R820). -/
theorem Moves.master {s t : State} (h : Moves s t) : t.master = s.master := by
  induction h with
  | registers g => rw [g]
  | read s a => exact (cpuRead_effects s a).master
  | write s a v => exact (cpuWrite_effects s a v).master
  | dma | oam | nmiClear | irqClear => rfl
  | trans _ _ ihst ihtu => exact ihtu.trans ihst

/-! The Unused flag. -/

theorem push_flag (s : State) (v : Byte) (f : Flag) : (push s v).flag f = s.flag f := by
  rw [push_eq, State.flag_setSp, State.flag_setRam]

/-- An interrupt entry sets I and keeps every other flag (R626). -/
theorem takeInterrupt_flag (s : State) (image : Byte) (vector : Word) (f : Flag) :
    (takeInterrupt s image vector).flag f = if f = .i then true else s.flag f := by
  unfold takeInterrupt pushWord
  rw [State.flag_setPc]
  unfold State.flag
  rw [(read16_effects _ vector).cpu]
  exact (State.flag_setFlag _ .i f true).trans (by rw [push_flag, push_flag, push_flag]; rfl)

theorem pollInterrupts_flag_u (s : State) : (pollInterrupts s).flag .u = s.flag .u := by
  have hnmi : (pollNmi s).flag .u = s.flag .u := by
    unfold pollNmi
    split
    · exact takeInterrupt_flag _ _ _ .u
    · rfl
  unfold pollInterrupts pollIrq
  split
  · exact hnmi
  · split
    · unfold irqEntry
      split
      · exact hnmi
      · exact (takeInterrupt_flag _ _ _ .u).trans hnmi
    · exact hnmi

/-- The DMA engine leaves the CPU frozen (R192). -/
theorem dmaStep_cpu (s : State) : (dmaStep s).cpu = s.cpu := by
  unfold dmaStep
  split
  · split <;> rfl
  · split
    · exact (cpuRead_effects s _).cpu
    · simp only
      split <;> rfl

/-- An execute tick sets the Unused flag, and the other ticks do not touch it (R57). -/
theorem TickBody.flag_u {s u : State} (h : TickBody s u) (hs : s.flag .u = true) : u.flag .u = true := by
  have hppu : (ppuClock s).flag .u = true := by rwa [State.flag, ppuClock_cpu]
  cases h with
  | ppuOnly => exact hppu
  | dma => rwa [State.flag, dmaStep_cpu]
  | countDown => exact hppu
  | @execute v _ => exact State.flag_setFlag v .u .u true

/-- Settles O9: the chain of effects of a step keeps the stores, the end of an execute tick sets the Unused flag, and an
interrupt entry keeps it. -/
theorem stepKeepsTheMachineInvariant : Obligations.StepKeepsTheMachineInvariant := by
  intro s t hs h
  obtain ⟨hstores, hflag⟩ := (State.inv_iff s).mp hs
  obtain ⟨u, hu, rfl⟩ := step_cases h
  have hmoves : Moves (ppuClock s) (pollInterrupts u) := hu.moves.trans (pollInterrupts_moves u)
  exact (State.inv_iff _).mpr
    ⟨hmoves.storesWf hstores.ppuClock, (pollInterrupts_flag_u u).trans (hu.flag_u hflag)⟩

/-! What stays of a cartridge and of the controllers. -/

/-- The cartridge is still the one inserted: header, trainer, PRG, mapper variant, and CHR where that is ROM (R81,
R186). -/
structure SameRom (c d : Cartridge) : Prop where
  nPrg : d.nPrg = c.nPrg
  nChr : d.nChr = c.nChr
  hwMirror : d.hwMirror = c.hwMirror
  trainer : d.trainer = c.trainer
  prg : d.prg = c.prg
  mapperId : d.mapper.id = c.mapper.id
  chrRom : c.nChr ≠ 0 → d.chr = c.chr

theorem SameRom.ofStores {c d : Cartridge} (h : SameStores c d) (hid : d.mapper.id = c.mapper.id) : SameRom c d :=
  ⟨h.nPrg, h.nChr, h.hwMirror, h.trainer, h.prg, hid, fun _ => h.chr⟩

theorem SameRom.refl (c : Cartridge) : SameRom c c := .ofStores (.refl c) rfl

theorem SameRom.trans {c d e : Cartridge} (h : SameRom c d) (g : SameRom d e) : SameRom c e :=
  ⟨g.nPrg.trans h.nPrg, g.nChr.trans h.nChr, g.hwMirror.trans h.hwMirror, g.trainer.trans h.trainer, g.prg.trans h.prg,
    g.mapperId.trans h.mapperId, fun hn => (g.chrRom (h.nChr ▸ hn)).trans (h.chrRom hn)⟩

/-- Mapper registers and static RAM may be written, the variant stays (R174, R177, R179, R182). -/
theorem cartCpuWrite_sameRom {c d : Cartridge} {a : Word} {v : Byte} (h : cartCpuWrite c a v = some d) : SameRom c d := by
  refine .ofStores (cartCpuWrite_sameStores h) ?_
  unfold cartCpuWrite at h
  cases hm : c.mapper <;> simp only [hm] at h <;> repeat' split at h
  all_goals cases h <;> simp only [hm, Mapper.id]

theorem cartScanline_sameRom (c : Cartridge) : SameRom c (cartScanline c) := by
  refine .ofStores (cartScanline_sameStores c) ?_
  cases h : c.mapper <;> simp only [cartScanline, h, Mapper.id]

theorem cartIrqClear_sameRom (c : Cartridge) : SameRom c (cartIrqClear c) := by
  refine .ofStores (cartIrqClear_sameStores c) ?_
  cases h : c.mapper <;> simp only [cartIrqClear, h, Mapper.id]

/-- A PPU write reaches CHR only where it is RAM (R186). -/
theorem chrWrite_sameRom {c : Cartridge} {a : Word} {k : Nat} (v : Byte) (h : ppuMapWrite c a = .chr k) :
    SameRom c { c with chr := Memory.write c.chr k v } := by
  have hram : c.nChr = 0 := by
    unfold ppuMapWrite at h
    split at h
    · split at h
      · assumption
      · cases h
    · cases h
  exact ⟨rfl, rfl, rfl, rfl, rfl, rfl, fun hn => absurd hram hn⟩

/-- The same cartridge, or none, in the slot, and the host's bytes in the ports. -/
structure KeepsRom (s t : State) : Prop where
  live : ∀ k, (t.pad k).live = (s.pad k).live
  noCart : s.cart = none → t.cart = none
  cart : ∀ c, s.cart = some c → ∃ d, t.cart = some d ∧ SameRom c d

theorem KeepsRom.ofCart {s t : State} (hlive : ∀ k, (t.pad k).live = (s.pad k).live) (hcart : t.cart = s.cart) :
    KeepsRom s t := ⟨hlive, hcart.trans, fun c hc => ⟨c, hcart.trans hc, .refl c⟩⟩

theorem KeepsRom.trans {s t u : State} (h : KeepsRom s t) (g : KeepsRom t u) : KeepsRom s u := by
  refine ⟨fun k => (g.live k).trans (h.live k), fun e => g.noCart (h.noCart e), fun c hc => ?_⟩
  obtain ⟨d, hd, hcd⟩ := h.cart c hc
  obtain ⟨e, he, hde⟩ := g.cart d hd
  exact ⟨e, he, hcd.trans hde⟩

/-- An effect that only puts another state of the same cartridge in the slot. -/
theorem KeepsRom.setCart {s : State} {c d : Cartridge} (hc : s.cart = some c) (h : SameRom c d) :
    KeepsRom s (s.setCart (some d)) := by
  refine ⟨fun k => by cases k <;> rfl, fun e => ?_, fun c' hc' => ⟨d, rfl, ?_⟩⟩
  · cases hc.symm.trans e
  · cases hc.symm.trans hc'
    exact h

theorem ppuWrite_keepsRom (s : State) (a : Word) (v : Byte) : KeepsRom s (ppuWrite s a v) := by
  have own : ∀ b, KeepsRom s (ppuOwnWrite s b v) := by
    intro b
    refine .ofCart (ppuOwnWrite_effects s b v).live ?_
    unfold ppuOwnWrite
    split <;> rfl
  unfold ppuWrite
  simp only
  split
  · exact own _
  · next c hc =>
    split
    · next k hk => exact .setCart hc (chrWrite_sameRom v hk)
    · exact .ofCart (fun _ => rfl) rfl
    · exact own _

theorem writePpuRegister_keepsRom (s : State) (r : BitVec 3) (v : Byte) : KeepsRom s (writePpuRegister s r v) := by
  by_cases h7 : r = 7
  · subst h7
    have hadvance : KeepsRom (ppuWrite s (ppuAddressOf s.ppu.vramAddr) v) (writePpuRegister s 7 v) :=
      .ofCart (advanceVramAddr_effects _).live rfl
    exact (ppuWrite_keepsRom s _ v).trans hadvance
  · obtain ⟨-, -, -, -, -, hcart, -⟩ := writePpuRegister_frame s r v
    exact .ofCart (writePpuRegister_effects s r v).live (hcart h7)

theorem cpuWrite_keepsRom (s : State) (a : Word) (v : Byte) : KeepsRom s (cpuWrite s a v) := by
  unfold cpuWrite
  split
  · next d hd =>
    obtain ⟨c, hc, hcd⟩ := Option.bind_eq_some_iff.mp hd
    exact .setCart hc (cartCpuWrite_sameRom hcd)
  · cases ht : busTarget a with
    | ppu r => simpa only [busOwnWrite, ht] using writePpuRegister_keepsRom s r v
    | _ =>
      refine .ofCart (busOwnWrite_effects s a v).live ?_
      simp only [busOwnWrite, ht, State.setRam_cart, State.setDma_cart, State.setPad_cart]

/-- The effects of a tick leave the ROM and the host's bytes alone. -/
theorem Moves.keepsRom {s t : State} (h : Moves s t) : KeepsRom s t := by
  induction h with
  | @registers s t g => exact .ofCart (fun k => by rw [g]; cases k <;> rfl) (by rw [g])
  | read s a => exact .ofCart (fun k => ((cpuRead_effects s a).pads k).1) (cpuRead_effects s a).cart
  | write s a v => exact cpuWrite_keepsRom s a v
  | dma | oam | nmiClear => exact .ofCart (fun k => by cases k <;> rfl) rfl
  | irqClear s hc => exact .setCart hc (cartIrqClear_sameRom _)
  | trans _ _ ihst ihtu => exact ihst.trans ihtu

theorem fetchWindow_cart (s : State) : (fetchWindow s).cart = s.cart := by
  unfold fetchWindow
  split
  · simp only
    split <;> rfl
  · rfl

theorem idleFetches_cart (s : State) : (idleFetches s).cart = s.cart := by
  unfold idleFetches
  split <;> rfl

theorem outputPixel_cart (s : State) : (outputPixel s).cart = s.cart := by
  unfold outputPixel
  split
  · split <;> rfl
  · rfl

theorem scanlineHook_cart (s : State) :
    (scanlineHook s).cart = s.cart ∨ (scanlineHook s).cart = s.cart.map cartScanline := by
  unfold scanlineHook
  split
  · exact .inr rfl
  · exact .inl rfl

/-- A PPU cycle reaches the cartridge through the scanline hook only (R673). -/
theorem ppuClock_cart (s : State) : (ppuClock s).cart = s.cart ∨ (ppuClock s).cart = s.cart.map cartScanline := by
  simp only [ppuClock, State.setPpu_cart, outputPixel_cart]
  refine (scanlineHook_cart _).imp (fun h => h.trans ?_) (fun h => h.trans ?_) <;>
    simp only [State.setPpu_cart, idleFetches_cart, fetchWindow_cart]

theorem ppuClock_keepsRom (s : State) : KeepsRom s (ppuClock s) := by
  have e := ppuClock_effects s
  have hlive : ∀ k, ((ppuClock s).pad k).live = (s.pad k).live := by
    intro k
    simp only [State.pad, e.pad0, e.pad1]
  rcases ppuClock_cart s with h | h
  · exact .ofCart hlive h
  · refine ⟨hlive, fun hc => ?_, fun c hc => ⟨cartScanline c, ?_, cartScanline_sameRom c⟩⟩ <;> (rw [h, hc]; rfl)

/-- Settles O10: the PPU cycle and every effect of the chain after it keep the ROM and the host's bytes. -/
theorem stepKeepsCartridgeRomAndHostBytes : Obligations.StepKeepsCartridgeRomAndHostBytes := by
  intro s t h
  obtain ⟨u, hu, rfl⟩ := step_moves h
  obtain ⟨hlive, hnone, hsome⟩ := (ppuClock_keepsRom s).trans hu.keepsRom
  refine ⟨hlive false, hlive true, hnone, fun c hc => ?_⟩
  obtain ⟨d, hd, h1, h2, h3, h4, h5, h6, h7⟩ := hsome c hc
  exact ⟨d, hd, h1, h2, h3, h4, h5, h6, h7⟩

end Sys2Proof.Machine
end

section
/-!
PROOFS of the fetch: the opcode table against the encoder, and the bytes a fetch takes.
-/
namespace Sys2Proof.Laws.OpcodeListed

/-- The statement of this namespace for every instruction. -/
theorem statement_all : (i : Instr) → Statement i
  | .adc m => adc m
  | .sbc m => sbc m
  | .and m => and m
  | .ora m => ora m
  | .eor m => eor m
  | .bit m => bit m
  | .asl t => asl t
  | .lsr t => lsr t
  | .rol t => rol t
  | .ror t => ror t
  | .bcc rel => bcc rel
  | .bcs rel => bcs rel
  | .beq rel => beq rel
  | .bne rel => bne rel
  | .bmi rel => bmi rel
  | .bpl rel => bpl rel
  | .bvc rel => bvc rel
  | .bvs rel => bvs rel
  | .cmp m => cmp m
  | .cpx m => cpx m
  | .cpy m => cpy m
  | .inc m => inc m
  | .dec m => dec m
  | .inx => inx
  | .iny => iny
  | .dex => dex
  | .dey => dey
  | .lda m => lda m
  | .ldx m => ldx m
  | .ldy m => ldy m
  | .sta m => sta m
  | .stx m => stx m
  | .sty m => sty m
  | .tax => tax
  | .tay => tay
  | .txa => txa
  | .tya => tya
  | .tsx => tsx
  | .txs => txs
  | .pha => pha
  | .pla => pla
  | .php => php
  | .plp => plp
  | .jmp t => jmp t
  | .jsr target => jsr target
  | .rts => rts
  | .brk => brk
  | .rti => rti
  | .clc => clc
  | .sec => sec
  | .cli => cli
  | .sei => sei
  | .cld => cld
  | .sed => sed
  | .clv => clv
  | .nop => nop
  | .illegal op => illegal op

end Sys2Proof.Laws.OpcodeListed

namespace Sys2Proof.Machine

/-! The fetch. -/

/-- The opcode table against the encoder, for one opcode byte after the other (R320). -/
theorem opcodeOf_decodeBytes_ofNat {n : Nat} (h : n < 256) (b1 b2 : Byte) :
    opcodeOf (decodeBytes (BitVec.ofNat 8 n) b1 b2) = some (BitVec.ofNat 8 n) := by
  interval_cases n <;> rfl

/-- What a table entry builds has that entry's opcode, whatever the operand bytes (R320). -/
theorem opcodeOf_decodeBytes (op b1 b2 : Byte) : opcodeOf (decodeBytes op b1 b2) = some op := by
  simpa using opcodeOf_decodeBytes_ofNat op.isLt b1 b2

/-- What a table entry builds stands in the opcode table (R320, R324). -/
theorem decodeBytes_wellFormed (op b1 b2 : Byte) : (decodeBytes op b1 b2).WellFormed := by
  obtain ⟨hsome, -⟩ := Laws.OpcodeListed.statement_all (decodeBytes op b1 b2)
  rw [Instr.WellFormed, ← hsome, opcodeOf_decodeBytes]
  rfl

/-- What a table entry builds has as many operand bytes as the opcode announces (R300, R301). -/
theorem length_operandBytes_decodeBytes (op b1 b2 : Byte) :
    (operandBytes (decodeBytes op b1 b2)).length = operandCount op := by
  obtain ⟨-, hcount⟩ := Laws.OpcodeListed.statement_all (decodeBytes op b1 b2)
  exact (hcount op (opcodeOf_decodeBytes op b1 b2)).symm

/-- No read looks at the CPU's registers. -/
theorem cpuRead_setPc_fst (s : State) (w a : Word) : (cpuRead (s.setPc w) a).1 = (cpuRead s a).1 := by
  unfold cpuRead busOwnRead readPpuRegister
  simp only [State.setPc_cart]
  split
  · rfl
  · split
    · rfl
    · split <;> rfl
    · rfl
    · next k _ => cases k <;> rfl
    · rfl

/-- The fetch of a byte without a read side effect: only PC moves (R55, R166). -/
theorem fetchByte_plain {s : State} (h : PlainAddress s.cpu.pc) :
    fetchByte s = ((cpuRead s s.cpu.pc).1, s.setPc (s.cpu.pc + 1)) := by
  simp only [fetchByte, cpuRead_plain s h]

/-- The same after PC has been moved. -/
theorem fetchByte_setPc_plain (s : State) {w : Word} (h : PlainAddress w) :
    fetchByte (s.setPc w) = ((cpuRead s w).1, s.setPc (w + 1)) := by
  rw [fetchByte_plain (s := s.setPc w) h]
  simp only [State.setPc_pc, cpuRead_setPc_fst]
  rfl

/-- The fetch at addresses without a read side effect: as many operand bytes as the opcode announces, and PC past them. -/
theorem fetchInstr_plain {s : State} (h : ∀ k : Nat, k < 3 → PlainAddress (s.cpu.pc + BitVec.ofNat 16 k)) :
    ∃ op operands rest, operandCount op = operands.length
      ∧ [(cpuRead s s.cpu.pc).1, (cpuRead s (s.cpu.pc + 1)).1, (cpuRead s (s.cpu.pc + 2)).1] = op :: (operands ++ rest)
      ∧ fetchInstr s = (decodeBytes op (operands.getD 0 0) (operands.getD 1 0),
        s.setPc (s.cpu.pc + BitVec.ofNat 16 (1 + operands.length))) := by
  have h0 : PlainAddress s.cpu.pc := by simpa using h 0 (by decide)
  have h1 : PlainAddress (s.cpu.pc + 1) := h 1 (by decide)
  have h2 : PlainAddress (s.cpu.pc + 2) := h 2 (by decide)
  have pc1 : s.cpu.pc + 1 + 1 = s.cpu.pc + 2 := by rw [BitVec.add_assoc]; rfl
  have pc2 : s.cpu.pc + 2 + 1 = s.cpu.pc + 3 := by rw [BitVec.add_assoc]; rfl
  have hcount : operandCount (cpuRead s s.cpu.pc).1 ≤ 2 := operandCount_le _
  unfold fetchInstr
  simp only [fetchByte_plain h0, fetchByte_setPc_plain s h1, pc1]
  obtain hn | hn | hn :
      operandCount (cpuRead s s.cpu.pc).1 = 0 ∨ operandCount (cpuRead s s.cpu.pc).1 = 1
        ∨ operandCount (cpuRead s s.cpu.pc).1 = 2 := by omega
  · exact ⟨_, [], _, hn, rfl, by rw [hn]; rfl⟩
  · exact ⟨_, [_], _, hn, rfl, by rw [hn]; rfl⟩
  · exact ⟨_, [_, _], _, hn, rfl, by rw [hn, fetchByte_setPc_plain s h2, pc2]; rfl⟩

/-- Settles O5: the fetch takes the bytes that the decoder takes, and what the decoder builds has as many. -/
theorem fetchReadsTheBytesAtPc : Obligations.FetchReadsTheBytesAtPc := by
  intro s i rest hplain hdecode
  obtain ⟨op, operands, rest', hlen, hbytes, hfetch⟩ := fetchInstr_plain hplain
  rw [hbytes, decode_cons hlen] at hdecode
  cases hdecode
  refine ⟨decodeBytes_wellFormed _ _ _, ?_⟩
  rw [length_operandBytes_decodeBytes, hlen, hfetch]

end Sys2Proof.Machine
end

section
/-!
PROOFS of the ticks that execute nothing and of the reset sequence.
-/
namespace Sys2Proof.Machine

/-! Ticks that execute nothing, and the end of every tick. -/

theorem step_master {s t : State} (h : step s = .next t) : t.master = s.master + 1 := by
  obtain ⟨u, hu, rfl⟩ := step_moves h
  rw [State.setMaster_master, hu.master, (ppuClock_effects s).master]

/-- Settles O6: the equations of the three ticks that do not fetch; that an execute tick ends with U set is how it is
defined. -/
theorem ticksThatDoNotFetch : Obligations.TicksThatDoNotFetch := by
  intro s
  have hmaster : (pollInterrupts s).master = s.master := (pollInterrupts_moves s).master
  refine ⟨step_ppuOnly, fun h hd hc => ⟨step_countDown h hd hc, ?_⟩, fun h hd => ⟨step_dma h hd, ?_⟩,
    fun _ => step_master, ?_, rfl, rfl⟩
  · rw [countDown, State.setCycles_cycles, ppuClock_cpu]
  · rw [dmaStep_cpu, ppuClock_cpu]
  · rw [endTick, hmaster]

/-! Reset. -/

/-- The reset sequence as one equation (R802). -/
theorem busReset_eq (a x y : Byte) (s : State) :
    busReset a x y s =
      { cpu := { a := a, x := x, y := y, sp := 0xFD,
                 pc := word16 (cpuRead (s.setCart (s.cart.map cartReset)) 0xFFFD).1
                   (cpuRead (s.setCart (s.cart.map cartReset)) 0xFFFC).1,
                 p := 0x34, cycles := 8 }
        ram := s.ram, master := 0, dma := Dma.reset, pad0 := padReset s.pad0, pad1 := padReset s.pad1
        ppu := ppuReset s.ppu, cart := s.cart.map cartReset, draws := s.draws } := by
  simp only [busReset, cpuReset_eq]
  rfl

/-- Settles O11: the fields of the reset state, and an empty slot's vector reads 0. -/
theorem resetSequenceLeavesTheseValues : Obligations.ResetSequenceLeavesTheseValues := by
  intro a x y s
  rw [busReset_eq]
  refine ⟨rfl, rfl, rfl, rfl, rfl, rfl, rfl, rfl, fun hnone => ?_⟩
  have hc : (s.setCart (s.cart.map cartReset)).cart = none := by rw [hnone]; rfl
  rw [cpuRead_noCart hc (by decide), cpuRead_noCart hc (by decide)]
  exact (by decide : word16 0 0 = 0)

/-- Settles O12, by the mapper's variant. -/
theorem mapperValuesAfterReset : Obligations.MapperValuesAfterReset := by
  intro c
  refine ⟨?_, fun h => ?_, fun m h => ?_, fun b h => ?_, fun b h => ?_, fun m h => ?_⟩
  · cases h : c.mapper <;> simp only [cartReset, h]
    rw [← h]
  all_goals simp only [cartReset, h]
  · rfl
  · cases hw : c.hwMirror <;> simp only [resetMapper4, headerMirrorBit, reduceCtorEq, if_true, if_false]

/-- Reset puts the raster and the Unused flag right, and keeps stores that are (R57, R79, R802). -/
theorem busReset_inv (a x y : Byte) {s : State} (hram : Memory.wf 2048 s.ram = true) (hppu : ppuWf (ppuReset s.ppu) = true)
    (hcart : slotWf s.cart = true) : (busReset a x y s).Inv := by
  rw [State.inv_iff, busReset_eq]
  refine ⟨⟨hram, hppu, ?_⟩, (by decide : (0x34 : Byte).getLsbD 5 = true)⟩
  cases hc : s.cart with
  | none => rfl
  | some c =>
    rw [hc] at hcart
    exact cartReset_wf hcart

theorem ppuReset_wf {q : Ppu} (h : ppuWf q = true) : ppuWf (ppuReset q) = true := by
  simp only [ppuWf, Bool.and_eq_true] at h ⊢
  obtain ⟨hstores, -⟩ := h
  exact ⟨hstores, rfl⟩

/-- Reset makes the PPU of any power-on well formed, wherever its raster stood (R89, R800). -/
theorem ppuReset_powerOn_wf (mem : PowerOnMem) (regs : Ppu) : ppuWf (ppuReset (ppuPowerOn mem regs)) = true := by
  simp only [ppuWf, Bool.and_eq_true]
  exact ⟨⟨⟨⟨⟨storeOfSize_wf _ _, storeOfSize_wf _ _⟩, storeOfSize_wf _ _⟩, storeOfSize_wf _ _⟩, rfl⟩, rfl⟩

theorem newMapper_wf {id : Nat} {hw : HeaderMirror} {sram : Memory} {m : Mapper} (h : newMapper id hw sram = some m)
    (hsram : Memory.wf 8192 sram = true) : mapperWf m = true := by
  unfold newMapper at h
  split at h <;> cases h
  case h_2 => exact hsram
  case h_5 => exact hsram
  all_goals rfl

/-- The cartridge of a valid image has the stores its header gives (R81, R811, R812). -/
theorem cartridgeOf_wf {image : List Byte} {m : Mapper} (h : imageValid image = true) (hm : mapperWf m = true) :
    cartWf (cartridgeOf image m) = true := by
  simp only [imageValid, Bool.and_eq_true, decide_eq_true_eq] at h
  obtain ⟨⟨-, hprg⟩, -⟩ := h
  have hchr : Memory.wf (chrSize (cartridgeOf image m)) (cartridgeOf image m).chr = true := by
    unfold chrSize
    split
    · next h0 =>
      have hnil : (cartridgeOf image m).chr = [] := by
        change imageStore image _ (8192 * (cartridgeOf image m).nChr.toNat) = []
        rw [h0]
        rfl
      rw [hnil]
      rfl
    · rw [Nat.mul_comm]
      exact storeOfSize_wf _ _
  have htrainer : trainerWf (cartridgeOf image m).trainer = true := by
    simp only [cartridgeOf]
    split
    · exact storeOfSize_wf 512 _
    · rfl
  simp only [cartWf, Bool.and_eq_true, decide_eq_true_eq]
  refine ⟨⟨⟨⟨hprg, ?_⟩, hchr⟩, htrainer⟩, hm⟩
  rw [Nat.mul_comm]
  exact storeOfSize_wf _ _

theorem loadCartridge_wf {sram image : List Byte} {c : Cartridge} (h : loadCartridge sram image = .ok c) :
    cartWf c = true := by
  unfold loadCartridge at h
  simp only at h
  split at h
  · next hvalid =>
    split at h <;> cases h
    next hm => exact cartridgeOf_wf hvalid (newMapper_wf hm (storeOfSize_wf _ _))
  · cases h

/-- Settles O8: reset needs stores that are well formed, which power-on, insertion and the invariant give it. -/
theorem resetMeetsTheMachineInvariant : Obligations.ResetMeetsTheMachineInvariant := by
  refine ⟨rfl, fun mem cpu regs a x y => ?_, fun s a x y hs => ?_, fun mem cpu regs sram image s a x y h => ?_⟩
  · exact busReset_inv a x y (storeOfSize_wf _ _) (ppuReset_powerOn_wf mem regs) rfl
  · obtain ⟨⟨hram, hppu, hcart⟩, -⟩ := (State.inv_iff s).mp hs
    exact busReset_inv a x y hram (ppuReset_wf hppu) hcart
  · unfold insertCartridge at h
    split at h <;> cases h
    next hload =>
    exact busReset_inv a x y (storeOfSize_wf _ _) (ppuReset_powerOn_wf mem regs) (loadCartridge_wf hload)

end Sys2Proof.Machine
end

section
/-!
PROOFS about the system bus: which part of the machine an access reaches, what a read can change, the mirrors of work RAM
and of the PPU's registers, and OAM DMA.
-/
namespace Sys2Proof.Machine

/-! An access is the cartridge's or the bus's own (R151, R152). -/

theorem cpuRead_handled {s : State} {c : Cartridge} {a : Word} {b : Byte} (hc : s.cart = some c)
    (h : cartCpuRead c a = some b) : cpuRead s a = (b, s) := by
  rw [cpuRead, hc, Option.bind_some, h]

theorem cpuWrite_handled {s : State} {c d : Cartridge} {a : Word} {v : Byte} (hc : s.cart = some c)
    (h : cartCpuWrite c a v = some d) : cpuWrite s a v = s.setCart (some d) := by
  rw [cpuWrite, hc, Option.bind_some, h]

theorem cpuRead_unhandled {s : State} {a : Word} (h : s.cart.bind (fun c => cartCpuRead c a) = none) :
    cpuRead s a = busOwnRead s a := by
  rw [cpuRead, h]

theorem cpuWrite_unhandled {s : State} {a : Word} {v : Byte} (h : s.cart.bind (fun c => cartCpuWrite c a v) = none) :
    cpuWrite s a v = busOwnWrite s a v := by
  rw [cpuWrite, h]

/-- Below 0x6000 no cartridge answers (R155). -/
theorem cpuRead_below (s : State) {a : Word} (h : a.toNat < 0x6000) : cpuRead s a = busOwnRead s a :=
  cpuRead_unhandled (Option.bind_eq_none_iff.mpr fun c _ => cartCpuRead_low c h)

theorem cpuWrite_below (s : State) {a : Word} (v : Byte) (h : a.toNat < 0x6000) :
    cpuWrite s a v = busOwnWrite s a v :=
  cpuWrite_unhandled (Option.bind_eq_none_iff.mpr fun c _ => cartCpuWrite_low c v h)

/-! The bus's own decode. -/

theorem busTarget_window {a : Word} (h : InPpuWindow a) : busTarget a = .ppu (ppuRegisterOf a) := by
  obtain ⟨h1, h2⟩ := h
  rw [busTarget, if_neg (by omega), if_pos h2]

theorem busTarget_above {a : Word} (h : 0x4000 ≤ a.toNat) :
    busTarget a = if a = 0x4014 then .dma else if a = 0x4016 ∨ a = 0x4017 then .pad (a.getLsbD 0) else .open := by
  rw [busTarget, if_neg (by omega), if_neg (by omega)]

/-- Settles O41: of the bus's own targets from 0x4000 on, a read reaches only the ports, a write also the DMA trigger. -/
theorem undecodedAddressesReadZero : Obligations.UndecodedAddressesReadZero := by
  constructor
  · intro s a ha h6 h7 hcart
    rw [cpuRead_unhandled hcart, busOwnRead, busTarget_above ha, if_neg (not_or_intro h6 h7)]
    by_cases h4 : a = 0x4014
    · rw [if_pos h4]
    · rw [if_neg h4]
  · intro s a v ha h4 h6 h7 hcart
    rw [cpuWrite_unhandled hcart, busOwnWrite, busTarget_above ha, if_neg h4, if_neg (not_or_intro h6 h7)]

/-- A port that keeps the host's byte and the strobe differs in its shift register only. -/
theorem Pad.eq_withShift {q r : Pad} (hlive : r.live = q.live) (hstrobe : r.strobe = q.strobe) :
    r = { q with shift := r.shift } := by
  rw [← hlive, ← hstrobe]

/-- Settles O39: the law of a read, and its frame by where the address lies. -/
theorem busReadsChangeOnlyDeviceLatches : Obligations.BusReadsChangeOnlyDeviceLatches := by
  intro s a t
  obtain ⟨hcpu, hram, hmaster, hdma, hcart, hppu, hpads⟩ := cpuRead_effects s a
  obtain ⟨hwindow, h6, h7⟩ := cpuRead_frame s a
  refine ⟨cpuRead_plain s, hcpu, hram, hmaster, hdma, hcart, hppu, fun k => ?_, fun h => (hwindow h).1, h6, h7⟩
  obtain ⟨hlive, hstrobe⟩ := hpads k
  exact Pad.eq_withShift hlive hstrobe

/-! Mirrors. -/

/-- The `n`-th mirror of a work RAM byte (R153). -/
theorem ramMirror_toNat {a : Word} (ha : a.toNat < 0x0800) {n : Nat} (hn : n < 4) :
    (a + BitVec.ofNat 16 (0x0800 * n)).toNat = a.toNat + 0x0800 * n := by
  rw [BitVec.toNat_add, BitVec.toNat_ofNat]
  omega

theorem ramMirror_low {a : Word} (ha : a.toNat < 0x0800) {n : Nat} (hn : n < 4) :
    (a + BitVec.ofNat 16 (0x0800 * n)).toNat < 0x2000 := by
  rw [ramMirror_toNat ha hn]
  omega

theorem ramIndex_mirror {a : Word} (ha : a.toNat < 0x0800) {n : Nat} (hn : n < 4) :
    ramIndex (a + BitVec.ofNat 16 (0x0800 * n)) = a.toNat := by
  rw [ramIndex, ramMirror_toNat ha hn]
  omega

/-- The first of the addresses that reach the PPU register of `a` (R154). -/
theorem ppuMirror_toNat (a : Word) : (0x2000 + (a &&& 7) : Word).toNat = 0x2000 + a.toNat % 8 := by
  have hmask : a.toNat &&& 7 = a.toNat % 8 := Nat.and_two_pow_sub_one_eq_mod a.toNat 3
  rw [BitVec.toNat_add, BitVec.toNat_and]
  change (0x2000 + (a.toNat &&& 7)) % 2 ^ 16 = _
  omega

theorem ppuMirror_window (a : Word) : InPpuWindow (0x2000 + (a &&& 7)) := by
  unfold InPpuWindow
  rw [ppuMirror_toNat]
  omega

theorem ppuRegisterOf_mirror (a : Word) : ppuRegisterOf (0x2000 + (a &&& 7)) = ppuRegisterOf a := by
  apply BitVec.eq_of_toNat_eq
  simp only [ppuRegisterOf, BitVec.extractLsb'_toNat, ppuMirror_toNat, Nat.shiftRight_zero]
  omega

/-- In the PPU's window an access is one to its register, whatever the cartridge (R154, R155). -/
theorem cpuRead_window (s : State) {a : Word} (h : InPpuWindow a) :
    cpuRead s a = readPpuRegister s (ppuRegisterOf a) := by
  rw [cpuRead_below s (h.2.trans (by decide)), busOwnRead, busTarget_window h]

theorem cpuWrite_window (s : State) {a : Word} (v : Byte) (h : InPpuWindow a) :
    cpuWrite s a v = writePpuRegister s (ppuRegisterOf a) v := by
  rw [cpuWrite_below s v (h.2.trans (by decide)), busOwnWrite, busTarget_window h]

/-- Settles O40: mirrors have one RAM index, or one PPU register. -/
theorem ramAndPpuRegisterMirrors : Obligations.RamAndPpuRegisterMirrors := by
  constructor
  · intro s a v j k ha hj hk mirror
    have hwrite : cpuWrite s (mirror j) v = s.setRam (Memory.write s.ram a.toNat v) := by
      rw [cpuWrite_ram s v (ramMirror_low ha hj), ramIndex_mirror ha hj]
    have hread (t : State) : cpuRead t (mirror k) = (Memory.read t.ram a.toNat, t) := by
      rw [cpuRead_ram t (ramMirror_low ha hk), ramIndex_mirror ha hk]
    refine ⟨hread s, ?_, hwrite⟩
    rw [hread, hwrite, State.setRam_ram, Memory.read_write_same]
  · intro s a v h
    rw [cpuRead_window s h, cpuRead_window s (ppuMirror_window a), cpuWrite_window s v h,
      cpuWrite_window s v (ppuMirror_window a), ppuRegisterOf_mirror]
    exact ⟨rfl, rfl⟩

/-! One step of OAM DMA (R190). -/

theorem dmaStep_wait {s : State} (h : s.dma.wait = true) :
    dmaStep s = if s.master % 2 = 1 then s.setDma { s.dma with wait := false } else s := if_pos h

theorem dmaStep_read {s : State} (h : s.dma.wait = false) (heven : s.master % 2 = 0) :
    dmaStep s = (cpuRead s (word16 s.dma.page s.dma.addr)).2.setDma
      { s.dma with data := (cpuRead s (word16 s.dma.page s.dma.addr)).1 } := by
  have hdma := (cpuRead_effects s (s.dma.page ++ s.dma.addr)).dma
  simp only [dmaStep, h, heven, hdma, Bool.false_eq_true, if_false, if_true]
  rfl

/-- The bookkeeping after a byte has been put into OAM: on to the next one, or done. -/
def dmaNext (d : Dma) : Dma :=
  if d.addr = 255 then { d with addr := 0, transfer := false, wait := true } else { d with addr := d.addr + 1 }

theorem dmaNext_last {d : Dma} (h : d.addr = 255) :
    dmaNext d = { d with addr := 0, transfer := false, wait := true } := if_pos h

theorem dmaNext_more {d : Dma} (h : d.addr ≠ 255) : dmaNext d = { d with addr := d.addr + 1 } := if_neg h

theorem dmaStep_write {s : State} (h : s.dma.wait = false) (hodd : s.master % 2 = 1) :
    dmaStep s = (s.setPpu { s.ppu with oam := Memory.write s.ppu.oam s.dma.addr.toNat s.dma.data }).setDma
      (dmaNext s.dma) := by
  have hlast : s.dma.addr + 1 = 0 ↔ s.dma.addr = 255 := by bv_omega
  simp only [dmaStep, dmaNext, h, hodd, hlast, Bool.false_eq_true, if_false, one_ne_zero, State.setPpu_dma]
  split
  · next h255 => rw [h255]; rfl
  · rfl

/-! A transfer: the alignment, then 256 times a read and a write (R190, R193). -/

theorem dmaTicks_one (s : State) : dmaTicks 1 s = (dmaStep s).setMaster (s.master + 3) := rfl

theorem dmaTicks_add (m n : Nat) (s : State) : dmaTicks (m + n) s = dmaTicks n (dmaTicks m s) := by
  induction m generalizing s with
  | zero => rw [Nat.zero_add]; rfl
  | succ m ih => rw [Nat.add_right_comm]; exact ih _

/-- A read and the write after it move one byte. -/
theorem dmaTicks_two {s : State} (h : s.dma.wait = false) (heven : s.master % 2 = 0) :
    let r := cpuRead s (word16 s.dma.page s.dma.addr)
    dmaTicks 2 s = ((r.2.setPpu { r.2.ppu with oam := Memory.write r.2.ppu.oam s.dma.addr.toNat r.1 }).setDma
      (dmaNext { s.dma with data := r.1 })).setMaster (s.master + 6) := by
  intro r
  have hread : dmaTicks 1 s = (r.2.setDma { s.dma with data := r.1 }).setMaster (s.master + 3) :=
    congrArg (State.setMaster · (s.master + 3)) (dmaStep_read h heven)
  have hodd : (dmaTicks 1 s).master % 2 = 1 := by
    rw [hread, State.setMaster_master]
    omega
  have hwait : (dmaTicks 1 s).dma.wait = false := by rw [hread]; exact h
  rw [dmaTicks_add 1 1, dmaTicks_one, dmaStep_write hwait hodd, hread]
  rfl

/-- The value of a plain read depends on work RAM and the cartridge alone. -/
theorem cpuRead_plain_congr {s t : State} {a : Word} (h : PlainAddress a) (hram : t.ram = s.ram)
    (hcart : t.cart = s.cart) : (cpuRead t a).1 = (cpuRead s a).1 := by
  unfold cpuRead busOwnRead
  rw [hcart]
  split
  · rfl
  · rcases busTarget_plain h with e | e | e <;> simp only [e, hram]

/-- The `k`-th source address of a transfer (R190). -/
def dmaSource (page : Byte) (k : Nat) : Word := BitVec.ofNat 16 (page.toNat * 256 + k)

theorem dmaSource_toNat (page : Byte) {k : Nat} (hk : k < 256) : (dmaSource page k).toNat = page.toNat * 256 + k := by
  have := page.isLt
  exact Nat.mod_eq_of_lt (by omega)

theorem word16_dmaSource (page : Byte) {k : Nat} (hk : k < 256) : word16 page (BitVec.ofNat 8 k) = dmaSource page k := by
  apply BitVec.eq_of_toNat_eq
  rw [word16_toNat, dmaSource_toNat page hk, BitVec.toNat_ofNat, Nat.mod_eq_of_lt (by omega)]

/-- `k` bytes of the page are in OAM, the plain ones as `s` holds them; outside the PPU and the DMA engine `t` is as
`s`. -/
structure Copied (s t : State) (k : Nat) : Prop where
  cpu : t.cpu = s.cpu
  ram : t.ram = s.ram
  cart : t.cart = s.cart
  oamAddr : t.ppu.oamAddr = s.ppu.oamAddr
  bytes : ∀ j, j < k → PlainAddress (dmaSource s.dma.page j) →
    Memory.read t.ppu.oam j = (cpuRead s (dmaSource s.dma.page j)).1

/-- The engine is about to read byte `k` of the page that `s` armed. -/
structure AtByte (s t : State) (k : Nat) : Prop where
  copied : Copied s t k
  page : t.dma.page = s.dma.page
  addr : t.dma.addr = BitVec.ofNat 8 k
  transfer : t.dma.transfer = s.dma.transfer
  wait : t.dma.wait = false
  even : t.master % 2 = 0

/-- On an odd tick the wait ends. -/
theorem AtByte.ofOdd {s t : State} (hcopied : Copied s t 0) (hdma : t.dma = s.dma) (hwait : s.dma.wait = true)
    (haddr : s.dma.addr = 0) (hodd : t.master % 2 = 1) : AtByte s (dmaTicks 1 t) 0 := by
  obtain ⟨hcpu, hram, hcart, hoam, hbytes⟩ := hcopied
  have hticks : dmaTicks 1 t = (t.setDma { t.dma with wait := false }).setMaster (t.master + 3) := by
    rw [dmaTicks_one, dmaStep_wait (hdma ▸ hwait), if_pos hodd]
  rw [hticks, hdma]
  exact ⟨⟨hcpu, hram, hcart, hoam, hbytes⟩, rfl, haddr, rfl, rfl, by rw [State.setMaster_master]; omega⟩

/-- The alignment takes one tick from an odd tick on, two from an even one (R190). -/
theorem dmaTicks_align {s : State} (hwait : s.dma.wait = true) (haddr : s.dma.addr = 0) :
    AtByte s (dmaTicks (if s.master % 2 = 1 then 1 else 2) s) 0 := by
  have start (m : Nat) : Copied s (s.setMaster m) 0 := ⟨rfl, rfl, rfl, rfl, fun j hj => absurd hj (Nat.not_lt_zero j)⟩
  by_cases hodd : s.master % 2 = 1
  · rw [if_pos hodd]
    exact .ofOdd (start s.master) rfl hwait haddr hodd
  · have hskip : dmaTicks 1 s = s.setMaster (s.master + 3) := by
      rw [dmaTicks_one, dmaStep_wait hwait, if_neg hodd]
    rw [if_neg hodd, dmaTicks_add 1 1, hskip]
    exact .ofOdd (start _) rfl hwait haddr (by rw [State.setMaster_master]; omega)

/-- The next two ticks copy byte `k`. -/
theorem AtByte.copies {s t : State} {k : Nat} (h : AtByte s t k) (hk : k < 256) :
    Copied s (dmaTicks 2 t) (k + 1)
      ∧ (∃ v, (dmaTicks 2 t).dma = dmaNext { t.dma with data := v }) ∧ (dmaTicks 2 t).master % 2 = 0 := by
  obtain ⟨⟨hcpu, hram, hcart, hoam, hbytes⟩, hpage, haddr, -, hwait, heven⟩ := h
  have hindex : (BitVec.ofNat 8 k).toNat = k := Nat.mod_eq_of_lt (by omega)
  have r := cpuRead_effects t (dmaSource s.dma.page k)
  have two := dmaTicks_two hwait heven
  simp only [hpage, haddr, hindex, word16_dmaSource _ hk] at two
  rw [two]
  refine ⟨⟨r.cpu.trans hcpu, r.ram.trans hram, r.cart.trans hcart, ?_, fun j hj hplain => ?_⟩,
    ⟨(cpuRead t (dmaSource s.dma.page k)).1, ?_⟩, ?_⟩
  · simp only [State.setMaster_ppu, State.setDma_ppu, State.setPpu_ppu]
    rw [r.ppu]
    exact hoam
  · simp only [State.setMaster_ppu, State.setDma_ppu, State.setPpu_ppu]
    rw [Memory.read_write]
    split
    · next e => rw [e] at hplain ⊢; exact cpuRead_plain_congr hplain hram hcart
    · rw [r.ppu]
      exact hbytes j (by omega) hplain
  · rw [State.setMaster_dma, State.setDma_dma, ← hpage, ← haddr]
  · rw [State.setMaster_master]
    omega

/-- Two ticks for each byte before the last. -/
theorem AtByte.advance {s t : State} (h : AtByte s t 0) (k : Nat) (hk : k < 256) : AtByte s (dmaTicks (2 * k) t) k := by
  induction k with
  | zero => exact h
  | succ k ih =>
    have hat := ih (by omega)
    obtain ⟨hcopied, ⟨v, hdma⟩, heven⟩ := hat.copies (by omega)
    have hmore : (dmaTicks (2 * k) t).dma.addr ≠ 255 := by
      rw [hat.addr]
      bv_omega
    have hnext := hdma.trans (dmaNext_more hmore)
    rw [Nat.mul_succ, dmaTicks_add]
    refine ⟨hcopied, ?_, ?_, ?_, ?_, heven⟩ <;> rw [hnext]
    · exact hat.page
    · exact (congrArg (· + 1) hat.addr).trans (BitVec.ofNat_add k 1).symm
    · exact hat.transfer
    · exact hat.wait

/-- At the last byte the read leaves the transfer in flight and the write ends it (R190, R193). -/
theorem AtByte.last {s t : State} (h : AtByte s t 255) :
    (dmaTicks 1 t).dma.transfer = s.dma.transfer ∧ (dmaTicks 2 t).dma.transfer = false := by
  constructor
  · rw [dmaTicks_one, State.setMaster_dma, dmaStep_read h.wait h.even]
    exact h.transfer
  · obtain ⟨-, ⟨v, hdma⟩, -⟩ := h.copies (by decide)
    rw [hdma.trans (dmaNext_last h.addr)]

/-- From the first read on, 256 bytes take 512 ticks. -/
theorem AtByte.finish {s t : State} (h : AtByte s t 0) :
    (dmaTicks 511 t).dma.transfer = s.dma.transfer ∧ (dmaTicks 512 t).dma.transfer = false
      ∧ Copied s (dmaTicks 512 t) 256 := by
  have hat : AtByte s (dmaTicks 510 t) 255 := h.advance 255 (by decide)
  rw [dmaTicks_add 510 1, dmaTicks_add 510 2]
  exact ⟨hat.last.1, hat.last.2, (hat.copies (by decide)).1⟩

/-- Settles O48: the write to 0x4014; a transfer as its alignment and 256 copies; and the equations of one step. -/
theorem dmaCopiesThePageIntoOam : Obligations.DmaCopiesThePageIntoOam := by
  refine ⟨fun s v => ?_, fun s htransfer hwait haddr => ?_, fun s => ⟨dmaStep_wait, dmaStep_read, fun h hodd => ?_⟩⟩
  · rw [cpuWrite_below s v (by decide)]
    rfl
  · intro n t source
    obtain ⟨p, hp, hat⟩ : ∃ p, n = p + 512 ∧ AtByte s (dmaTicks p s) 0 :=
      ⟨_, by unfold n; split <;> rfl, dmaTicks_align hwait haddr⟩
    have ht : t = dmaTicks 512 (dmaTicks p s) := by rw [← dmaTicks_add, ← hp]
    have hbefore : dmaTicks (n - 1) s = dmaTicks 511 (dmaTicks p s) := by rw [← dmaTicks_add, hp]; rfl
    obtain ⟨hflight, hdone, hcpu, hram, hcart, hoam, hbytes⟩ := hat.finish
    rw [hbefore, ht]
    refine ⟨hflight.trans htransfer, hdone, hoam, hram, hcpu, hcart, fun hplain k hk => hbytes k hk (hplain k hk),
      fun hpage k hk => ?_⟩
    have hlow : (dmaSource s.dma.page k).toNat < 0x2000 := by
      rw [dmaSource_toNat _ hk]
      omega
    rw [hbytes k hk (.ofRam hlow), cpuRead_ram s hlow, ramIndex, dmaSource_toNat _ hk]
  · exact ⟨_, dmaStep_write h hodd, fun k => Memory.read_write _ _ _ _⟩

end Sys2Proof.Machine
end

section
/-!
PROOFS about the PPU's address space: where an address of each range is read and written, the aliases, and what a write
leaves alone.
-/
namespace Sys2Proof.Machine

/-! The 14-bit address (R200). -/

theorem ppuAddress_toNat (a : Word) : (a &&& 0x3FFF).toNat = a.toNat % 0x4000 := by
  rw [BitVec.toNat_and]
  exact Nat.and_two_pow_sub_one_eq_mod a.toNat 14

theorem ppuAddress_of_lt {a : Word} (h : a.toNat < 0x4000) : a &&& 0x3FFF = a := by
  apply BitVec.eq_of_toNat_eq
  rw [ppuAddress_toNat, Nat.mod_eq_of_lt h]

theorem ppuAddress_idem (a : Word) : a &&& 0x3FFF &&& 0x3FFF = a &&& 0x3FFF := by
  rw [BitVec.and_assoc, BitVec.and_self]

theorem ppuRead_ppuAddress (s : State) (a : Word) : ppuRead s (a &&& 0x3FFF) = ppuRead s a := by
  simp only [ppuRead, ppuAddress_idem]

theorem ppuWrite_ppuAddress (s : State) (a : Word) (v : Byte) : ppuWrite s (a &&& 0x3FFF) v = ppuWrite s a v := by
  simp only [ppuWrite, ppuAddress_idem]

/-! The indexes (R202, R203). -/

theorem paletteIndex_ppuAddress (a : Word) : paletteIndex (a &&& 0x3FFF) = paletteIndex a := by
  have h : (a &&& 0x3FFF).toNat % 32 = a.toNat % 32 := by
    rw [ppuAddress_toNat]
    omega
  rw [paletteIndex, paletteIndex, h]

theorem nametableBank_eq (m : Mirroring) (a : Word) :
    nametableBank m a = match m with
      | .vertical => a.toNat / 0x400 % 2
      | .horizontal => a.toNat / 0x800 % 2
      | .oneScreenLow => 0
      | .oneScreenHigh => 1 := by
  cases m <;> simp only [nametableBank, BitVec.extractLsb'_toNat, Nat.shiftRight_eq_div_pow]

theorem nametableIndex_ppuAddress (m : Mirroring) (a : Word) :
    nametableIndex m (a &&& 0x3FFF) = nametableIndex m a := by
  cases m <;> simp only [nametableIndex, nametableBank_eq, ppuAddress_toNat] <;> omega

/-- The palette entry of four times `k` is also the one 16 further on (R203). -/
theorem paletteIndex_add_0x10 : ∀ k : Nat, k < 4 →
    paletteIndex (BitVec.ofNat 16 (0x3F00 + 4 * k) + 0x10) = paletteIndex (BitVec.ofNat 16 (0x3F00 + 4 * k)) := by
  decide

/-! Reads and writes that the cartridge does not handle (R200). -/

theorem ppuMapRead_high (c : Cartridge) {a : Word} (h : 0x2000 ≤ a.toNat) : ppuMapRead c a = .notHandled :=
  if_neg (by omega)

theorem ppuMapWrite_high (c : Cartridge) {a : Word} (h : 0x2000 ≤ a.toNat) : ppuMapWrite c a = .notHandled :=
  if_neg (by omega)

theorem ppuRead_own (s : State) {a : Word} (h : s.cart = none ∨ 0x2000 ≤ a.toNat % 0x4000) :
    ppuRead s a = ppuOwnRead s (a &&& 0x3FFF) := by
  unfold ppuRead
  cases hc : s.cart with
  | none => rfl
  | some c =>
    have hhigh : 0x2000 ≤ (a &&& 0x3FFF).toNat := by
      rw [ppuAddress_toNat]
      exact h.resolve_left (by rw [hc]; exact nofun)
    simp only [ppuMapRead_high c hhigh]

theorem ppuWrite_own (s : State) {a : Word} (v : Byte) (h : s.cart = none ∨ 0x2000 ≤ a.toNat % 0x4000) :
    ppuWrite s a v = ppuOwnWrite s (a &&& 0x3FFF) v := by
  unfold ppuWrite
  cases hc : s.cart with
  | none => rfl
  | some c =>
    have hhigh : 0x2000 ≤ (a &&& 0x3FFF).toNat := by
      rw [ppuAddress_toNat]
      exact h.resolve_left (by rw [hc]; exact nofun)
    simp only [ppuMapWrite_high c hhigh]

section
variable (s : State) {a : Word}

theorem ppuTarget_pattern (cart : Option Cartridge) (h : a.toNat % 0x4000 < 0x2000) :
    ppuTarget cart (a &&& 0x3FFF) = .pattern (a.toNat % 0x4000) := by
  rw [ppuTarget, ppuAddress_toNat, if_pos h, patternIndex, ppuAddress_toNat, Nat.mod_eq_of_lt h]

theorem ppuTarget_nametable (cart : Option Cartridge) (h : 0x2000 ≤ a.toNat % 0x4000) (h' : a.toNat % 0x4000 < 0x3F00) :
    ppuTarget cart (a &&& 0x3FFF) = .nametable (nametableIndex (currentMirroring cart) a) := by
  rw [ppuTarget, ppuAddress_toNat, if_neg (by omega), if_pos h', nametableIndex_ppuAddress]

theorem ppuTarget_palette (cart : Option Cartridge) (h : 0x3F00 ≤ a.toNat % 0x4000) :
    ppuTarget cart (a &&& 0x3FFF) = .palette (paletteIndex a) := by
  rw [ppuTarget, ppuAddress_toNat, if_neg (by omega), if_neg (by omega), paletteIndex_ppuAddress]

/-! The byte each range reads, and the store each range writes. -/

theorem ppuRead_pattern (hc : s.cart = none) (h : a.toNat % 0x4000 < 0x2000) :
    ppuRead s a = Memory.read s.ppu.pat (a.toNat % 0x4000) := by
  rw [ppuRead_own s (.inl hc), ppuOwnRead, ppuTarget_pattern _ h]

theorem ppuRead_nametable (h : 0x2000 ≤ a.toNat % 0x4000) (h' : a.toNat % 0x4000 < 0x3F00) :
    ppuRead s a = Memory.read s.ppu.nt (nametableIndex (currentMirroring s.cart) a) := by
  rw [ppuRead_own s (.inr h), ppuOwnRead, ppuTarget_nametable _ h h']

theorem ppuRead_palette (h : 0x3F00 ≤ a.toNat % 0x4000) : ppuRead s a = Memory.read s.ppu.pal (paletteIndex a) := by
  rw [ppuRead_own s (.inr (by omega)), ppuOwnRead, ppuTarget_palette _ h]

theorem ppuRead_chr {c : Cartridge} {k : Nat} (hc : s.cart = some c) (h : ppuMapRead c (a &&& 0x3FFF) = .chr k) :
    ppuRead s a = Memory.read c.chr k := by
  simp only [ppuRead, hc, h]

variable (v : Byte)

theorem ppuWrite_pattern (hc : s.cart = none) (h : a.toNat % 0x4000 < 0x2000) :
    ppuWrite s a v = s.setPpu { s.ppu with pat := Memory.write s.ppu.pat (a.toNat % 0x4000) v } := by
  rw [ppuWrite_own s v (.inl hc), ppuOwnWrite, ppuTarget_pattern _ h]

theorem ppuWrite_nametable (h : 0x2000 ≤ a.toNat % 0x4000) (h' : a.toNat % 0x4000 < 0x3F00) :
    ppuWrite s a v = s.setPpu { s.ppu with
      nt := Memory.write s.ppu.nt (nametableIndex (currentMirroring s.cart) a) v } := by
  rw [ppuWrite_own s v (.inr h), ppuOwnWrite, ppuTarget_nametable _ h h']

theorem ppuWrite_palette (h : 0x3F00 ≤ a.toNat % 0x4000) :
    ppuWrite s a v = s.setPpu { s.ppu with pal := Memory.write s.ppu.pal (paletteIndex a) v } := by
  rw [ppuWrite_own s v (.inr (by omega)), ppuOwnWrite, ppuTarget_palette _ h]

theorem ppuWrite_chrRom {c : Cartridge} (hc : s.cart = some c) (hrom : c.nChr ≠ 0) (h : a.toNat % 0x4000 < 0x2000) :
    ppuWrite s a v = s := by
  simp only [ppuWrite, hc, ppuMapWrite, ppuAddress_toNat, h, hrom, if_true, if_false]

theorem ppuWrite_chrRam {c : Cartridge} (hc : s.cart = some c) (hram : c.nChr = 0) (h : a.toNat % 0x4000 < 0x2000) :
    ppuWrite s a v = s.setCart (some { c with chr := Memory.write c.chr (a.toNat % 0x4000) v }) := by
  simp only [ppuWrite, hc, ppuMapWrite, ppuAddress_toNat, h, hram, if_true]

end

/-! What a write leaves alone. -/

/-- Below 0x2000 a read looks at the cartridge and the pattern store only (R200). -/
theorem ppuRead_pattern_congr {s t : State} {a : Word} (h : a.toNat % 0x4000 < 0x2000) (hcart : t.cart = s.cart)
    (hpat : t.ppu.pat = s.ppu.pat) : ppuRead t a = ppuRead s a := by
  simp only [ppuRead, ppuOwnRead, hcart, ppuTarget_pattern _ h, hpat]

/-- Below 0x2000 a write leaves the nametables, their arrangement and the palette (R200). -/
theorem ppuWrite_low_frame (s : State) {a : Word} (v : Byte) (h : a.toNat % 0x4000 < 0x2000) :
    (ppuWrite s a v).ppu.nt = s.ppu.nt ∧ (ppuWrite s a v).ppu.pal = s.ppu.pal
      ∧ currentMirroring (ppuWrite s a v).cart = currentMirroring s.cart := by
  cases hc : s.cart with
  | none =>
    rw [ppuWrite_pattern s v hc h]
    exact ⟨rfl, rfl, by rw [State.setPpu_cart, hc]⟩
  | some c =>
    by_cases hram : c.nChr = 0
    · rw [ppuWrite_chrRam s v hc hram h]
      exact ⟨rfl, rfl, rfl⟩
    · rw [ppuWrite_chrRom s v hc hram h, hc]
      exact ⟨rfl, rfl, rfl⟩

/-- The store an address of the 14-bit space lies in: patterns, nametables or palette (R200). -/
def ppuRange (a : Word) : Nat := if a.toNat < 0x2000 then 0 else if a.toNat < 0x3F00 then 1 else 2

/-- A write to one store leaves what the others read (R200). -/
theorem ppuRead_ppuWrite_otherRange (s : State) {a b : Word} (v : Byte) (ha : a.toNat < 0x4000) (hb : b.toNat < 0x4000)
    (h : ppuRange a ≠ ppuRange b) : ppuRead (ppuWrite s a v) b = ppuRead s b := by
  have ea : a.toNat % 0x4000 = a.toNat := Nat.mod_eq_of_lt ha
  have eb : b.toNat % 0x4000 = b.toNat := Nat.mod_eq_of_lt hb
  by_cases ha0 : a.toNat < 0x2000
  · obtain ⟨hnt, hpal, hmirror⟩ := ppuWrite_low_frame s v (ea.trans_lt ha0)
    by_cases hb1 : b.toNat < 0x3F00
    · have hb0 : 0x2000 ≤ b.toNat := by
        by_contra hb0
        exact h (by rw [ppuRange, ppuRange, if_pos ha0, if_pos (by omega)])
      rw [ppuRead_nametable _ (by omega) (by omega), ppuRead_nametable _ (by omega) (by omega), hnt, hmirror]
    · rw [ppuRead_palette _ (by omega), ppuRead_palette _ (by omega), hpal]
  · by_cases ha1 : a.toNat < 0x3F00
    · rw [ppuWrite_nametable s v (by omega) (by omega)]
      by_cases hb0 : b.toNat < 0x2000
      · exact ppuRead_pattern_congr (eb.trans_lt hb0) rfl rfl
      · have hb1 : ¬ b.toNat < 0x3F00 := fun hb1 =>
          h (by rw [ppuRange, ppuRange, if_neg ha0, if_neg hb0, if_pos ha1, if_pos hb1])
        rw [ppuRead_palette _ (by omega), ppuRead_palette _ (by omega)]
        rfl
    · rw [ppuWrite_palette s v (by omega)]
      by_cases hb0 : b.toNat < 0x2000
      · exact ppuRead_pattern_congr (eb.trans_lt hb0) rfl rfl
      · have hb1 : b.toNat < 0x3F00 := by
          by_contra hb1
          exact h (by rw [ppuRange, ppuRange, if_neg ha0, if_neg hb0, if_neg ha1, if_neg hb1])
        rw [ppuRead_nametable _ (by omega) (by omega), ppuRead_nametable _ (by omega) (by omega)]
        rfl

/-! A read after a write to the same store. -/

theorem ppuRead_ppuWrite_palette (s : State) {a b : Word} (v : Byte) (ha : 0x3F00 ≤ a.toNat % 0x4000)
    (hb : 0x3F00 ≤ b.toNat % 0x4000) :
    ppuRead (ppuWrite s a v) b = if paletteIndex a = paletteIndex b then v else ppuRead s b := by
  rw [ppuRead_palette _ hb, ppuRead_palette s hb, ppuWrite_palette s v ha, State.setPpu_ppu, Memory.read_write]
  simp only [eq_comm]

theorem ppuRead_ppuWrite_nametable (s : State) {a b : Word} (v : Byte) (ha : 0x2000 ≤ a.toNat % 0x4000)
    (ha' : a.toNat % 0x4000 < 0x3F00) (hb : 0x2000 ≤ b.toNat % 0x4000) (hb' : b.toNat % 0x4000 < 0x3F00) :
    ppuRead (ppuWrite s a v) b =
      if nametableIndex (currentMirroring s.cart) a = nametableIndex (currentMirroring s.cart) b then v
      else ppuRead s b := by
  rw [ppuRead_nametable _ hb hb', ppuRead_nametable s hb hb', ppuWrite_nametable s v ha ha', State.setPpu_ppu,
    State.setPpu_cart, Memory.read_write]
  simp only [eq_comm]

theorem ppuRead_ppuWrite_pattern (s : State) {a b : Word} (v : Byte) (hc : s.cart = none) (ha : a.toNat < 0x2000)
    (hb : b.toNat < 0x2000) : ppuRead (ppuWrite s a v) b = if a = b then v else ppuRead s b := by
  have ea : a.toNat % 0x4000 = a.toNat := Nat.mod_eq_of_lt (by omega)
  have eb : b.toNat % 0x4000 = b.toNat := Nat.mod_eq_of_lt (by omega)
  rw [ppuWrite_pattern s v hc (by omega), ppuRead_pattern s hc (by omega),
    ppuRead_pattern _ (by exact hc) (by omega), State.setPpu_ppu, Memory.read_write, ea, eb]
  simp only [BitVec.toNat_inj, eq_comm]

/-- Settles O46: each range reads and writes one store at one index. -/
theorem ppuMemoriesAndTheirAliases : Obligations.PpuMemoriesAndTheirAliases := by
  have small {a : Word} (h : a.toNat < 0x4000) : a.toNat % 0x4000 = a.toNat := Nat.mod_eq_of_lt h
  refine ⟨fun a => ?_, fun s v a b ha ha' hb hb' => ?_, fun k hk s v => ?_, fun s v a b ha ha' hb hb' => ?_,
    fun a => ?_, fun s v a b ha hb => ppuRead_ppuWrite_otherRange s v ha hb,
    fun s v a b hc ha hb => ppuRead_ppuWrite_pattern s v hc ha hb, fun s v a => ?_⟩
  · simp only [paletteIndex, List.mem_cons, List.not_mem_nil, or_false]
  · exact ppuRead_ppuWrite_palette s v (by rwa [small ha']) (by rwa [small hb'])
  · intro base
    have hbase : 0x3F00 ≤ base.toNat % 0x4000 ∧ 0x3F00 ≤ (base + 0x10).toNat % 0x4000 := by
      unfold base
      rw [BitVec.toNat_add, BitVec.toNat_ofNat]
      change _ ∧ 0x3F00 ≤ ((0x3F00 + 4 * k) % 2 ^ 16 + 16) % 2 ^ 16 % 0x4000
      omega
    obtain ⟨h, h'⟩ := hbase
    rw [ppuRead_ppuWrite_palette s v h' h, ppuRead_ppuWrite_palette s v h h', if_pos (paletteIndex_add_0x10 k hk),
      if_pos (paletteIndex_add_0x10 k hk).symm]
    exact ⟨rfl, rfl⟩
  · exact ppuRead_ppuWrite_nametable s v (by omega) (by omega) (by omega) (by omega)
  · simp only [nametableIndex, nametableBank_eq, Nat.zero_mul, Nat.zero_add, Nat.one_mul, and_self]
  · intro q t w table puts
    have put (old : Memory) (k : Nat) : puts old (Memory.write old k v) k := fun _ => Memory.read_write _ _ _ _
    refine ⟨(ppuRead_ppuAddress s a).symm, (ppuWrite_ppuAddress s a v).symm, fun h h' => ?_, fun h => ?_, fun h hc => ?_,
      fun c hc h => ⟨fun hrom => ppuWrite_chrRom s v hc hrom h, fun hram => ?_⟩⟩
    · exact ⟨ppuRead_nametable s h h', _, ppuWrite_nametable s v h h', put _ _⟩
    · exact ⟨ppuRead_palette s h, _, ppuWrite_palette s v h, put _ _⟩
    · exact ⟨ppuRead_pattern s hc h, _, ppuWrite_pattern s v hc h, put _ _⟩
    · exact ⟨_, ppuWrite_chrRam s v hc hram h, put _ _⟩

end Sys2Proof.Machine
end

section
/-!
PROOFS about the cartridge on the CPU side: the program windows of each mapper, the static RAM, and the writes to the
mappers' registers.
-/
namespace Sys2Proof.Machine

/-! From 0x8000 on every mapper reads PRG and takes the write (R171, R173, R177, R179, R181). -/

section
variable {c : Cartridge} {a : Word} (h : 0x8000 ≤ a.toNat)
include h

theorem cpuMapRead_mapper0 (hm : c.mapper = .mapper0) : cpuMapRead c a = .prg (fixedPrgOffset c.nPrg.toNat a) := by
  simp only [cpuMapRead, hm, h, if_true]

theorem cpuMapRead_mapper1 {m : Mapper1} (hm : c.mapper = .mapper1 m) :
    cpuMapRead c a = .prg (mapper1PrgOffset m c.nPrg.toNat a) := by
  simp only [cpuMapRead, hm, h, if_true]

theorem cpuMapRead_mapper2 {b : Byte} (hm : c.mapper = .mapper2 b) :
    cpuMapRead c a = .prg (mapper2PrgOffset b c.nPrg.toNat a) := by
  simp only [cpuMapRead, hm, h, if_true]

theorem cpuMapRead_mapper3 {b : Byte} (hm : c.mapper = .mapper3 b) :
    cpuMapRead c a = .prg (fixedPrgOffset c.nPrg.toNat a) := by
  simp only [cpuMapRead, hm, h, if_true]

theorem cpuMapRead_mapper4 {m : Mapper4} (hm : c.mapper = .mapper4 m) :
    cpuMapRead c a = .prg (mapper4PrgOffset m c.nPrg.toNat a) := by
  simp only [cpuMapRead, hm, h, if_true]

variable (v : Byte)

theorem cartCpuWrite_mapper0 (hm : c.mapper = .mapper0) : cartCpuWrite c a v = some c := by
  simp only [cartCpuWrite, hm, h, if_true]

theorem cartCpuWrite_mapper1 {m : Mapper1} (hm : c.mapper = .mapper1 m) :
    cartCpuWrite c a v = some { c with mapper := .mapper1 (mapper1Write m a v) } := by
  simp only [cartCpuWrite, hm, h, if_true]

theorem cartCpuWrite_mapper2 {b : Byte} (hm : c.mapper = .mapper2 b) :
    cartCpuWrite c a v = some { c with mapper := .mapper2 (v &&& 0x0F) } := by
  simp only [cartCpuWrite, hm, h, if_true]

theorem cartCpuWrite_mapper3 {b : Byte} (hm : c.mapper = .mapper3 b) :
    cartCpuWrite c a v = some { c with mapper := .mapper3 (v &&& 0x03) } := by
  simp only [cartCpuWrite, hm, h, if_true]

theorem cartCpuWrite_mapper4 {m : Mapper4} (hm : c.mapper = .mapper4 m) :
    cartCpuWrite c a v = some { c with mapper := .mapper4 (mapper4Write m a v) } := by
  simp only [cartCpuWrite, hm, h, if_true]

end

/-- A read of a mapped PRG byte has no side effect (R166). -/
theorem cpuRead_prg {s : State} {c : Cartridge} {a : Word} {offset : Nat} (hc : s.cart = some c)
    (h : cpuMapRead c a = .prg offset) : cpuRead s a = (Memory.read c.prg offset, s) :=
  cpuRead_handled hc (by simp only [cartCpuRead, h, prgByte])

theorem State.setCart_self {s : State} {c : Cartridge} (hc : s.cart = some c) : s.setCart (some c) = s := by
  rw [← hc]
  rfl

/-! Mappers 0, 2 and 3. -/

/-- Mappers without static RAM handle nothing below 0x8000 (D30). -/
theorem cart_noSram {c : Cartridge} {a : Word} (v : Byte) (h : a.toNat < 0x8000)
    (hm : c.mapper = .mapper0 ∨ (∃ b, c.mapper = .mapper2 b) ∨ ∃ b, c.mapper = .mapper3 b) :
    cartCpuRead c a = none ∧ cartCpuWrite c a v = none := by
  have hlow : ¬ 0x8000 ≤ a.toNat := by omega
  rcases hm with hm | ⟨b, hm⟩ | ⟨b, hm⟩ <;>
    simp only [cartCpuRead, cpuMapRead, cartCpuWrite, hm, hlow, if_false, and_self]

/-- The last bank's number needs no reduction, even of an empty store (R177, R185). -/
theorem bankOffset_last (n size offset : Nat) : bankOffset (n - 1) n size offset = (n - 1) * size + offset := by
  rw [bankOffset]
  cases n with
  | zero => rfl
  | succ n => rw [Nat.mod_eq_of_lt (by omega)]

theorem mapper2PrgOffset_eq (b : Byte) (n : Nat) (a : Word) :
    mapper2PrgOffset b n a = (if a.toNat < 0xC000 then b.toNat % n else n - 1) * 16384 + a.toNat % 0x4000 := by
  rw [mapper2PrgOffset]
  split
  · rfl
  · rw [bankOffset_last]

/-- Settles O54, mapper by mapper. -/
theorem programWindowsOfMappers023 : Obligations.ProgramWindowsOfMappers023 := by
  intro s c a v hc n fixed
  refine ⟨cart_noSram v, fun h hm => ⟨cpuRead_prg hc (cpuMapRead_mapper0 h hm), ?_⟩,
    fun b h hm => ⟨cpuRead_prg hc (cpuMapRead_mapper3 h hm), cpuWrite_handled hc (cartCpuWrite_mapper3 h v hm)⟩,
    fun b h hm => ⟨?_, cpuWrite_handled hc (cartCpuWrite_mapper2 h v hm)⟩⟩
  · rw [cpuWrite_handled hc (cartCpuWrite_mapper0 h v hm), State.setCart_self hc]
  · rw [cpuRead_prg hc (cpuMapRead_mapper2 h hm), mapper2PrgOffset_eq]

/-! Mapper 1's windows (R173). -/

theorem mapper1_mode (m : Mapper1) : (m.control.extractLsb' 2 2).toNat = m.control.toNat / 4 % 4 := by
  rw [BitVec.extractLsb'_toNat, Nat.shiftRight_eq_div_pow]

section
variable {m : Mapper1} (n : Nat) (a : Word)

theorem mapper1PrgOffset_32k (h : m.control.toNat / 4 % 4 < 2) :
    mapper1PrgOffset m n a = if n < 2 then Config.oneBankOffset m.prg.toNat (a.toNat % 0x8000) % (n * 16384)
      else bankOffset (m.prg.toNat / 2) (n / 2) 32768 (a.toNat % 0x8000) := by
  obtain h | h : m.control.toNat / 4 % 4 = 0 ∨ m.control.toNat / 4 % 4 = 1 := by omega
  all_goals simp only [mapper1PrgOffset, mapper1_mode, h]

theorem mapper1PrgOffset_fixFirst (h : m.control.toNat / 4 % 4 = 2) :
    mapper1PrgOffset m n a = (if a.toNat < 0xC000 then 0 else m.prg.toNat % n) * 16384 + a.toNat % 0x4000 := by
  simp only [mapper1PrgOffset, mapper1_mode, h, bankOffset, Nat.zero_mod, decide_eq_true_eq]
  split <;> rfl

theorem mapper1PrgOffset_fixLast (h : m.control.toNat / 4 % 4 = 3) :
    mapper1PrgOffset m n a = (if a.toNat < 0xC000 then m.prg.toNat % n else n - 1) * 16384 + a.toNat % 0x4000 := by
  simp only [mapper1PrgOffset, mapper1_mode, h, bankOffset_last, decide_eq_true_eq]
  split <;> rfl

end

/-! The static RAM of mappers 1 and 4 (R173, R181). -/

/-- The cartridge's mapper has static RAM. -/
def HasSram (c : Cartridge) : Prop := (∃ m, c.mapper = .mapper1 m) ∨ ∃ m, c.mapper = .mapper4 m

section
variable {c : Cartridge} {a : Word} (hs : HasSram c) (h : 0x6000 ≤ a.toNat) (h' : a.toNat < 0x8000)
include hs h h'

theorem cartCpuRead_sram : cartCpuRead c a = some (Memory.read (cartSram c) (a.toNat % 0x2000)) := by
  have h8 : ¬ 0x8000 ≤ a.toNat := by omega
  rcases hs with ⟨m, hm⟩ | ⟨m, hm⟩ <;> simp only [cartCpuRead, cpuMapRead, hm, h, h8, if_true, if_false]

theorem cartCpuWrite_sram (v : Byte) : ∃ d, cartCpuWrite c a v = some d ∧ HasSram d
    ∧ cartSram d = Memory.write (cartSram c) (a.toNat % 0x2000) v := by
  have h8 : ¬ 0x8000 ≤ a.toNat := by omega
  rcases hs with ⟨m, hm⟩ | ⟨m, hm⟩ <;> simp only [cartCpuWrite, cartSram, hm, h, h8, if_true, if_false]
  · exact ⟨_, rfl, .inl ⟨_, rfl⟩, rfl⟩
  · exact ⟨_, rfl, .inr ⟨_, rfl⟩, rfl⟩

end

/-- A byte written to static RAM is read back there and nowhere else, by reads without side effects. -/
theorem cpuRead_cpuWrite_sram {s : State} {c : Cartridge} {a b : Word} (v : Byte) (hc : s.cart = some c) (hs : HasSram c)
    (ha : 0x6000 ≤ a.toNat) (ha' : a.toNat < 0x8000) (hb : 0x6000 ≤ b.toNat) (hb' : b.toNat < 0x8000) :
    cpuRead (cpuWrite s a v) b = (if a = b then v else (cpuRead s b).1, cpuWrite s a v) := by
  obtain ⟨d, hd, hds, hsram⟩ := cartCpuWrite_sram hs ha ha' v
  have hindex : b.toNat % 0x2000 = a.toNat % 0x2000 ↔ a = b :=
    ⟨fun e => (sramIndex_inj ha ha' hb hb' e).symm, fun e => by rw [e]⟩
  rw [cpuWrite_handled hc hd, cpuRead_handled rfl (cartCpuRead_sram hds hb hb'), hsram, Memory.read_write,
    cpuRead_handled hc (cartCpuRead_sram hs hb hb')]
  simp only [hindex]

/-- Settles O55: the window of each mode, and the static RAM. -/
theorem mapperOneWindowsAndStaticRam : Obligations.MapperOneWindowsAndStaticRam := by
  constructor
  · intro s c m a hc hm ha n mode low shows
    have hread : shows (mapper1PrgOffset m n a) := cpuRead_prg hc (cpuMapRead_mapper1 ha hm)
    refine ⟨fun hmode hn => ?_, fun hmode hn => ?_, fun hmode => ?_, fun hmode _ => ?_⟩
    · rwa [mapper1PrgOffset_32k n a hmode, if_neg (by omega)] at hread
    · rw [mapper1PrgOffset_32k n a hmode, if_pos (by omega)] at hread
      exact ⟨_, by rw [hn]; exact Nat.mod_lt _ (by decide), hread⟩
    · simpa only [mapper1PrgOffset_fixFirst n a hmode, low, decide_eq_true_eq] using hread
    · simpa only [mapper1PrgOffset_fixLast n a hmode, low, decide_eq_true_eq] using hread
  · intro s c a b v hc hs
    refine ⟨fun h => ⟨cartCpuRead_low c h, cartCpuWrite_low c v h⟩, fun ha ha' hb hb' => ?_⟩
    rw [cpuRead_cpuWrite_sram v hc hs ha ha' hb hb']
    exact ⟨rfl, rfl⟩

/-! Mapper 1's serial port (R174). -/

/-- Bits 14:13 of an address, which select a register of mappers 1 and 4. -/
theorem registerSelect_toNat (a : Word) : (a.extractLsb' 13 2).toNat = a.toNat / 0x2000 % 4 := by
  rw [BitVec.extractLsb'_toNat, Nat.shiftRight_eq_div_pow]

/-- The shift register after one more bit. -/
def serialShift (load : BitVec 5) (v : Byte) : BitVec 5 := (load >>> 1) ||| ((v.extractLsb' 0 1).setWidth 5 <<< 4)

theorem serialShift_toNat (load : BitVec 5) (v : Byte) :
    (serialShift load v).toNat = load.toNat / 2 + 16 * (v.toNat % 2) := by
  have hload := load.isLt
  have hbit : ((v.extractLsb' 0 1).setWidth 5 <<< 4).toNat = 2 ^ 4 * (v.toNat % 2) := by
    rw [BitVec.toNat_shiftLeft, BitVec.toNat_setWidth, BitVec.extractLsb'_toNat, Nat.shiftLeft_eq, Nat.shiftRight_zero]
    omega
  have hshift : (load >>> 1).toNat = load.toNat / 2 := by rw [BitVec.toNat_ushiftRight, Nat.shiftRight_eq_div_pow]
  rw [serialShift, BitVec.toNat_or, hbit, hshift, Nat.or_comm, ← Nat.two_pow_add_eq_or_of_lt (by omega)]
  omega

/-- Mapper 1 with a value stored in the register an address selects. -/
def mapper1Store (m : Mapper1) (a : Word) (value : BitVec 5) : Mapper1 :=
  if a.toNat / 0x2000 % 4 = 0 then { m with control := value }
  else if a.toNat / 0x2000 % 4 = 1 then { m with chr0 := value }
  else if a.toNat / 0x2000 % 4 = 2 then { m with chr1 := value }
  else { m with prg := value.setWidth 4 }

section
variable {m : Mapper1} (a : Word) {v : Byte}

theorem mapper1Write_reset (h : v.getLsbD 7 = true) :
    mapper1Write m a v = { m with load := 0, loadCount := 0, control := m.control ||| 0x0C } := if_pos h

theorem mapper1Write_collect (h : v.getLsbD 7 = false) (hcount : m.loadCount < 4) :
    mapper1Write m a v = { m with load := serialShift m.load v, loadCount := m.loadCount + 1 } := by
  rw [mapper1Write, h, if_neg Bool.false_ne_true, if_neg (by omega)]
  rfl

theorem mapper1Write_fifth (h : v.getLsbD 7 = false) (hcount : m.loadCount = 4) :
    mapper1Write m a v = mapper1Store { m with load := 0, loadCount := 0 } a (serialShift m.load v) := by
  rw [mapper1Write, h, if_neg Bool.false_ne_true, if_pos hcount, registerSelect_toNat, mapper1Store]
  obtain e | e | e | e : a.toNat / 0x2000 % 4 = 0 ∨ a.toNat / 0x2000 % 4 = 1 ∨ a.toNat / 0x2000 % 4 = 2
    ∨ a.toNat / 0x2000 % 4 = 3 := by omega
  all_goals rw [e]; rfl

end

/-- Five bits push out whatever the shift register held. -/
theorem serialShift_five (load : BitVec 5) (v1 v2 v3 v4 v5 : Byte) :
    serialShift (serialShift (serialShift (serialShift (serialShift load v1) v2) v3) v4) v5 =
      BitVec.ofNat 5 (v1.toNat % 2 + 2 * (v2.toNat % 2) + 4 * (v3.toNat % 2) + 8 * (v4.toNat % 2)
        + 16 * (v5.toNat % 2)) := by
  have hload := load.isLt
  apply BitVec.eq_of_toNat_eq
  simp only [serialShift_toNat, BitVec.toNat_ofNat]
  omega

/-- Settles O56: four writes collect, the fifth stores. -/
theorem mapperOneSerialLoad : Obligations.MapperOneSerialLoad := by
  refine ⟨fun s c m a v hc hm ha => cpuWrite_handled hc (cartCpuWrite_mapper1 ha v hm),
    fun m a v h => mapper1Write_reset a h, fun m a1 a2 a3 a4 a5 v1 v2 v3 v4 v5 hcount h1 h2 h3 h4 h5 => ?_⟩
  rw [mapper1Write_collect a1 h1 (by omega), mapper1Write_collect a2 h2 (by simp only; omega),
    mapper1Write_collect a3 h3 (by simp only; omega), mapper1Write_collect a4 h4 (by simp only; omega),
    mapper1Write_fifth a5 h5 (by simp only; omega)]
  simp only [serialShift_five]
  rfl

/-! Mapper 4 (R181, R182). -/

theorem and_0x3F_toNat (b : Byte) : (b &&& 0x3F).toNat = b.toNat % 64 := by
  rw [BitVec.toNat_and]
  exact Nat.and_two_pow_sub_one_eq_mod b.toNat 6

theorem mapper4PrgBank_eq (m : Mapper4) (nPrg : Nat) {a : Word} (h : 0x8000 ≤ a.toNat) :
    mapper4PrgBank m nPrg ((a.toNat - 0x8000) / 0x2000) =
      if a.toNat < 0xA000 then (if m.bankSelect.getLsbD 6 then 2 * nPrg - 2 else (m.regs.get 6).toNat % 64)
      else if a.toNat < 0xC000 then (m.regs.get 7).toNat % 64
      else if a.toNat < 0xE000 then (if m.bankSelect.getLsbD 6 then (m.regs.get 6).toNat % 64 else 2 * nPrg - 2)
      else 2 * nPrg - 1 := by
  have hlt := a.isLt
  obtain ⟨hw, hA⟩ | ⟨hw, hA, hC⟩ | ⟨hw, hA, hC, hE⟩ | ⟨hw, hA, hC, hE⟩ :
      ((a.toNat - 0x8000) / 0x2000 = 0 ∧ a.toNat < 0xA000)
        ∨ ((a.toNat - 0x8000) / 0x2000 = 1 ∧ ¬ a.toNat < 0xA000 ∧ a.toNat < 0xC000)
        ∨ ((a.toNat - 0x8000) / 0x2000 = 2 ∧ ¬ a.toNat < 0xA000 ∧ ¬ a.toNat < 0xC000 ∧ a.toNat < 0xE000)
        ∨ ((a.toNat - 0x8000) / 0x2000 = 3 ∧ ¬ a.toNat < 0xA000 ∧ ¬ a.toNat < 0xC000 ∧ ¬ a.toNat < 0xE000) := by omega
  all_goals simp only [mapper4PrgBank, and_0x3F_toNat, *, if_true, if_false]

/-- The register after a write, at every index. -/
theorem mapper4Regs_set (regs : Vector Byte 8) (j k : Fin 8) (v : Byte) :
    (regs.set j.val v j.isLt).get k = if k.val = j.val then v else regs.get k := by
  rw [Vector.get_eq_getElem, Vector.getElem_set, Vector.get_eq_getElem]
  simp only [eq_comm]

/-- Settles O57: the bank of each window, and the write by the register's range and parity. -/
theorem mapperFourWindowsAndRegisters : Obligations.MapperFourWindowsAndRegisters := by
  intro s c m a v hc hm ha n swapped r6 r7 bank range even odd leaves
  have hwrite : leaves (mapper4Write m a v) := cpuWrite_handled hc (cartCpuWrite_mapper4 ha v hm)
  have hselect : (a.extractLsb' 13 2).toNat = range := by
    rw [registerSelect_toNat]
    have := a.isLt
    omega
  have hlsb : a.getLsbD 0 = decide (a.toNat % 2 = 1) := Nat.testBit_zero a.toNat
  have heven (h : even) : a.getLsbD 0 = false := by rw [hlsb, h]; rfl
  have hodd (h : odd) : a.getLsbD 0 = true := by rw [hlsb, h]; rfl
  refine ⟨?_, fun hr he => ?_, fun hr ho => ?_, fun hr he => ?_, fun hr ho => ?_, fun hr he => ?_, fun hr ho => ?_,
    fun hr he => ?_, fun hr ho => ?_⟩
  · rw [cpuRead_prg hc (cpuMapRead_mapper4 ha hm), mapper4PrgOffset, mapper4PrgBank_eq m _ ha]
    rfl
  · simpa only [mapper4Write, hselect.trans hr, heven he] using hwrite
  · simp only [mapper4Write, hselect.trans hr, hodd ho] at hwrite
    have hindex : (m.bankSelect.extractLsb' 0 3).toNat = m.bankSelect.toNat % 8 := by
      rw [BitVec.extractLsb'_toNat, Nat.shiftRight_zero]
    refine ⟨_, hwrite, fun k => ?_⟩
    rw [← hindex]
    exact mapper4Regs_set m.regs (m.bankSelect.extractLsb' 0 3).toFin k v
  · have hbit : BitVec.ofNat 1 v.toNat = v.extractLsb' 0 1 := by
      apply BitVec.eq_of_toNat_eq
      rw [BitVec.toNat_ofNat, BitVec.extractLsb'_toNat, Nat.shiftRight_zero]
    simpa only [mapper4Write, hselect.trans hr, heven he, hbit] using hwrite
  · have hsame : { c with mapper := .mapper4 m } = c := by rw [← hm]
    simp only [mapper4Write, hselect.trans hr, hodd ho, leaves, hsame] at hwrite
    exact hwrite.trans (State.setCart_self hc)
  · simpa only [mapper4Write, hselect.trans hr, heven he] using hwrite
  · simpa only [mapper4Write, hselect.trans hr, hodd ho] using hwrite
  · simpa only [mapper4Write, hselect.trans hr, heven he] using hwrite
  · simpa only [mapper4Write, hselect.trans hr, hodd ho] using hwrite

end Sys2Proof.Machine
end

section
/-!
PROOFS about the cartridge behind its windows: every bank lies in its store, the character bytes each mapper shows, CHR RAM
and ROM, and the arrangements of the nametables.
-/
namespace Sys2Proof.Machine

/-! Offsets lie in their store (R185). -/

theorem bankOffset_lt {count size offset : Nat} (bank : Nat) (hcount : 0 < count) (h : offset < size) :
    bankOffset bank count size offset < count * size := by
  have hbank : bank % count + 1 ≤ count := Nat.mod_lt bank hcount
  calc bankOffset bank count size offset
    _ < (bank % count + 1) * size := by rw [bankOffset, Nat.succ_mul]; omega
    _ ≤ count * size := Nat.mul_le_mul_right size hbank

section
variable {n : Nat} (a : Word) (hn : 0 < n)
include hn

theorem fixedPrgOffset_lt : fixedPrgOffset n a < n * 16384 := by
  unfold fixedPrgOffset
  split <;> omega

theorem mapper1PrgOffset_lt (m : Mapper1) : mapper1PrgOffset m n a < n * 16384 := by
  have h16 (bank : Nat) : bankOffset bank n 16384 (a.toNat % 0x4000) < n * 16384 :=
    bankOffset_lt bank hn (Nat.mod_lt _ (by decide))
  obtain hmode | hmode : m.control.toNat / 4 % 4 < 2 ∨ 2 ≤ m.control.toNat / 4 % 4 := by omega
  · rw [mapper1PrgOffset_32k n a hmode]
    split
    · exact Nat.mod_lt _ (by omega)
    · have h32 : bankOffset (m.prg.toNat / 2) (n / 2) 32768 (a.toNat % 0x8000) < n / 2 * 32768 :=
        bankOffset_lt _ (by omega) (Nat.mod_lt _ (by decide))
      exact h32.trans_le (by omega)
  · obtain hmode | hmode : m.control.toNat / 4 % 4 = 2 ∨ m.control.toNat / 4 % 4 = 3 := by omega
    all_goals
      simp only [mapper1PrgOffset, mapper1_mode, hmode]
      split <;> exact h16 _

theorem mapper2PrgOffset_lt (b : Byte) : mapper2PrgOffset b n a < n * 16384 := by
  unfold mapper2PrgOffset
  simp only
  split <;> exact bankOffset_lt _ hn (Nat.mod_lt _ (by decide))

theorem mapper4PrgOffset_lt (m : Mapper4) : mapper4PrgOffset m n a < n * 16384 := by
  have h : mapper4PrgOffset m n a < 2 * n * 8192 := bankOffset_lt _ (by omega) (Nat.mod_lt _ (by decide))
  exact h.trans_eq (by omega)

end

theorem cpuMapRead_prg_high {c : Cartridge} {a : Word} {o : Nat} (h : cpuMapRead c a = .prg o) :
    0x8000 ≤ a.toNat := by
  by_contra hlow
  cases hm : c.mapper <;> simp only [cpuMapRead, hm, hlow, if_false, reduceCtorEq] at h
  all_goals split at h <;> cases h

/-- Every program bank number reaches an offset inside the program store. -/
theorem cpuMapRead_prg_lt {c : Cartridge} {a : Word} {o : Nat} (hn : 0 < c.nPrg.toNat) (h : cpuMapRead c a = .prg o) :
    o < c.nPrg.toNat * 16384 := by
  have ha := cpuMapRead_prg_high h
  cases hm : c.mapper with
  | mapper0 =>
    cases (cpuMapRead_mapper0 ha hm).symm.trans h
    exact fixedPrgOffset_lt a hn
  | mapper1 m =>
    cases (cpuMapRead_mapper1 ha hm).symm.trans h
    exact mapper1PrgOffset_lt a hn m
  | mapper2 b =>
    cases (cpuMapRead_mapper2 ha hm).symm.trans h
    exact mapper2PrgOffset_lt a hn b
  | mapper3 b =>
    cases (cpuMapRead_mapper3 ha hm).symm.trans h
    exact fixedPrgOffset_lt a hn
  | mapper4 m =>
    cases (cpuMapRead_mapper4 ha hm).symm.trans h
    exact mapper4PrgOffset_lt a hn m

/-! The character offset of each mapper (R172, R175, R178, R180, R183). -/

theorem and_0xFE_toNat (b : Byte) : (b &&& 0xFE).toNat = b.toNat / 2 * 2 := by
  have hlt := b.isLt
  have hmod : (b.toNat &&& 254) % 2 = 0 := by rw [Nat.and_mod_two_pow (n := 1)]; exact Nat.and_zero _
  have hdiv : (b.toNat &&& 254) / 2 = b.toNat / 2 % 128 := by
    rw [Nat.and_div_two]
    exact Nat.and_two_pow_sub_one_eq_mod _ 7
  change b.toNat &&& 254 = _
  omega

theorem or_0x01_toNat (b : Byte) : (b ||| 0x01).toNat = b.toNat / 2 * 2 + 1 := by
  have hmod : (b.toNat ||| 1) % 2 = 1 := Nat.or_mod_two_eq_one.mpr (.inr rfl)
  have hdiv : (b.toNat ||| 1) / 2 = b.toNat / 2 := by
    rw [Nat.or_div_two]
    exact Nat.or_zero _
  change b.toNat ||| 1 = _
  omega

/-- Register `k` of mapper 4 as a number. -/
def mapper4Reg (m : Mapper4) (k : Nat) : Nat := (m.regs.toList.getD k 0).toNat

theorem mapper4Reg_get (m : Mapper4) (k : Fin 8) : (m.regs.get k).toNat = mapper4Reg m k.val := by
  rw [mapper4Reg, List.getD_eq_getElem _ _ (by rw [Vector.length_toList]; exact k.isLt), Vector.getElem_toList,
    Vector.get_eq_getElem]

/-- A slot of mapper 4 shows half of a 2 KiB bank or a 1 KiB bank, as bit 7 of `bank_select` says (R183). -/
theorem mapper4ChrBank_eq (m : Mapper4) {slot : Nat} (h : slot < 8) :
    mapper4ChrBank m slot =
      if decide (slot < 4) != m.bankSelect.getLsbD 7 then mapper4Reg m (slot % 4 / 2) / 2 * 2 + slot % 2
      else mapper4Reg m (2 + slot % 4) := by
  have r (k : Fin 8) := mapper4Reg_get m k
  cases hswap : m.bankSelect.getLsbD 7 <;> interval_cases slot <;>
    simp only [mapper4ChrBank, hswap, and_0xFE_toNat, or_0x01_toNat, r] <;> rfl

section
variable {c : Cartridge} {a : Word} (h : a.toNat < 0x2000)
include h

theorem ppuMapRead_mapper0 (hm : c.mapper = .mapper0) : ppuMapRead c a = .chr a.toNat := by
  simp only [ppuMapRead, hm, h, if_true]

theorem ppuMapRead_mapper2 {b : Byte} (hm : c.mapper = .mapper2 b) : ppuMapRead c a = .chr a.toNat := by
  simp only [ppuMapRead, hm, h, if_true]

theorem ppuMapRead_mapper3 {b : Byte} (hm : c.mapper = .mapper3 b) :
    ppuMapRead c a = .chr (bankOffset b.toNat (if c.nChr.toNat = 0 then 1 else c.nChr.toNat) 8192 a.toNat) := by
  simp only [ppuMapRead, hm, h, if_true]

theorem ppuMapRead_mapper1 {m : Mapper1} (hm : c.mapper = .mapper1 m) :
    ppuMapRead c a = .chr (if c.nChr.toNat = 0 then a.toNat else mapper1ChrOffset m c.nChr.toNat a.toNat) := by
  simp only [ppuMapRead, hm, h, if_true]

theorem ppuMapRead_mapper4 {m : Mapper4} (hm : c.mapper = .mapper4 m) :
    ppuMapRead c a = .chr (if c.nChr.toNat = 0 then a.toNat
      else bankOffset (mapper4ChrBank m (a.toNat / 1024)) (8 * c.nChr.toNat) 1024 (a.toNat % 1024)) := by
  simp only [ppuMapRead, hm, h, if_true]

/-- With CHR RAM every mapper shows the address itself (log 12). -/
theorem ppuMapRead_chrRam (hram : c.nChr = 0) : ppuMapRead c a = .chr a.toNat := by
  have hn : c.nChr.toNat = 0 := by rw [hram]; rfl
  cases hm : c.mapper with
  | mapper0 => exact ppuMapRead_mapper0 h hm
  | mapper1 m => rw [ppuMapRead_mapper1 h hm, if_pos hn]
  | mapper2 b => exact ppuMapRead_mapper2 h hm
  | mapper3 b => rw [ppuMapRead_mapper3 h hm, if_pos hn, bankOffset, Nat.mod_one, Nat.zero_mul, Nat.zero_add]
  | mapper4 m => rw [ppuMapRead_mapper4 h hm, if_pos hn]

end

theorem mapper1ChrOffset_lt (m : Mapper1) {n a : Nat} (hn : 0 < n) (ha : a < 8192) :
    mapper1ChrOffset m n a < n * 8192 := by
  unfold mapper1ChrOffset
  split
  · have h4 := bankOffset_lt (if a < 0x1000 then m.chr0.toNat else m.chr1.toNat) (Nat.mul_pos (by decide : 0 < 2) hn)
      (Nat.mod_lt a (by decide : 0 < 0x1000))
    exact h4.trans_eq (by omega)
  · exact bankOffset_lt _ hn ha

/-- Every character bank number reaches an offset inside the character store. -/
theorem ppuMapRead_chr_lt {c : Cartridge} {a : Word} {o : Nat} (h : ppuMapRead c a = .chr o) : o < chrSize c := by
  have ha : a.toNat < 0x2000 := by
    by_contra hhigh
    rw [ppuMapRead_high c (by omega)] at h
    cases h
  by_cases hram : c.nChr = 0
  · cases (ppuMapRead_chrRam ha hram).symm.trans h
    rwa [chrSize, if_pos hram]
  · have hn : c.nChr.toNat ≠ 0 := fun e => hram (BitVec.eq_of_toNat_eq e)
    rw [chrSize, if_neg hram]
    cases hm : c.mapper with
    | mapper0 =>
      cases (ppuMapRead_mapper0 ha hm).symm.trans h
      omega
    | mapper1 m =>
      rw [ppuMapRead_mapper1 ha hm, if_neg hn] at h
      cases h
      exact mapper1ChrOffset_lt m (by omega) ha
    | mapper2 b =>
      cases (ppuMapRead_mapper2 ha hm).symm.trans h
      omega
    | mapper3 b =>
      rw [ppuMapRead_mapper3 ha hm, if_neg hn] at h
      cases h
      exact bankOffset_lt _ (by omega) ha
    | mapper4 m =>
      rw [ppuMapRead_mapper4 ha hm, if_neg hn] at h
      cases h
      have h1 := bankOffset_lt (mapper4ChrBank m (a.toNat / 1024)) (count := 8 * c.nChr.toNat) (by omega)
        (Nat.mod_lt a.toNat (by decide : 0 < 1024))
      exact h1.trans_eq (by omega)

/-! CHR RAM (R186) and the arrangements of the nametables (R176, R184). -/

/-- A byte written to CHR RAM is read back at its own address only. -/
theorem ppuRead_ppuWrite_chrRam {s : State} {c : Cartridge} {a b : Word} (v : Byte) (hc : s.cart = some c)
    (hram : c.nChr = 0) (ha : a.toNat < 0x2000) (hb : b.toNat < 0x2000) :
    ppuRead (ppuWrite s a v) b = if a = b then v else ppuRead s b := by
  have ea : a.toNat % 0x4000 = a.toNat := Nat.mod_eq_of_lt (by omega)
  have read (t : State) (d : Cartridge) (hd : t.cart = some d) (hdram : d.nChr = 0) :
      ppuRead t b = Memory.read d.chr b.toNat := by
    refine ppuRead_chr t hd ?_
    rw [ppuAddress_of_lt (by omega), ppuMapRead_chrRam hb hdram]
  rw [read s c hc hram, ppuWrite_chrRam s v hc hram (by omega),
    read _ { c with chr := Memory.write c.chr (a.toNat % 0x4000) v } rfl hram, Memory.read_write, ea]
  simp only [BitVec.toNat_inj, eq_comm]

theorem headerMirroring_eq (h : HeaderMirror) :
    headerMirroring h = if h = .vertical then .vertical else .horizontal := by
  cases h <;> rfl

theorem cartMirroring_mapper1 {c : Cartridge} {m : Mapper1} (hm : c.mapper = .mapper1 m) :
    cartMirroring c =
      [Mirroring.oneScreenLow, .oneScreenHigh, .vertical, .horizontal].getD (m.control.toNat % 4) .vertical := by
  have hbits : (m.control.extractLsb' 0 2).toNat = m.control.toNat % 4 := by
    rw [BitVec.extractLsb'_toNat, Nat.shiftRight_zero]
  obtain e | e | e | e : m.control.toNat % 4 = 0 ∨ m.control.toNat % 4 = 1 ∨ m.control.toNat % 4 = 2
    ∨ m.control.toNat % 4 = 3 := by omega
  all_goals simp only [cartMirroring, hm, hbits, e]; rfl

/-- Settles O59: the offsets, the byte each mapper shows, CHR RAM and ROM, and the mirroring. -/
theorem characterOffsetsAndMirroring : Obligations.CharacterOffsetsAndMirroring := by
  refine ⟨fun c a o hwf => ⟨fun h => ?_, ppuMapRead_chr_lt⟩, fun c a ha => ?_, fun c a h => ppuMapRead_high c h,
    fun s c a b v hc ha hb =>
      ⟨fun hram => ppuRead_ppuWrite_chrRam v hc hram ha hb, fun hrom => ppuWrite_chrRom s v hc hrom (by omega)⟩,
    fun c => ?_⟩
  · simp only [cartWf, Bool.and_eq_true, decide_eq_true_eq] at hwf
    obtain ⟨⟨⟨⟨hprg, -⟩, -⟩, -⟩, -⟩ := hwf
    exact cpuMapRead_prg_lt (Nat.pos_of_ne_zero fun e => hprg (BitVec.eq_of_toNat_eq e)) h
  · intro n shows
    have shows_of {k : Nat} (h : ppuMapRead c a = .chr k) : shows k :=
      ⟨h, fun s hc => ppuRead_chr s hc (by rw [ppuAddress_of_lt (by omega), h])⟩
    refine ⟨fun hm => shows_of (ppuMapRead_mapper0 ha hm), fun b hm => shows_of (ppuMapRead_mapper2 ha hm),
      fun b hm => ?_, fun m hm => ?_, fun m hm => ?_⟩
    · by_cases hn : n = 0
      · rw [if_pos hn]
        exact shows_of (ppuMapRead_chrRam ha (BitVec.eq_of_toNat_eq hn))
      · have h := shows_of (ppuMapRead_mapper3 ha hm)
        rwa [if_neg hn] at h ⊢
    · have h := shows_of (ppuMapRead_mapper1 ha hm)
      cases hbit : m.control.getLsbD 4 <;>
        simpa only [n, mapper1ChrOffset, bankOffset, hbit, Bool.false_eq_true, Bool.true_eq_false, if_true,
          if_false] using h
    · have h := shows_of (ppuMapRead_mapper4 ha hm)
      rwa [mapper4ChrBank_eq m (by omega)] at h
  · refine ⟨fun hm => ?_, fun b hm => ?_, fun b hm => ?_, fun m hm => cartMirroring_mapper1 hm, fun m hm => ?_⟩
    all_goals simp only [cartMirroring, hm, headerMirroring_eq]

end Sys2Proof.Machine
end

section
/-!
PROOFS of the encoding: the decoder against the encoder in both directions, and the base cycle counts.
-/
namespace Sys2Proof.Machine

/-! From an instruction to its bytes and back. -/

theorem encode_of_opcodeOf {i : Instr} {op : Byte} (h : opcodeOf i = some op) : encode i = op :: operandBytes i := by
  rw [encode, h]

/-- A row of the opcode table has an opcode byte, and that byte announces the operand bytes the encoder writes. -/
theorem exists_opcodeOf {i : Instr} (h : i.WellFormed) :
    ∃ op, opcodeOf i = some op ∧ operandCount op = (operandBytes i).length := by
  obtain ⟨hsome, hcount⟩ := Laws.OpcodeListed.statement_all i
  obtain ⟨op, hop⟩ := Option.isSome_iff_exists.mp (hsome.trans h)
  exact ⟨op, hop, hcount op hop⟩

theorem assembleAddr_addrOperandBytes (m : Addr) :
    assembleAddr m.tag ((addrOperandBytes m).getD 0 0) ((addrOperandBytes m).getD 1 0) = m := by
  obtain ⟨-, b, hbytes, hm⟩ | ⟨-, b, b', hbytes, hm⟩ := assembleAddr_operandBytes m
  · rw [hbytes]
    exact hm 0
  · rw [hbytes]
    exact hm

/-- Where an Encoding line names entries of its own mnemonic and mode, its instructions are rebuilt (R301, R320). -/
theorem decodeBytes_of_line {op : Byte} {line : List (AddrTag × Byte)} {mk : Addr → Instr} {m : Addr}
    (hline : ∀ t b, line.lookup t = some b → (opcodeEntry b).format = .ea mk t) (h : pickOpcode line m = some op) :
    decodeBytes op ((addrOperandBytes m).getD 0 0) ((addrOperandBytes m).getD 1 0) = mk m := by
  simp only [decodeBytes, hline _ _ h, assembleAddr_addrOperandBytes]

/-- The same for a shift, of the accumulator or of memory. -/
theorem decodeBytes_of_shiftLine {op acc : Byte} {line : List (AddrTag × Byte)} {mk : ShiftOperand → Instr}
    {t : ShiftOperand} (hacc : (opcodeEntry acc).format = .shiftAcc mk)
    (hline : ∀ t b, line.lookup t = some b → (opcodeEntry b).format = .shiftMem mk t)
    (h : pickShiftOpcode acc line t = some op) :
    decodeBytes op ((shiftOperandBytes t).getD 0 0) ((shiftOperandBytes t).getD 1 0) = mk t := by
  cases t with
  | acc =>
    cases h
    simp only [decodeBytes, hacc]
  | mem m => simp only [decodeBytes, hline _ _ h, shiftOperandBytes, assembleAddr_addrOperandBytes]

/-- JMP and JSR get their 16-bit operand back from its two bytes (R303). -/
theorem decodeBytes_target {op : Byte} {mk : Word → Instr} (w : Word) (h : (opcodeEntry op).format = .target mk) :
    decodeBytes op (loByte w) (hiByte w) = mk w := by
  simp only [decodeBytes, h, word16_hiByte_loByte]

theorem decodeBytes_illegal {op : Byte} (h : op ∈ illegalOpcodes) : decodeBytes op 0 0 = .illegal op := by
  fin_cases h <;> rfl

/-- The entry of an instruction's opcode builds the instruction from its operand bytes: for each mnemonic and mode, the
Encoding line of its rule names the entry of that mnemonic and mode (R301, R320, R324). -/
theorem decodeBytes_operandBytes {i : Instr} {op : Byte} (h : opcodeOf i = some op) :
    decodeBytes op ((operandBytes i).getD 0 0) ((operandBytes i).getD 1 0) = i := by
  cases i with
  | adc m | sbc m | and m | ora m | eor m | bit m | cmp m | cpx m | cpy m | inc m | dec m
  | lda m | ldx m | ldy m | sta m | stx m | sty m =>
    exact decodeBytes_of_line (fun t b hb => by cases t <;> cases hb <;> rfl) h
  | asl t | lsr t | rol t | ror t =>
    exact decodeBytes_of_shiftLine rfl (fun t b hb => by cases t <;> cases hb <;> rfl) h
  | jmp t =>
    cases t with
    | abs w => cases h; exact decodeBytes_target (mk := fun w => .jmp (.abs w)) w rfl
    | ind w => cases h; exact decodeBytes_target (mk := fun w => .jmp (.ind w)) w rfl
  | jsr w => cases h; exact decodeBytes_target w rfl
  | illegal b =>
    obtain ⟨hb, rfl⟩ : b ∈ illegalOpcodes ∧ b = op := by simpa [opcodeOf] using h
    exact decodeBytes_illegal hb
  | _ => cases h; rfl

/-- Settles O1: the opcode's entry takes as many operand bytes as the encoder wrote, and builds the instruction from
them. -/
theorem decodeOfEncodeIsTheInstruction : Obligations.DecodeOfEncodeIsTheInstruction := by
  intro i rest hwf
  obtain ⟨op, hop, hcount⟩ := exists_opcodeOf hwf
  rw [encode_of_opcodeOf hop, List.cons_append, decode_cons hcount, decodeBytes_operandBytes hop]

/-! From bytes to an instruction and back. -/

/-- What an entry builds has no operand byte, the first byte, or the halves of the address the two make (R301). -/
theorem operandBytes_decodeBytes_ofNat {n : Nat} (h : n < 256) (b1 b2 : Byte) :
    operandBytes (decodeBytes (BitVec.ofNat 8 n) b1 b2)
      = [[], [b1], [loByte (word16 b2 b1), hiByte (word16 b2 b1)]].getD (operandCount (BitVec.ofNat 8 n)) [] := by
  interval_cases n <;> rfl

/-- What an entry builds from its operand bytes has exactly these operand bytes (R300, R301). -/
theorem operandBytes_decodeBytes {op : Byte} {operands : List Byte} (h : operandCount op = operands.length) :
    operandBytes (decodeBytes op (operands.getD 0 0) (operands.getD 1 0)) = operands := by
  have hbytes := operandBytes_decodeBytes_ofNat op.isLt (operands.getD 0 0) (operands.getD 1 0)
  simp only [BitVec.ofNat_toNat, BitVec.setWidth_eq, loByte_word16, hiByte_word16, h] at hbytes
  have hle := h ▸ operandCount_le op
  match operands, hbytes, hle with
  | [], hbytes, _ | [_], hbytes, _ | [_, _], hbytes, _ => exact hbytes
  | _ :: _ :: _ :: _, _, hle => simp only [List.length_cons] at hle; omega

/-- The bytes decoded are those of the instruction they decode to (R300, R320). -/
theorem encode_decodeBytes {op : Byte} {operands : List Byte} (h : operandCount op = operands.length) :
    encode (decodeBytes op (operands.getD 0 0) (operands.getD 1 0)) = op :: operands := by
  rw [encode_of_opcodeOf (opcodeOf_decodeBytes op _ _), operandBytes_decodeBytes h]

/-- What is decoded is an illegal opcode exactly for the listed bytes, which take no operand byte (R324, R612). -/
theorem decodeBytes_eq_illegal_iff {op : Byte} {operands : List Byte} (h : operandCount op = operands.length) :
    decodeBytes op (operands.getD 0 0) (operands.getD 1 0) = .illegal op ↔ op ∈ illegalOpcodes := by
  constructor
  · intro hi
    have hwf : (Instr.illegal op).WellFormed := hi ▸ decodeBytes_wellFormed op _ _
    exact List.contains_iff_mem.mp hwf
  · intro hop
    rw [Laws.OpcodeListed.operandCount_illegal op (List.contains_iff_mem.mpr hop)] at h
    rw [List.eq_nil_of_length_eq_zero h.symm]
    exact decodeBytes_illegal hop

/-- Two bytes are enough for the operand bytes of any opcode (R300). -/
theorem exists_operands (op b1 b2 : Byte) (rest : List Byte) :
    ∃ operands rest', operandCount op = operands.length ∧ b1 :: b2 :: rest = operands ++ rest' := by
  refine ⟨[b1, b2].take (operandCount op), [b1, b2].drop (operandCount op) ++ rest, ?_, ?_⟩
  · exact (List.length_take_of_le (operandCount_le op)).symm
  · rw [← List.append_assoc, List.take_append_drop]
    rfl

/-- Settles O2: the opcode takes the operand bytes it announces, and what is built from them has these bytes; the cycle
columns are compared entry by entry, for the modes that the mnemonic has. -/
theorem everyOpcodeDecodesAndHasItsCycles : Obligations.EveryOpcodeDecodesAndHasItsCycles := by
  refine ⟨fun op b1 b2 rest => ?_, fun m => ⟨?_, ?_, ?_⟩⟩
  · obtain ⟨operands, rest', hcount, hbytes⟩ := exists_operands op b1 b2 rest
    rw [hbytes]
    refine ⟨_, rest', decode_cons hcount rest', decodeBytes_wellFormed _ _ _, ?_, decodeBytes_eq_illegal_iff hcount⟩
    rw [encode_decodeBytes hcount, List.cons_append]
  all_goals
    intro i hi hwf
    fin_cases hi
  all_goals cases m <;> cases hwf <;> rfl

/-- Settles O3, by decoding the ten words. -/
theorem wordsOfTheTableDecode : Obligations.WordsOfTheTableDecode := by
  unfold Obligations.WordsOfTheTableDecode
  decide

end Sys2Proof.Machine
end

section
/-!
PROOFS of the addressing: where each mode lies in arithmetic on numbers, and that the operand is one read there.
-/
namespace Sys2Proof.Machine

theorem zeroPage_eq_ofNat (z : Byte) : zeroPage z = BitVec.ofNat 16 z.toNat :=
  (BitVec.ofNat_toNat 16 z).symm

theorem add_index_eq_ofNat (w : Word) (r : Byte) : w + r.setWidth 16 = BitVec.ofNat 16 (w.toNat + r.toNat) := by
  rw [BitVec.ofNat_add, BitVec.ofNat_toNat, BitVec.ofNat_toNat, BitVec.setWidth_eq]

/-- An indexed address is the sum modulo 2^16, and it crosses when the sum's high byte is another than the base's
(R358, R359, R364). -/
theorem indexed_eq (w : Word) (r : Byte) (s : State) :
    indexed w r s = ⟨BitVec.ofNat 16 (w.toNat + r.toNat),
      decide (hiByte (BitVec.ofNat 16 (w.toNat + r.toNat)) ≠ hiByte w), s⟩ := by
  simp only [indexed, pageCrossed, add_index_eq_ofNat]

/-- Where a mode other than IMM lies fixes its operand: the byte of one bus read there (R350). -/
theorem access_of_locate {m : Addr} {s : State} {a : Word} {crossed : Bool} (hm : m.tag ≠ .imm)
    (h : locate m s = ⟨a, crossed, s⟩) :
    (locate m s).addr = a ∧ (locate m s).crossed = crossed ∧ (locate m s).state = s
      ∧ (operand m s).value = (cpuRead s a).1 ∧ (operand m s).state = (cpuRead s a).2 := by
  rw [operand_eq m s hm, h]
  exact ⟨rfl, rfl, rfl, rfl, rfl⟩

/-- Pre-indexed: the index goes to the pointer's own address, within page zero (R361). -/
theorem locate_izx (z : Byte) (s : State) :
    locate (.izx z) s = ⟨word16 (Memory.read s.ram (z + s.cpu.x + 1).toNat) (Memory.read s.ram (z + s.cpu.x).toNat),
      false, s⟩ := by
  simp only [locate, zeroPagePointer_eq]

/-- Post-indexed: the index goes to the address that the pointer holds (R362). -/
theorem locate_izy (z : Byte) (s : State) :
    locate (.izy z) s =
      indexed (word16 (Memory.read s.ram (z + 1).toNat) (Memory.read s.ram z.toNat)) s.cpu.y s := by
  simp only [locate, zeroPagePointer_eq]

/-- Settles O38: each mode is a zero-page address, an indexed address or a pointer, and its operand is the read there. -/
theorem effectiveAddressesOfTheModes : Obligations.EffectiveAddressesOfTheModes := by
  intro s zp ptr add at_ crosses z w
  have zeroPageMode {m : Addr} {b : Byte} (hm : m.tag ≠ .imm) (h : locate m s = ⟨zeroPage b, false, s⟩) :
      at_ m (zp b) false :=
    access_of_locate hm (h.trans (by rw [zeroPage_eq_ofNat]))
  have indexedMode {m : Addr} {base : Word} {r : Byte} (hm : m.tag ≠ .imm) (h : locate m s = indexed base r s) :
      at_ m (add base r) (crosses base r) :=
    access_of_locate hm (h.trans (indexed_eq base r s))
  refine ⟨⟨rfl, rfl, rfl⟩, ?zp0, ?zpx, ?zpy, ?abs, ?abx, ?aby, ?izx, ?izy⟩
  case zp0 => exact zeroPageMode nofun rfl
  case zpx => exact zeroPageMode nofun rfl
  case zpy => exact zeroPageMode nofun rfl
  case abs => exact access_of_locate nofun rfl
  case abx => exact indexedMode nofun rfl
  case aby => exact indexedMode nofun rfl
  case izx => exact access_of_locate nofun (locate_izx z s)
  case izy => exact indexedMode nofun (locate_izy z s)

end Sys2Proof.Machine
end

section
/-!
PROOFS of the arithmetic: ADC and SBC are one addition to A, its carry and overflow on numbers, and its undoing.
-/
namespace Sys2Proof.Machine

/-! `AddCore` on numbers. -/

/-- The sum of two bytes and a carry fits in 16 bits (R400). -/
theorem addSum_toNat (a b : Byte) (c : Bool) : (addSum a b c).toNat = a.toNat + b.toNat + c.toNat := by
  have := a.isLt
  have := b.isLt
  have := c.toNat_le
  simp only [addSum, BitVec.toNat_add, BitVec.toNat_setWidth, BitVec.toNat_ofBool]
  omega

theorem addResult_eq_ofNat (a b : Byte) (c : Bool) :
    addResult a b c = BitVec.ofNat 8 (a.toNat + b.toNat + c.toNat) := by
  rw [← addSum_toNat, addResult, BitVec.ofNat_toNat]

theorem addCarry_eq (a b : Byte) (c : Bool) : addCarry a b c = decide (255 < a.toNat + b.toNat + c.toNat) := by
  rw [← addSum_toNat, addCarry]

/-- A mask of one bit tests that bit. -/
theorem and_ne_zero_iff_getLsbD {w i : Nat} {mask : BitVec w} (hmask : mask = BitVec.twoPow w i) (hi : i < w)
    (x : BitVec w) : x &&& mask ≠ 0 ↔ x.getLsbD i = true := by
  have hne : BitVec.twoPow w i ≠ 0#w := by
    intro h
    simpa [hi] using congrArg (·.getLsbD i) h
  rw [hmask, BitVec.and_twoPow]
  cases x.getLsbD i <;> simp [hne]

/-- The sign rule of V looks at bit 7 only, so it can be read on bytes (R400). -/
theorem addOverflow_eq (a b : Byte) (c : Bool) :
    addOverflow a b c = decide ((~~~ (a ^^^ b) &&& (a ^^^ addResult a b c)) &&& 0x80 ≠ 0) := by
  rw [addOverflow, decide_eq_decide, and_ne_zero_iff_getLsbD (mask := (0x80 : Byte)) (i := 7) rfl (by decide),
    and_ne_zero_iff_getLsbD (mask := (0x0080 : Word)) (i := 7) rfl (by decide)]
  simp [addResult]

theorem setAddFlags_flags_eq_sumFlags (s : State) (a b : Byte) (f : Flag) :
    (setAddFlags s a b (s.flag .c)).flag f = sumFlags s a b f := by
  rw [setAddFlags_flags, addOverflow_eq, addCarry_eq, addResult_eq_ofNat]
  rfl

/-! What the flags of a sum say (R403). -/

/-- The sign bit is a comparison with 128. -/
theorem getLsbD_seven (x : Byte) : x.getLsbD 7 = decide (128 ≤ x.toNat) :=
  (BitVec.msb_eq_getLsbD_last x).symm.trans (BitVec.msb_eq_decide x)

/-- V: the signed sum does not fit in a byte. Only the sign bits count, and a sign bit is a comparison with 128. -/
theorem sumFlags_v_iff (s : State) (a b : Byte) :
    sumFlags s a b .v = true ↔
      a.toInt + b.toInt + (s.flag .c).toNat < -128 ∨ 127 < a.toInt + b.toInt + (s.flag .c).toNat := by
  set sum := a.toNat + b.toNat + (s.flag .c).toNat with hsum
  have hbits : sumFlags s a b .v = true ↔
      (128 ≤ a.toNat ↔ 128 ≤ b.toNat) ∧ ¬ (128 ≤ a.toNat ↔ 128 ≤ sum % 256) := by
    simp only [sumFlags, if_true, decide_eq_true_eq,
      and_ne_zero_iff_getLsbD (mask := (0x80 : Byte)) (i := 7) rfl (by decide), BitVec.getLsbD_and,
      BitVec.getLsbD_not, BitVec.getLsbD_xor]
    simp [getLsbD_seven, -BitVec.getLsbD_eq_getElem, ← hsum]
  rw [hbits, BitVec.toInt_eq_toNat_cond, BitVec.toInt_eq_toNat_cond]
  have := a.isLt
  have := b.isLt
  have := (s.flag .c).toNat_le
  omega

theorem sumFlags_c_iff (s : State) (a b : Byte) :
    sumFlags s a b .c = true ↔ 255 < a.toNat + b.toNat + (s.flag .c).toNat := by
  simp [sumFlags, cnzFlags]

theorem sumFlags_z_iff (s : State) (a b : Byte) :
    sumFlags s a b .z = true ↔ BitVec.ofNat 8 (a.toNat + b.toNat + (s.flag .c).toNat) = 0 := by
  simp [sumFlags, cnzFlags, nzFlags]

/-! The complement that SBC adds (R402). -/

theorem xor_0xFF_toNat (b : Byte) : (b ^^^ 0xFF).toNat = 255 - b.toNat := by
  rw [show (0xFF : Byte) = BitVec.allOnes 8 from rfl, BitVec.xor_allOnes, BitVec.toNat_not]

theorem xor_0xFF_toInt (b : Byte) : (b ^^^ 0xFF).toInt = -1 - b.toInt := by
  have := b.isLt
  rw [BitVec.toInt_eq_toNat_cond, BitVec.toInt_eq_toNat_cond, xor_0xFF_toNat]
  omega

/-! Instructions that read their operand and then change only the CPU's registers. -/

/-- What changes only the CPU's registers after the operand's read completes with every byte of memory as it was. -/
theorem CompletesReading.of_exec {i : Instr} {m : Addr} {s t : State} {cpu : Cpu} {g : Flag → Bool}
    (hexec : exec i s = .next t) (hregs : RegistersAre t cpu) (hflags : FlagsAre t g)
    (hout : OutsideCpu (operand m s).state t) : CompletesReading i m s cpu g :=
  ⟨t, hexec, hregs, hflags, hout, (operand_effects m s).memoryUnchanged.outsideCpu hout⟩

/-- `exec` answers one state: the one that the completion speaks of. -/
theorem CompletesReading.of_next {i : Instr} {m : Addr} {s t : State} {cpu : Cpu} {g : Flag → Bool}
    (h : CompletesReading i m s cpu g) (hexec : exec i s = .next t) : RegistersAre t cpu ∧ FlagsAre t g := by
  obtain ⟨t', hexec', hregs, hflags, -, -⟩ := h
  cases hexec.symm.trans hexec'
  exact ⟨hregs, hflags⟩

theorem OutsideCpu.trans {s t u : State} (h : OutsideCpu s t) (g : OutsideCpu t u) : OutsideCpu s u := by
  unfold OutsideCpu at g
  rw [h] at g
  exact g

/-- P is one of the CPU's registers. -/
theorem OnlyP.outsideCpu {s t : State} (h : OnlyP s t) : OutsideCpu s t := by
  unfold OnlyP at h
  rw [h]
  rfl

theorem finish_setA_outsideCpu (i : Instr) (n : Nat) (s : State) (v : Byte) :
    OutsideCpu s (finish i n (s.setA v)) := rfl

/-- The flags are part of the CPU's registers. -/
theorem State.flag_congr {s t : State} (h : t.cpu = s.cpu) (f : Flag) : t.flag f = s.flag f := by
  rw [State.flag, h, State.flag]

theorem sumFlags_congr {s t : State} (h : t.cpu = s.cpu) (a b : Byte) (f : Flag) :
    sumFlags t a b f = sumFlags s a b f := by
  cases f <;> simp [sumFlags, cnzFlags, nzFlags, State.flag_congr h]

/-- The end of an addition to A: the sum and the cycles (R400, R321). -/
theorem finish_addToA_registers (i : Instr) (n : Nat) (u : State) (b : Byte) :
    RegistersAre (finish i n (addToA u b))
      { u.cpu with
        a := BitVec.ofNat 8 (u.cpu.a.toNat + b.toNat + (u.flag .c).toNat)
        cycles := baseCycles i + n } := by
  rw [← addResult_eq_ofNat]
  rfl

theorem finish_addToA_outsideCpu (i : Instr) (n : Nat) (u : State) (b : Byte) :
    OutsideCpu u (finish i n (addToA u b)) :=
  (OnlyP.setAddFlags u u.cpu.a b (u.flag .c)).outsideCpu.trans (finish_setA_outsideCpu i n _ _)

/-- The end of an addition to A leaves the flags of the sum (R400). -/
theorem finish_addToA_flags (i : Instr) (n : Nat) (u : State) (b : Byte) :
    FlagsAre (finish i n (addToA u b)) (sumFlags u u.cpu.a b) :=
  fun f => setAddFlags_flags_eq_sumFlags u u.cpu.a b f

/-- An instruction that is one addition to A after its operand's read: the sum, its flags and the cycles (R400, R321,
R322). -/
theorem completesReading_of_exec_addToA {i : Instr} {m : Addr} {s : State} {b : Byte}
    (h : exec i s = .next (finish i (operand m s).crossed.toNat (addToA (operand m s).state b))) :
    CompletesReading i m s
      { s.cpu with
        a := BitVec.ofNat 8 (s.cpu.a.toNat + b.toNat + (s.flag .c).toNat)
        cycles := baseCycles i + (locate m s).crossed.toNat }
      (sumFlags s s.cpu.a b) := by
  have hcpu : (operand m s).state.cpu = s.cpu := (operand_effects m s).cpu
  refine .of_exec h ?registers ?flags (finish_addToA_outsideCpu i _ _ b)
  case registers =>
    have hregs := finish_addToA_registers i (operand m s).crossed.toNat (operand m s).state b
    rw [State.flag_congr hcpu, hcpu] at hregs
    rw [← operand_crossed]
    exact hregs
  case flags =>
    intro f
    rw [finish_addToA_flags, sumFlags_congr hcpu, hcpu]

/-- Settles O21: ADC adds the operand to A and SBC its complement, both by the one addition, which does not read D. -/
theorem addAndSubtractWithCarry : Obligations.AddAndSubtractWithCarry :=
  fun _ _ => ⟨completesReading_of_exec_addToA rfl, completesReading_of_exec_addToA rfl⟩

/-- A and the flags after ADC (R401). -/
theorem exec_adc_sum {m : Addr} {s t : State} (h : exec (.adc m) s = .next t) :
    t.cpu.a = BitVec.ofNat 8 (s.cpu.a.toNat + (operand m s).value.toNat + (s.flag .c).toNat)
      ∧ FlagsAre t (sumFlags s s.cpu.a (operand m s).value) := by
  obtain ⟨hregs, hflags⟩ := (addAndSubtractWithCarry m s).1.of_next h
  exact ⟨congrArg Cpu.a hregs, hflags⟩

/-- A and the flags after SBC (R402). -/
theorem exec_sbc_sum {m : Addr} {s t : State} (h : exec (.sbc m) s = .next t) :
    t.cpu.a = BitVec.ofNat 8 (s.cpu.a.toNat + ((operand m s).value ^^^ 0xFF).toNat + (s.flag .c).toNat)
      ∧ FlagsAre t (sumFlags s s.cpu.a ((operand m s).value ^^^ 0xFF)) := by
  obtain ⟨hregs, hflags⟩ := (addAndSubtractWithCarry m s).2.of_next h
  exact ⟨congrArg Cpu.a hregs, hflags⟩

/-- Adding the complement with the complemented carry takes an addition back, modulo 256 (R404). -/
theorem ofNat_add_complement (a b : Byte) (c : Bool) :
    BitVec.ofNat 8 ((BitVec.ofNat 8 (a.toNat + b.toNat + c.toNat)).toNat + (b ^^^ 0xFF).toNat + (!c).toNat) = a := by
  have := a.isLt
  have := b.isLt
  apply BitVec.eq_of_toNat_eq
  rw [xor_0xFF_toNat, BitVec.toNat_ofNat, BitVec.toNat_ofNat]
  cases c <;> simp only [Bool.not_true, Bool.not_false, Bool.toNat_true, Bool.toNat_false] <;> omega

/-- Settles O36: A after each instruction is the sum of O21, and the second sum takes the first back. -/
theorem sbcUndoesAdc : Obligations.SbcUndoesAdc := by
  intro m m' s t u v hadc hua hvalue hcarry hsbc
  obtain ⟨ht, -⟩ := exec_adc_sum hadc
  obtain ⟨hv, -⟩ := exec_sbc_sum hsbc
  rw [hv, hua, ht, hvalue, hcarry, ofNat_add_complement]

/-- Settles O37: the flags are those of the sum of O21, whose meaning is that of R403; SBC's complement is `-1 - b` as a
signed byte and `255 - b` as an unsigned one. -/
theorem carryAndOverflowMeanWhatTheySay : Obligations.CarryAndOverflowMeanWhatTheySay := by
  intro m s t
  have hc : (if s.flag .c then 1 else 0 : Int) = (s.flag .c).toNat := by
    cases s.flag .c <;> rfl
  dsimp only
  rw [hc]
  constructor
  case left =>
    intro hexec
    obtain ⟨ha, hflags⟩ := exec_adc_sum hexec
    rw [hflags, hflags, hflags, ha, sumFlags_v_iff, sumFlags_c_iff, sumFlags_z_iff]
    exact ⟨Iff.rfl, by omega, Iff.rfl⟩
  case right =>
    intro hexec
    obtain ⟨ha, hflags⟩ := exec_sbc_sum hexec
    have := (operand m s).value.isLt
    rw [hflags, hflags, hflags, ha, sumFlags_v_iff, sumFlags_c_iff, sumFlags_z_iff, xor_0xFF_toInt, xor_0xFF_toNat]
    exact ⟨by omega, by omega, Iff.rfl⟩

end Sys2Proof.Machine
end

section
/-!
PROOFS of the logic: AND, ORA and EOR put a byte in A with its Z and N, and BIT writes flags alone.
-/
namespace Sys2Proof.Machine

theorem nzFlags_congr {s t : State} (h : t.cpu = s.cpu) (v : Byte) (f : Flag) : nzFlags t v f = nzFlags s v f := by
  cases f <;> simp [nzFlags, State.flag_congr h]

theorem finish_loadA_outsideCpu (i : Instr) (n : Nat) (u : State) (v : Byte) : OutsideCpu u (finish i n (loadA u v)) :=
  (OnlyP.setNZ u v).outsideCpu.trans (finish_setA_outsideCpu i n _ v)

/-- An instruction that puts `op A` in A after its operand's read, with its Z and N and the cycles (R21, R321, R322). -/
theorem completesReading_of_exec_loadA {i : Instr} {m : Addr} {s : State} (op : Byte → Byte)
    (h : exec i s =
      .next (finish i (operand m s).crossed.toNat (loadA (operand m s).state (op (operand m s).state.cpu.a)))) :
    CompletesReading i m s
      { s.cpu with a := op s.cpu.a, cycles := baseCycles i + (locate m s).crossed.toNat }
      (nzFlags s (op s.cpu.a)) := by
  have hcpu : (operand m s).state.cpu = s.cpu := (operand_effects m s).cpu
  rw [hcpu, operand_crossed] at h
  refine .of_exec h ?registers ?flags (finish_loadA_outsideCpu i _ _ _)
  case registers =>
    rw [← hcpu]
    rfl
  case flags =>
    intro f
    exact (setNZ_flags (operand m s).state (op s.cpu.a) f).trans (nzFlags_congr hcpu _ f)

/-- Settles O22: each of the three puts A combined with the operand in A. -/
theorem logicCombinesWithA : Obligations.LogicCombinesWithA := by
  intro m s v n
  exact ⟨completesReading_of_exec_loadA (· &&& v) rfl, completesReading_of_exec_loadA (· ||| v) rfl,
    completesReading_of_exec_loadA (· ^^^ v) rfl⟩

theorem finish_setBitFlags_outsideCpu (i : Instr) (n : Nat) (u : State) (a v : Byte) :
    OutsideCpu u (finish i n (setBitFlags u a v)) :=
  (OnlyP.setBitFlags u a v).outsideCpu.trans rfl

/-- Settles O23: after the operand's read BIT changes P alone, by its three flags. -/
theorem bitTestsTheOperand : Obligations.BitTestsTheOperand := by
  intro m s v
  have hcpu : (operand m s).state.cpu = s.cpu := (operand_effects m s).cpu
  have hexec : exec (.bit m) s = .next (finish (.bit m) 0 (setBitFlags (operand m s).state s.cpu.a v)) := by
    rw [← hcpu]
    rfl
  refine .of_exec hexec ?registers ?flags (finish_setBitFlags_outsideCpu _ 0 _ _ v)
  case registers =>
    rw [← hcpu]
    rfl
  case flags =>
    intro f
    have hbit := setBitFlags_flags (operand m s).state s.cpu.a v f
    rw [State.flag_congr hcpu] at hbit
    refine hbit.trans ?_
    cases f <;> rfl

end Sys2Proof.Machine
end

section
/-!
PROOFS of the shifts and of the read-modify-writes of memory (43_shift_rotate.md, R444): a shift is one byte function
with C, Z and N, on A or between one read and one write, and a bus write does not look at P.
-/
namespace Sys2Proof.Machine

/-! A bus write does not look at P, which a read-modify-write sets between its read and its write. -/

theorem ppuOwnWrite_setP (s : State) (p : Byte) (a : Word) (v : Byte) :
    ppuOwnWrite (s.setP p) a v = (ppuOwnWrite s a v).setP p := by
  simp only [ppuOwnWrite, State.setP_cart]
  split <;> rfl

theorem ppuWrite_setP (s : State) (p : Byte) (a : Word) (v : Byte) :
    ppuWrite (s.setP p) a v = (ppuWrite s a v).setP p := by
  simp only [ppuWrite, State.setP_cart, ppuOwnWrite_setP]
  split
  case h_1 => rfl
  case h_2 => split <;> rfl

theorem writePpuRegister_setP (s : State) (p : Byte) (r : BitVec 3) (v : Byte) :
    writePpuRegister (s.setP p) r v = (writePpuRegister s r v).setP p := by
  unfold writePpuRegister
  split
  case h_6 =>
    rw [writePpuScroll, writePpuScroll, apply_ite (State.setP · p)]
    rfl
  case h_7 =>
    rw [writePpuAddr, writePpuAddr, apply_ite (State.setP · p)]
    rfl
  case h_8 =>
    simp only [writePpuData, State.setP_ppu, ppuWrite_setP]
    rfl
  all_goals rfl

theorem busOwnWrite_setP (s : State) (p : Byte) (a : Word) (v : Byte) :
    busOwnWrite (s.setP p) a v = (busOwnWrite s a v).setP p := by
  unfold busOwnWrite
  split
  case h_2 => exact writePpuRegister_setP s p _ v
  case h_4 k _ => cases k <;> rfl
  all_goals rfl

theorem cpuWrite_setP (s : State) (p : Byte) (a : Word) (v : Byte) :
    cpuWrite (s.setP p) a v = (cpuWrite s a v).setP p := by
  simp only [cpuWrite, State.setP_cart, busOwnWrite_setP]
  split <;> rfl

/-- A flag computation and a bus write can change places but for P. -/
theorem OnlyP.cpuWrite_outsideCpu {u w : State} (h : OnlyP u w) (a : Word) (v : Byte) :
    OutsideCpu (cpuWrite u a v) (cpuWrite w a v) := by
  unfold OnlyP at h
  rw [h, cpuWrite_setP]
  rfl

/-! Instructions with one bus write. -/

/-- A byte of work RAM just written is stored (R152, R153). -/
theorem storedByte_cpuWrite_ram (s : State) {a : Word} (v : Byte) (h : a.toNat < 0x2000) :
    storedByte (cpuWrite s a v) a = some v := by
  rw [storedByte_ram _ h, cpuWrite_ram s v h, State.setRam_ram, Memory.read_write_same]

/-- What is, outside the CPU, one bus write after a read of the same address or without one, completes with the frame
of a store. -/
theorem CompletesWriting.of_exec {i : Instr} {s u t : State} {a : Word} {v : Byte} {cpu : Cpu} {g : Flag → Bool}
    (hu : u = s ∨ u = (cpuRead s a).2) (hexec : exec i s = .next t) (hregs : RegistersAre t cpu)
    (hflags : FlagsAre t g) (hout : OutsideCpu (cpuWrite u a v) t) : CompletesWriting i s u a v cpu g := by
  obtain ⟨hbytes, -⟩ := hout.memoryUnchanged
  exact ⟨t, hexec, hregs, hflags, hout, fun ha => (hbytes a).trans (storedByte_cpuWrite_ram u v ha),
    (cpuWrite_frame hu v).outsideCpu hout⟩

theorem RegistersAre.finish {t : State} {cpu : Cpu} (h : RegistersAre t cpu) (i : Instr) (n : Nat) :
    RegistersAre (finish i n t) { cpu with cycles := baseCycles i + n } := by
  unfold RegistersAre at h ⊢
  exact congrArg (fun c : Cpu => { c with cycles := baseCycles i + n }) h

/-! The flags of a result. -/

/-- The flags of a shift (R440-R443). -/
theorem shiftFlags_flags (s : State) (carry : Bool) (r : Byte) (f : Flag) :
    (shiftFlags s carry r).flag f = cnzFlags s carry r f := by
  cases f <;> simp [shiftFlags, setNZ_flags, cnzFlags, nzFlags]

theorem cnzFlags_congr {s t : State} (h : t.cpu = s.cpu) (carry : Bool) (v : Byte) (f : Flag) :
    cnzFlags t carry v f = cnzFlags s carry v f := by
  rw [cnzFlags, nzFlags_congr h, cnzFlags]

/-- The carry that a rotate shifts in, as a byte (R442, R443). -/
theorem ofBool_setWidth_eight (c : Bool) : (BitVec.ofBool c).setWidth 8 = if c then (1 : Byte) else 0 := by
  cases c <;> rfl

theorem rolByte_eq (v : Byte) (s : State) :
    rolByte v s =
      let r := (v <<< 1) ||| if s.flag .c then 1 else 0
      (r, shiftFlags s (v.getLsbD 7) r) := by
  rw [rolByte, ofBool_setWidth_eight]

theorem rorByte_eq (v : Byte) (s : State) :
    rorByte v s =
      let r := ((if s.flag .c then 1 else 0 : Byte) <<< 7) ||| (v >>> 1)
      (r, shiftFlags s (v.getLsbD 0) r) := by
  rw [rorByte, ofBool_setWidth_eight]

/-! The accumulator forms. -/

/-- A shift of A, by what its byte function gives: the result in A, C, Z and N, the base cycles (R440-R443, R23). -/
theorem completesInCpu_of_exec_shift {i : Instr} {f : Byte → State → Byte × State} {s : State} {r : Byte}
    {out : Bool} (hexec : exec i s = .next (finish i 0 (modifyShift .acc f s)))
    (hf : f s.cpu.a s = (r, shiftFlags s out r)) :
    CompletesInCpu i s { s.cpu with a := r, cycles := baseCycles i } (cnzFlags s out r) := by
  rw [modifyShift, hf] at hexec
  exact .of_exec hexec rfl (shiftFlags_flags s out r) ((OnlyP.shiftFlags s out r).outsideCpu.trans rfl)

/-- Settles O25: each accumulator form is its byte function on A; a rotate's has the old C as a byte. -/
theorem shiftsOfTheAccumulator : Obligations.ShiftsOfTheAccumulator := by
  intro s v c does
  exact ⟨completesInCpu_of_exec_shift rfl rfl, completesInCpu_of_exec_shift rfl rfl,
    completesInCpu_of_exec_shift rfl (rolByte_eq v s), completesInCpu_of_exec_shift rfl (rorByte_eq v s)⟩

/-! The memory forms. -/

section
variable {i : Instr} {m : Addr} {f : Byte → State → Byte × State} {s u w : State} {v r : Byte}
  (hexec : exec i s = .next (finish i 0 (modify m f s))) (hread : cpuRead s (locate m s).addr = (v, u))
include hexec hread

/-- A read-modify-write whose byte function gives, of the byte read, `r` and a state `w` that differs in P alone: the
flags of `w`, the base cycles, and the write of `r` (R444). -/
theorem completesWriting_of_exec_modify {g : Flag → Bool} (hf : f v u = (r, w)) (hp : OnlyP u w)
    (hflags : FlagsAre w g) :
    CompletesWriting i s u (locate m s).addr r { s.cpu with cycles := baseCycles i } g := by
  have hu : u = (cpuRead s (locate m s).addr).2 := by rw [hread]
  have hcpu : (cpuWrite w (locate m s).addr r).cpu = w.cpu := (cpuWrite_effects w _ r).cpu
  rw [modify_eq, hread, hf] at hexec
  refine .of_exec (.inr hu) hexec ?registers ?flags ((hp.cpuWrite_outsideCpu _ r).trans rfl)
  case registers =>
    have hregs : RegistersAre (cpuWrite w (locate m s).addr r) s.cpu := by
      rw [RegistersAre, hcpu, ← (cpuRead_effects s (locate m s).addr).cpu, hread]
      exact congrArg State.cpu hp
    exact hregs.finish i 0
  case flags => exact fun f => (State.flag_congr hcpu f).trans (hflags f)

/-- A shift of memory, by what its byte function gives of the byte read (R440-R444). -/
theorem completesWriting_of_exec_shift {out : Bool} (hf : f v u = (r, shiftFlags u out r)) :
    CompletesWriting i s u (locate m s).addr r { s.cpu with cycles := baseCycles i } (cnzFlags s out r) := by
  have hcpu : u.cpu = s.cpu := by rw [← (cpuRead_effects s (locate m s).addr).cpu, hread]
  exact completesWriting_of_exec_modify hexec hread hf (.shiftFlags u out r) fun g =>
    (shiftFlags_flags u out r g).trans (cnzFlags_congr hcpu out r g)

/-- INC and DEC of memory, by what their byte function gives of the byte read (R500, R501, R444). -/
theorem completesWriting_of_exec_setNZ (hf : f v u = (r, setNZ u r)) :
    CompletesWriting i s u (locate m s).addr r { s.cpu with cycles := baseCycles i } (nzFlags s r) := by
  have hcpu : u.cpu = s.cpu := by rw [← (cpuRead_effects s (locate m s).addr).cpu, hread]
  exact completesWriting_of_exec_modify hexec hread hf (.setNZ u r) fun g =>
    (setNZ_flags u r g).trans (nzFlags_congr hcpu r g)
end

/-- Settles O26: each memory form is its byte function between the read and the write. The read leaves P, so a rotate
takes in the C of before. -/
theorem readModifyWriteOfMemory : Obligations.ReadModifyWriteOfMemory := by
  intro m s a v c does
  have hread : cpuRead s a = (v, (cpuRead s a).2) := rfl
  have hc : (cpuRead s a).2.flag .c = s.flag .c := State.flag_congr (cpuRead_effects s a).cpu .c
  refine ⟨completesWriting_of_exec_shift rfl hread rfl, completesWriting_of_exec_shift rfl hread rfl,
    completesWriting_of_exec_shift rfl hread ?rol, completesWriting_of_exec_shift rfl hread ?ror,
    completesWriting_of_exec_setNZ rfl hread rfl, completesWriting_of_exec_setNZ rfl hread rfl⟩
  case rol => rw [rolByte_eq, hc]
  case ror => rw [rorByte_eq, hc]

end Sys2Proof.Machine
end

section
/-!
PROOFS of the branches (44_branch.md): a branch is PC, moved to the target if taken, and its cycles.
-/
namespace Sys2Proof.Machine

/-- A branch changes PC and the cycle count alone (R460). -/
theorem branch_eq (i : Instr) (taken : Bool) (rel : Byte) (s : State) :
    branch i taken rel s =
      let target := branchTarget s.cpu.pc rel
      finish i (branchExtra taken s.cpu.pc target) (s.setPc (if taken then target else s.cpu.pc)) := by
  cases taken <;> rfl

/-- The whole count of a branch: 2 not taken, 3 taken within the page, 4 to another page (R460, R469). -/
theorem two_add_branchExtra (taken : Bool) (pc target : Word) :
    2 + branchExtra taken pc target = if taken then (if hiByte target = hiByte pc then 3 else 4) else 2 := by
  cases taken with
  | false => rfl
  | true => by_cases h : hiByte target = hiByte pc <;> simp [branchExtra, pageCrossed, h]

/-- An instruction with base count 2 that is `Branch(taken)` completes as a branch. -/
theorem completesBranch_of_exec {i : Instr} {taken : Bool} {rel : Byte} {s : State}
    (hexec : exec i s = .next (branch i taken rel s)) (hbase : baseCycles i = 2) : CompletesBranch i s taken rel := by
  rw [branch_eq] at hexec
  refine .of_exec hexec ?registers (fun _ => rfl) rfl
  rw [← two_add_branchExtra, ← hbase]
  rfl

/-- Settles O28: each of the eight is `Branch` on its flag, and each opcode's base count is 2. -/
theorem branchesFollowTheirFlag : Obligations.BranchesFollowTheirFlag := by
  intro rel s
  refine ⟨?_, ?_, ?_, ?_, ?_, ?_, ?_, ?_⟩ <;> exact completesBranch_of_exec rfl rfl

end Sys2Proof.Machine
end

section
/-!
PROOFS of the compares (45_compare.md): after the operand's read a compare changes P alone, by C, Z and N.
-/
namespace Sys2Proof.Machine

/-- Equality is a difference of 0, so Z of a compare is the Z of its difference (R480). -/
theorem cnzFlags_sub (s : State) (carry : Bool) (r v : Byte) (f : Flag) :
    cnzFlags s carry (r - v) f = if f = .z then decide (r = v) else cnzFlags s carry (r - v) f := by
  cases f with
  | z => exact decide_eq_decide.mpr sub_eq_zero
  | _ => rfl

/-- An instruction that is `Compare` of a register with its operand, after the operand's read: the registers of before,
the flags of the difference, and the cycles (R480, R321). -/
theorem completesReading_of_exec_compare {i : Instr} {m : Addr} {s : State} {n : Nat} (reg : Cpu → Byte)
    (hexec : exec i s = .next
      (finish i n (setCompareFlags (operand m s).state (reg (operand m s).state.cpu) (operand m s).value))) :
    CompletesReading i m s { s.cpu with cycles := baseCycles i + n }
      (cnzFlags s (decide ((operand m s).value.toNat ≤ (reg s.cpu).toNat)) (reg s.cpu - (operand m s).value)) := by
  have hcpu : (operand m s).state.cpu = s.cpu := (operand_effects m s).cpu
  have honly := OnlyP.setCompareFlags (operand m s).state (reg s.cpu) (operand m s).value
  rw [hcpu] at hexec
  refine .of_exec hexec ?registers ?flags (honly.outsideCpu.trans rfl)
  case registers =>
    rw [← hcpu]
    rfl
  case flags =>
    intro f
    exact (setCompareFlags_flags (operand m s).state (reg s.cpu) _ f).trans (cnzFlags_congr hcpu _ _ f)

/-- Settles O24: each of the three is `Compare` of its register with the operand; CMP alone adds the crossing cycle. -/
theorem comparesSetFlagsOnly : Obligations.ComparesSetFlagsOnly := by
  intro m s
  simp only [← cnzFlags_sub, ← operand_crossed]
  exact ⟨completesReading_of_exec_compare Cpu.a rfl, completesReading_of_exec_compare (n := 0) Cpu.x rfl,
    completesReading_of_exec_compare (n := 0) Cpu.y rfl⟩

end Sys2Proof.Machine
end

section
/-!
PROOFS of the increments and decrements of a register (46_incdec.md): Z and N of the new value, which goes to X or Y.
-/
namespace Sys2Proof.Machine

/-- What changes only the CPU's registers, with P as `SetNZ` of `v` leaves it, completes with the Z and N of `v` (R21). -/
theorem completesInCpu_of_exec_setNZ {i : Instr} {s t : State} {v : Byte} {cpu : Cpu} (hexec : exec i s = .next t)
    (hregs : RegistersAre t cpu) (hp : t.cpu.p = (setNZ s v).cpu.p) (hout : OutsideCpu s t) :
    CompletesInCpu i s cpu (nzFlags s v) := by
  have hflags : FlagsAre t (nzFlags s v) := by
    intro f
    rw [← setNZ_flags, State.flag, State.flag, hp]
  exact .of_exec hexec hregs hflags hout

/-- Settles O27: each of the four leaves P as `SetNZ` of its register one up or one down does, and otherwise writes that
register and the cycles alone. -/
theorem incrementAndDecrementOfRegisters : Obligations.IncrementAndDecrementOfRegisters := by
  intro s
  refine ⟨?inx, ?iny, ?dex, ?dey⟩ <;> exact completesInCpu_of_exec_setNZ rfl rfl rfl rfl

end Sys2Proof.Machine
end

section
/-!
PROOF of the execute tick: between the PPU cycle and the end of the tick a step is `exec` of the fetched instruction.
-/
namespace Sys2Proof.Machine

/-- Settles O4: no instruction stops, so the equation of the execute tick is one about `exec` itself. -/
theorem stepIsExecOfTheFetchedInstruction : Obligations.StepIsExecOfTheFetchedInstruction := by
  intro s hmaster htransfer hcycles
  obtain ⟨t, hexec⟩ := exec_next (fetchInstr (ppuClock s)).1 (fetchInstr (ppuClock s)).2
  rw [step_execute hmaster htransfer hcycles hexec, hexec]
  rfl

end Sys2Proof.Machine
end


section
/-!
PROOFS of the loads, the stores and the register transfers (47_load_store_transfer.md).
-/
namespace Sys2Proof.Machine

/-- What changes only the CPU's registers after the operand's read, with P as `SetNZ` of `v` leaves it, completes with the
Z and N of `v` (R21). -/
theorem completesReading_of_exec_setNZ {i : Instr} {m : Addr} {s t : State} {v : Byte} {cpu : Cpu}
    (hexec : exec i s = .next t) (hregs : RegistersAre t cpu) (hp : t.cpu.p = (setNZ (operand m s).state v).cpu.p)
    (hout : OutsideCpu (operand m s).state t) : CompletesReading i m s cpu (nzFlags s v) := by
  refine .of_exec hexec hregs (fun f => ?_) hout
  rw [← nzFlags_congr (operand_effects m s).cpu, ← setNZ_flags, State.flag, State.flag, hp]

/-- Settles O18: after the operand's read each load leaves P as `SetNZ` of the operand does, and writes its register and
the cycles alone. -/
theorem loadsTakeTheOperand : Obligations.LoadsTakeTheOperand := by
  intro m s v n
  simp only [n, ← operand_crossed, ← (operand_effects m s).cpu]
  refine ⟨?lda, ?ldx, ?ldy⟩ <;> exact completesReading_of_exec_setNZ rfl rfl rfl rfl

/-- An instruction that is one store: the bus write of the byte at the effective address and the base cycles (R350,
R523). -/
theorem completesWriting_of_exec_storeTo {i : Instr} {m : Addr} {v : Byte} {s : State}
    (hexec : exec i s = .next (finish i 0 (storeTo m v s))) :
    CompletesWriting i s s (locate m s).addr v { s.cpu with cycles := baseCycles i } s.flag := by
  rw [storeTo_eq] at hexec
  have hcpu : (cpuWrite s (locate m s).addr v).cpu = s.cpu := (cpuWrite_effects s _ v).cpu
  have hregs : RegistersAre (cpuWrite s (locate m s).addr v) s.cpu := by rw [RegistersAre, hcpu]
  exact .of_exec (.inl rfl) hexec (hregs.finish i 0) (fun f => State.flag_congr hcpu f) rfl

/-- Settles O20: each of the three is one store of its register. -/
theorem storesWriteTheRegister : Obligations.StoresWriteTheRegister :=
  fun _ _ => ⟨completesWriting_of_exec_storeTo rfl, completesWriting_of_exec_storeTo rfl,
    completesWriting_of_exec_storeTo rfl⟩

/-- Settles O19: five transfers leave P as `SetNZ` of the byte moved does; TXS leaves P as it was. -/
theorem transfersMoveOneRegister : Obligations.TransfersMoveOneRegister := by
  intro s
  refine ⟨?tax, ?tay, ?txa, ?tya, ?tsx, ?txs⟩
  case txs => exact .of_exec rfl rfl (fun _ => rfl) rfl
  all_goals exact completesInCpu_of_exec_setNZ rfl rfl rfl rfl

end Sys2Proof.Machine
end

section
/-!
PROOFS of the flag instructions, NOP and the illegal opcodes (49_subroutine_flag_nop.md).
-/
namespace Sys2Proof.Machine

/-- An instruction with base count 2 that writes one flag (R602-R608). -/
theorem completesInCpu_of_exec_setFlag {i : Instr} {s : State} {f : Flag} {on : Bool}
    (hexec : exec i s = .next (finish i 0 (s.setFlag f on))) (hbase : baseCycles i = 2) :
    CompletesInCpu i s { s.cpu with cycles := 2 } (oneFlag s f on) := by
  rw [← hbase]
  exact .of_exec hexec rfl (fun g => State.flag_setFlag s f g on) rfl

/-- Settles O34: seven instructions write one flag each, NOP none. -/
theorem flagInstructionsAndNop : Obligations.FlagInstructionsAndNop := by
  intro s does
  refine ⟨?clc, ?sec, ?cli, ?sei, ?cld, ?sed, ?clv, ?nop⟩
  case nop => exact .of_exec rfl rfl (fun _ => rfl) rfl
  all_goals exact completesInCpu_of_exec_setFlag rfl rfl

/-- Settles O35: the length and the count are the two open constants of the opcode, each one more than its stored
predecessor. -/
theorem illegalOpcodesDoNothing : Obligations.IllegalOpcodesDoNothing := by
  intro op
  have hlen := (Config.illegalLenPred op).isLt
  exact ⟨(Config.illegalLenPred op).val + 1, Config.illegalCyclesPred op + 1, by omega, by omega, by omega, fun _ => rfl⟩

end Sys2Proof.Machine
end

section
/-!
PROOFS of the jumps and subroutines (49_subroutine_flag_nop.md) and of the interrupts (60_exceptions.md): what is pushed,
where it is read again, and the poll at the end of a tick.
-/
namespace Sys2Proof.Machine

/-! Jumps and subroutines. -/

/-- Settles O29: an absolute jump changes PC and the cycles alone; an indirect one does so after its two pointer reads. -/
theorem jmpGoesToItsTarget : Obligations.JmpGoesToItsTarget := by
  refine ⟨fun w s => .of_exec rfl rfl (fun _ => rfl) rfl, fun p s => ?_⟩
  intro lo hi
  have hreads : ReadEffects s hi.2 := jumpAddress_effects (.ind p) s
  refine ⟨finish (.jmp (.ind p)) 0 (hi.2.setPc (word16 hi.1 lo.1)), rfl, ?cpu, rfl, ?memory⟩
  case cpu =>
    rw [← hreads.cpu]
    rfl
  case memory => exact hreads.memoryUnchanged.outsideCpu rfl

/-- Two stack bytes whose addresses differ by less than a page are two (R54). -/
theorem stackIndex_sub_ne {sp k : Byte} (hk : k ≠ 0) : 256 + sp.toNat ≠ 256 + (sp - k).toNat := by
  bv_omega

/-- The bytes of a pushed word, the high one above the low one (R163). -/
theorem read_ram_pushWord (s : State) (w : Word) :
    Memory.read (pushWord s w).ram (256 + s.cpu.sp.toNat) = hiByte w
      ∧ Memory.read (pushWord s w).ram (256 + (s.cpu.sp - 1).toNat) = loByte w := by
  rw [pushWord_eq, State.setSp_ram, State.setRam_ram]
  refine ⟨?_, Memory.read_write_same _ _ _⟩
  rw [Memory.read_write_ne _ _ (stackIndex_sub_ne (by decide)), Memory.read_write_same]

theorem pushWord_stackFrame (s : State) (w : Word) : StackFrame s (pushWord s w) 2 :=
  ((StackFrame.refl s).push (BitVec.sub_zero _).symm _).push (by rw [push_eq]; rfl) _

theorem pushWord_cpu (s : State) (w : Word) : (pushWord s w).cpu = { s.cpu with sp := s.cpu.sp - 2 } := by
  have hsp : s.cpu.sp - 1 - 1 = s.cpu.sp - 2 := by rw [BitVec.sub_sub]; rfl
  rw [pushWord_eq, hsp]
  rfl

/-- Settles O30: JSR is a pushed word, then PC and the cycles. -/
theorem jsrPushesItsLastAddress : Obligations.JsrPushesItsLastAddress := by
  intro w s
  obtain ⟨hhigh, hlow⟩ := read_ram_pushWord s (s.cpu.pc - 1)
  refine ⟨finish (.jsr w) 0 ((pushWord s (s.cpu.pc - 1)).setPc w), rfl, ?cpu, hhigh, hlow,
    (pushWord_stackFrame s _).outsideCpu rfl⟩
  change { (pushWord s (s.cpu.pc - 1)).cpu with pc := w, cycles := 6 } = _
  rw [pushWord_cpu]

/-- RTS as one equation (R582). -/
theorem exec_rts (s : State) :
    exec .rts s = .next (finish .rts 0 ((s.setSp (s.cpu.sp + 2)).setPc
      (word16 (Memory.read s.ram (256 + (s.cpu.sp + 2).toNat)) (Memory.read s.ram (256 + (s.cpu.sp + 1).toNat)) + 1))) := by
  have hsp : s.cpu.sp + 1 + 1 = s.cpu.sp + 2 := by rw [BitVec.add_assoc]; rfl
  change execRts s = _
  rw [execRts, pullWord_eq, hsp]

/-- Settles O31: RTS is a pulled word; right after JSR it is the word that JSR pushed. -/
theorem rtsReturnsAfterTheCall : Obligations.RtsReturnsAfterTheCall := by
  refine ⟨fun s => .of_exec (exec_rts s) rfl (fun _ => rfl) rfl, fun w s t hjsr => ⟨_, exec_rts t, ?_⟩⟩
  obtain ⟨t', hjsr', hcpu, hhigh, hlow, -⟩ := jsrPushesItsLastAddress w s
  cases hjsr.symm.trans hjsr'
  have hsp2 : s.cpu.sp - 2 + 2 = s.cpu.sp := BitVec.sub_add_cancel _ _
  have hsp1 : s.cpu.sp - 2 + 1 = s.cpu.sp - 1 := by bv_omega
  simp only [finish, State.setCycles_pc, State.setPc_pc, State.setCycles_sp, State.setPc_sp, State.setSp_sp, hcpu, hsp2,
    hsp1, hhigh, hlow, word16_hiByte_loByte, BitVec.sub_add_cancel, and_self]

/-! Taking an interrupt. -/

theorem PlainAddress.ofHigh {a : Word} (h : 0x4018 ≤ a.toNat) : PlainAddress a := by
  refine ⟨by unfold InPpuWindow; omega, ?_, ?_⟩ <;> (intro e; subst e; revert h; decide)

/-- What an interrupt pushes: PC, then the status image (R626). -/
def interruptPushes (s : State) (image : Byte) : State := push (pushWord s s.cpu.pc) image

theorem interruptPushes_cpu (s : State) (image : Byte) :
    (interruptPushes s image).cpu = { s.cpu with sp := s.cpu.sp - 3 } := by
  have hsp : s.cpu.sp - 2 - 1 = s.cpu.sp - 3 := by rw [BitVec.sub_sub]; rfl
  rw [interruptPushes, push_eq, State.setSp, State.setRam, pushWord_cpu, hsp]

theorem interruptPushes_stackFrame (s : State) (image : Byte) : StackFrame s (interruptPushes s image) 3 :=
  (pushWord_stackFrame s _).push (by rw [pushWord_cpu]; rfl) _

theorem read_ram_interruptPushes (s : State) (image : Byte) :
    Memory.read (interruptPushes s image).ram (256 + s.cpu.sp.toNat) = hiByte s.cpu.pc
      ∧ Memory.read (interruptPushes s image).ram (256 + (s.cpu.sp - 1).toNat) = loByte s.cpu.pc
      ∧ Memory.read (interruptPushes s image).ram (256 + (s.cpu.sp - 2).toNat) = image := by
  obtain ⟨hhigh, hlow⟩ := read_ram_pushWord s s.cpu.pc
  have hsp : s.cpu.sp - 2 = s.cpu.sp - 1 - 1 := by rw [BitVec.sub_sub]; rfl
  rw [interruptPushes, push_eq, State.setSp_ram, State.setRam_ram, pushWord_cpu]
  refine ⟨?_, ?_, Memory.read_write_same _ _ _⟩
  · rw [Memory.read_write_ne _ _ (stackIndex_sub_ne (by decide)), hhigh]
  · rw [hsp, Memory.read_write_ne _ _ (stackIndex_sub_ne (by decide)), hlow]

/-- The vector read has no side effect, and what it reads does not depend on the pushes before it nor on what the CPU's
registers become (R160, R166). -/
theorem takeInterrupt_eq_pushes (s : State) (image : Byte) {vector : Word} (h : 0x4018 ≤ vector.toNat)
    (h' : 0x4018 ≤ (vector + 1).toNat) {t : State} (hout : OutsideCpu (interruptPushes s image) t) :
    takeInterrupt s image vector =
      ((interruptPushes s image).setFlag .i true).setPc (word16 (cpuRead t (vector + 1)).1 (cpuRead t vector).1) := by
  have same (a : Word) (ha : 0x4018 ≤ a.toNat) :
      (cpuRead ((interruptPushes s image).setFlag .i true) a).1 = (cpuRead t a).1 :=
    cpuRead_plain_congr (.ofHigh ha) (by rw [hout]; rfl) (by rw [hout]; rfl)
  rw [← same _ h, ← same _ h', takeInterrupt, ← interruptPushes, read16_vector _ h h']

theorem RegistersAre.of_cpu {t : State} {cpu : Cpu} {p : Byte} (h : t.cpu = { cpu with p := p }) :
    RegistersAre t cpu := by
  rw [RegistersAre, h]

/-- The registers one by one. -/
theorem RegistersAre.fields {t : State} {cpu : Cpu} (h : RegistersAre t cpu) :
    t.cpu.a = cpu.a ∧ t.cpu.x = cpu.x ∧ t.cpu.y = cpu.y ∧ t.cpu.sp = cpu.sp ∧ t.cpu.pc = cpu.pc := by
  rw [RegistersAre] at h
  rw [h]
  exact ⟨rfl, rfl, rfl, rfl, rfl⟩

/-- An interrupt taken leaves the frame of R626, whatever the cycle count is then set to. -/
theorem takeInterrupt_entersInterrupt (s : State) (image : Byte) {vector : Word} (n : Nat) (h : 0x4018 ≤ vector.toNat)
    (h' : 0x4018 ≤ (vector + 1).toNat) :
    EntersInterrupt s ((takeInterrupt s image vector).setCycles n) s.cpu.pc image vector n := by
  set t := (takeInterrupt s image vector).setCycles n with ht
  have hout : OutsideCpu (interruptPushes s image) t := by
    rw [ht, takeInterrupt_eq_pushes s image h h' (t := interruptPushes s image) rfl]
    rfl
  rw [takeInterrupt_eq_pushes s image h h' hout] at ht
  obtain ⟨hhigh, hlow, himage⟩ := read_ram_interruptPushes s image
  have hram : t.ram = (interruptPushes s image).ram := by rw [hout]
  have hcpu := interruptPushes_cpu s image
  rw [← hram] at hhigh hlow himage
  refine ⟨hhigh, hlow, himage, ?registers, ?flags, (interruptPushes_stackFrame s image).outsideCpu hout⟩
  case registers =>
    have hregs : RegistersAre t { (interruptPushes s image).cpu with
        pc := word16 (cpuRead t (vector + 1)).1 (cpuRead t vector).1, cycles := n } := .of_cpu (congrArg State.cpu ht)
    rwa [hcpu] at hregs
  case flags =>
    intro f
    have hflag : t.flag f = ((interruptPushes s image).setFlag .i true).flag f := by rw [ht]; rfl
    rw [hflag, State.flag_setFlag, State.flag, hcpu]
    rfl

/-- Settles O16: BRK takes the interrupt after PC has moved past the padding byte. -/
theorem brkTakesTheInterrupt : Obligations.BrkTakesTheInterrupt :=
  fun s => ⟨_, rfl, takeInterrupt_entersInterrupt (s.setPc (s.cpu.pc + 1)) _ (vector := 0xFFFE) 7 (by decide) (by decide)⟩

theorem irqEntry_entersInterrupt {s : State} (h : s.flag .i = false) :
    EntersInterrupt s (irqEntry s) s.cpu.pc (interruptStatus s.cpu.p) 0xFFFE 7 := by
  rw [irqEntry, if_neg (by rw [h]; decide)]
  exact takeInterrupt_entersInterrupt s _ 7 (by decide) (by decide)

theorem nmiEntry_entersInterrupt (s : State) :
    EntersInterrupt s (nmiEntry s) s.cpu.pc (interruptStatus s.cpu.p) 0xFFFA 8 :=
  takeInterrupt_entersInterrupt s _ 8 (by decide) (by decide)

/-- Settles O13: I suppresses the IRQ entry, and each of the two entries takes its interrupt. -/
theorem irqAndNmiEntry : Obligations.IrqAndNmiEntry :=
  fun s => ⟨fun h => if_pos h, irqEntry_entersInterrupt, nmiEntry_entersInterrupt s⟩

/-! The return. -/

/-- RTI as one equation (R601). -/
theorem exec_rti (s : State) :
    exec .rti s = .next (finish .rti 0
      (((s.setP (pulledStatus (Memory.read s.ram (256 + (s.cpu.sp + 1).toNat)))).setSp (s.cpu.sp + 3)).setPc
        (word16 (Memory.read s.ram (256 + (s.cpu.sp + 3).toNat)) (Memory.read s.ram (256 + (s.cpu.sp + 2).toNat))))) := by
  rw [← returnFromInterrupt_eq]
  rfl

/-- Settles O17: RTI changes the CPU's registers alone, P as pulled. -/
theorem rtiRestoresStatusAndPc : Obligations.RtiRestoresStatusAndPc :=
  fun s => .of_exec (exec_rti s) rfl (pulledStatus_flags _) rfl

/-- The status image that IRQ and NMI entry push differs from P in B and U, which RTI does not take from it (R622, R629). -/
theorem pulledFlags_interruptStatus (p : Byte) (f : Flag) : pulledFlags (interruptStatus p) f = pulledFlags p f := by
  cases f <;> simp [pulledFlags, interruptStatus, flagBit]

/-- RTI after an interrupt entry pulls what the entry pushed (R626, R629). -/
theorem rti_after_entersInterrupt {s e : State} {ret vector : Word} {image : Byte} {n : Nat}
    (h : EntersInterrupt s e ret image vector n) :
    ∃ t, exec .rti e = .next t ∧ t.cpu.pc = ret ∧ t.cpu.sp = s.cpu.sp ∧ t.cpu.a = s.cpu.a ∧ t.cpu.x = s.cpu.x
      ∧ t.cpu.y = s.cpu.y ∧ FlagsAre t (pulledFlags image) := by
  obtain ⟨hhigh, hlow, himage, hregs, -, -⟩ := h
  obtain ⟨t, hexec, hcpu, hflags, -, -⟩ := rtiRestoresStatusAndPc e
  obtain ⟨hae, hxe, hye, hsp, -⟩ := hregs.fields
  obtain ⟨ha, hx, hy, hspt, hpc⟩ := hcpu.fields
  have hsp1 : s.cpu.sp - 3 + 1 = s.cpu.sp - 2 := by bv_omega
  have hsp2 : s.cpu.sp - 3 + 2 = s.cpu.sp - 1 := by bv_omega
  have hsp3 : s.cpu.sp - 3 + 3 = s.cpu.sp := BitVec.sub_add_cancel _ _
  simp only [hsp, hsp1, himage] at hflags
  simp only [hsp, hsp2, hsp3, hhigh, hlow, word16_hiByte_loByte] at hspt hpc
  exact ⟨t, hexec, hpc, hspt, ha.trans hae, hx.trans hxe, hy.trans hye, hflags⟩

/-- Settles O15: RTI undoes either entry, and its status image gives back every flag but B and U. -/
theorem rtiUndoesInterruptEntry : Obligations.RtiUndoesInterruptEntry := by
  intro s back
  have of_entry {e : State} {vector : Word} {n : Nat}
      (h : EntersInterrupt s e s.cpu.pc (interruptStatus s.cpu.p) vector n) : back e := by
    have hback := rti_after_entersInterrupt h
    simp only [FlagsAre, pulledFlags_interruptStatus] at hback
    exact hback
  exact ⟨of_entry (nmiEntry_entersInterrupt s), fun h => of_entry (irqEntry_entersInterrupt h)⟩

/-! The poll at the end of a master tick. -/

/-- An interrupt entry leaves the cartridge and sets I (R626, R631). -/
theorem EntersInterrupt.cart {s t : State} {ret vector : Word} {image : Byte} {n : Nat}
    (h : EntersInterrupt s t ret image vector n) : t.cart = s.cart := by
  obtain ⟨-, -, -, -, -, -, hrest⟩ := h
  rw [hrest]

theorem EntersInterrupt.flag_i {s t : State} {ret vector : Word} {image : Byte} {n : Nat}
    (h : EntersInterrupt s t ret image vector n) : t.flag .i = true := by
  obtain ⟨-, -, -, -, hflags, -⟩ := h
  exact hflags .i

theorem cartIrqState_cartIrqClear (c : Cartridge) : cartIrqState (cartIrqClear c) = false := by
  cases h : c.mapper <;> simp only [cartIrqClear, cartIrqState, h]

theorem pollNmi_cart (s : State) : (pollNmi s).cart = s.cart := by
  unfold pollNmi
  split
  · exact (nmiEntry_entersInterrupt _).cart
  · rfl

theorem pollIrq_noCart {s : State} (h : s.cart = none) : pollIrq s = s := by
  rw [pollIrq, h]

theorem pollIrq_cart {s : State} {c : Cartridge} (h : s.cart = some c) :
    pollIrq s = if cartIrqState c then irqEntry (s.setCart (some (cartIrqClear c))) else s := by
  rw [pollIrq, h]

/-- Settles O14: the NMI poll leaves the cartridge, so the IRQ poll after it sees the same line; an NMI taken has set I,
which suppresses the IRQ. -/
theorem pollingTakesNmiBeforeIrq : Obligations.PollingTakesNmiBeforeIrq := by
  intro s quiet
  have hpoll : pollInterrupts s = pollIrq (if s.ppu.nmi then nmiEntry quiet else s) := rfl
  refine ⟨fun hc => pollIrq_noCart ((pollNmi_cart s).trans hc), fun c hc => ⟨fun hline => ?quiet, fun hline hnmi => ?both,
    fun hline hnmi => ?irq, cartIrqState_cartIrqClear c⟩⟩
  all_goals rw [pollInterrupts, pollIrq_cart ((pollNmi_cart s).trans hc), hline, pollNmi]
  case quiet => rfl
  case both =>
    rw [if_pos hnmi, if_pos rfl]
    have hi : (nmiEntry quiet).flag .i = true := (nmiEntry_entersInterrupt quiet).flag_i
    exact if_pos hi
  case irq => rw [hnmi]; rfl

end Sys2Proof.Machine
end

section
/-!
PROOFS about the fields of a loopy register (R75), each of which reads back as it was set, and from them the increments and
copies of the VRAM address (R665-R669).
-/
namespace Sys2Proof.Machine

/-! The fields as numbers. -/

theorem coarseX_toNat (v : BitVec 15) : (coarseX v).toNat = v.toNat % 32 := by
  rw [coarseX, BitVec.extractLsb'_toNat, Nat.shiftRight_zero]

theorem coarseY_toNat (v : BitVec 15) : (coarseY v).toNat = v.toNat / 32 % 32 := by
  rw [coarseY, BitVec.extractLsb'_toNat, Nat.shiftRight_eq_div_pow]

theorem nametableX_toNat (v : BitVec 15) : (nametableX v).toNat = v.toNat / 1024 % 2 := by
  rw [nametableX, BitVec.extractLsb'_toNat, Nat.shiftRight_eq_div_pow]

theorem nametableY_toNat (v : BitVec 15) : (nametableY v).toNat = v.toNat / 2048 % 2 := by
  rw [nametableY, BitVec.extractLsb'_toNat, Nat.shiftRight_eq_div_pow]

theorem fineY_toNat (v : BitVec 15) : (fineY v).toNat = v.toNat / 4096 := by
  have := v.isLt
  rw [fineY, BitVec.extractLsb'_toNat, Nat.shiftRight_eq_div_pow]
  omega

/-- Fields put side by side: the number of the high one times the size of the low one, and the low one. -/
theorem toNat_append_eq_mul_add {m n : Nat} (x : BitVec m) (y : BitVec n) :
    (x ++ y).toNat = x.toNat * 2 ^ n + y.toNat := by
  rw [BitVec.toNat_append, ← Nat.shiftLeft_add_eq_or_of_lt y.isLt, Nat.shiftLeft_eq]

theorem loopy_toNat (fy : BitVec 3) (ny nx : BitVec 1) (cy cx : BitVec 5) :
    (loopy fy ny nx cy cx).toNat =
      fy.toNat * 4096 + ny.toNat * 2048 + nx.toNat * 1024 + cy.toNat * 32 + cx.toNat := by
  simp only [loopy, toNat_append_eq_mul_add]
  omega

/-! Each field of a register built from fields is the one given. -/

section
variable (fy : BitVec 3) (ny nx : BitVec 1) (cy cx : BitVec 5)

@[simp] theorem coarseX_loopy : coarseX (loopy fy ny nx cy cx) = cx := by
  apply BitVec.eq_of_toNat_eq
  rw [coarseX_toNat, loopy_toNat]
  omega

@[simp] theorem coarseY_loopy : coarseY (loopy fy ny nx cy cx) = cy := by
  apply BitVec.eq_of_toNat_eq
  rw [coarseY_toNat, loopy_toNat]
  omega

@[simp] theorem nametableX_loopy : nametableX (loopy fy ny nx cy cx) = nx := by
  apply BitVec.eq_of_toNat_eq
  rw [nametableX_toNat, loopy_toNat]
  omega

@[simp] theorem nametableY_loopy : nametableY (loopy fy ny nx cy cx) = ny := by
  apply BitVec.eq_of_toNat_eq
  rw [nametableY_toNat, loopy_toNat]
  omega

@[simp] theorem fineY_loopy : fineY (loopy fy ny nx cy cx) = fy := by
  apply BitVec.eq_of_toNat_eq
  rw [fineY_toNat, loopy_toNat]
  omega
end

/-! The increments and the copies. -/

theorem nextCoarseX_wrap {v : BitVec 15} (h : coarseX v = 31) :
    nextCoarseX v = loopy (fineY v) (nametableY v) (~~~ nametableX v) (coarseY v) 0 := by
  simp [nextCoarseX, h, setNametableX, setCoarseX]

theorem nextCoarseX_step {v : BitVec 15} (h : coarseX v ≠ 31) :
    nextCoarseX v = loopy (fineY v) (nametableY v) (nametableX v) (coarseY v) (coarseX v + 1) := by
  rw [nextCoarseX, if_neg h, setCoarseX]

/-- Within a tile row of pixels only fine Y moves (R666). -/
theorem nextY_fine {v : BitVec 15} (h : fineY v ≠ 7) :
    nextY v = loopy (fineY v + 1) (nametableY v) (nametableX v) (coarseY v) (coarseX v) := by
  rw [nextY, if_pos (by bv_omega), setFineY]

/-- From the last row of pixels on to the next row of tiles, and from the last of those on to the other nametable
(R666). -/
theorem nextY_lastTileRow {v : BitVec 15} (h : fineY v = 7) (h29 : coarseY v = 29) :
    nextY v = loopy 0 (~~~ nametableY v) (nametableX v) 0 (coarseX v) := by
  simp [nextY, h, h29, setNametableY, setCoarseY, setFineY]

/-- A row number past the nametable's wraps without changing it (R666). -/
theorem nextY_row31 {v : BitVec 15} (h : fineY v = 7) (h31 : coarseY v = 31) :
    nextY v = loopy 0 (nametableY v) (nametableX v) 0 (coarseX v) := by
  simp [nextY, h, h31, setCoarseY, setFineY]

theorem nextY_tileRow {v : BitVec 15} (h : fineY v = 7) (h29 : coarseY v ≠ 29) (h31 : coarseY v ≠ 31) :
    nextY v = loopy 0 (nametableY v) (nametableX v) (coarseY v + 1) (coarseX v) := by
  rw [nextY, if_neg (by rw [h]; decide), if_neg h29, if_neg h31]
  simp [setCoarseY, setFineY]

/-- Settles O51: each increment and copy is a register built from its fields. -/
theorem scrollIncrementsAndCopies : Obligations.ScrollIncrementsAndCopies := by
  intro v t
  refine ⟨?coarseX, ?y, ?copyX, ?copyY⟩
  case coarseX =>
    by_cases h : coarseX v = 31
    · simp [nextCoarseX_wrap h, h]
    · refine ⟨fun h' => absurd h' h, fun _ => ?_, ?_⟩ <;> simp [nextCoarseX_step h]
  case y =>
    by_cases h : fineY v = 7
    · by_cases h29 : coarseY v = 29
      · simp [nextY_lastTileRow h h29, h, h29]
      · by_cases h31 : coarseY v = 31
        · simp [nextY_row31 h h31, h, h31]
        · rw [nextY_tileRow h h29 h31]
          refine ⟨fun h' => absurd h h', fun _ => ⟨?_, fun h' => absurd h' h29, fun h' => absurd h' h31, fun _ _ => ?_⟩,
            ?_⟩ <;> simp
    · refine ⟨fun _ => ?_, fun h' => absurd h' h, ?_⟩ <;> simp [nextY_fine h]
  case copyX => simp [copyX, setCoarseX, setNametableX]
  case copyY => simp [copyY, setCoarseY, setNametableY, setFineY]

end Sys2Proof.Machine
end

section
/-!
PROOFS about the PPU's registers as the CPU reaches them (R640-R648): which write or read each address is, what the writes
leave in the temporary VRAM address, and the two data ports.
-/
namespace Sys2Proof.Machine

/-! The access that each address of the window makes. -/

section
variable (s : State) (v : Byte)

theorem cpuWrite_0x2000 : cpuWrite s 0x2000 v = writePpuCtrl s v := cpuWrite_window s v ⟨by decide, by decide⟩

theorem cpuWrite_0x2001 : cpuWrite s 0x2001 v = s.setPpu { s.ppu with mask := v } :=
  cpuWrite_window s v ⟨by decide, by decide⟩

theorem cpuWrite_0x2002 : cpuWrite s 0x2002 v = s := cpuWrite_window s v ⟨by decide, by decide⟩

theorem cpuWrite_0x2003 : cpuWrite s 0x2003 v = s.setPpu { s.ppu with oamAddr := v } :=
  cpuWrite_window s v ⟨by decide, by decide⟩

theorem cpuWrite_0x2004 : cpuWrite s 0x2004 v = writeOamData s v := cpuWrite_window s v ⟨by decide, by decide⟩

theorem cpuWrite_0x2005 : cpuWrite s 0x2005 v = writePpuScroll s v := cpuWrite_window s v ⟨by decide, by decide⟩

theorem cpuWrite_0x2006 : cpuWrite s 0x2006 v = writePpuAddr s v := cpuWrite_window s v ⟨by decide, by decide⟩

theorem cpuWrite_0x2007 : cpuWrite s 0x2007 v = writePpuData s v := cpuWrite_window s v ⟨by decide, by decide⟩

theorem cpuRead_0x2002 : cpuRead s 0x2002 = readPpuStatus s := cpuRead_window s ⟨by decide, by decide⟩

theorem cpuRead_0x2004 : cpuRead s 0x2004 = readOamData s := cpuRead_window s ⟨by decide, by decide⟩

theorem cpuRead_0x2007 : cpuRead s 0x2007 = readPpuData s := cpuRead_window s ⟨by decide, by decide⟩
end

/-- Settles O42: the sprite bits lie in 6:5 and the open ones in 4:0, so bit 7 is the status's own. -/
theorem ppuStatusReadClearsVblankAndLatch : Obligations.PpuStatusReadClearsVblankAndLatch := by
  intro s
  rw [cpuRead_0x2002]
  refine ⟨?_, rfl⟩
  simp [readPpuStatus]

/-! The two bytes of a VRAM address as numbers (R646). -/

/-- An `or` of numbers without a common bit is their sum. -/
theorem toNat_or_eq_add {w : Nat} (k : Nat) {x y : BitVec w} (hx : 2 ^ k ∣ x.toNat) (hy : y.toNat < 2 ^ k) :
    (x ||| y).toNat = x.toNat + y.toNat := by
  obtain ⟨a, ha⟩ := hx
  rw [BitVec.toNat_or, ha, Nat.two_pow_add_eq_or_of_lt hy]

/-- A mask that keeps the bits from 8 on. -/
theorem and_highMask (n k : Nat) : n &&& (2 ^ k - 1) * 256 = n / 256 % 2 ^ k * 256 := by
  have hmod : (n &&& (2 ^ k - 1) * 256) % 256 = 0 := by
    rw [Nat.and_mod_two_pow (n := 8), Nat.mul_mod_left, Nat.and_zero]
  have hdiv : (n &&& (2 ^ k - 1) * 256) / 256 = n / 256 % 2 ^ k := by
    rw [Nat.and_div_two_pow (n := 8), Nat.mul_div_cancel _ (by decide), Nat.and_two_pow_sub_one_eq_mod]
  omega

/-- The first byte gives the high six bits, bit 14 being 0, and the low byte stays. -/
theorem vramHighByte_eq_ofNat (v : Byte) (t : BitVec 15) :
    ((v.setWidth 15 &&& 0x3F) <<< 8) ||| (t &&& 0x00FF) =
      BitVec.ofNat 15 (v.toNat % 64 * 256 + t.toNat % 256) := by
  have := v.isLt
  have hhigh : ((v.setWidth 15 &&& 0x3F) <<< 8).toNat = v.toNat % 64 * 256 := by
    have hmask : (v.setWidth 15 &&& 0x3F).toNat = v.toNat % 64 := by
      rw [BitVec.toNat_and, BitVec.toNat_setWidth, Nat.mod_eq_of_lt (by omega)]
      exact Nat.and_two_pow_sub_one_eq_mod v.toNat 6
    rw [BitVec.toNat_shiftLeft, hmask, Nat.shiftLeft_eq]
    omega
  have hlow : (t &&& 0x00FF).toNat = t.toNat % 256 := Nat.and_two_pow_sub_one_eq_mod t.toNat 8
  apply BitVec.eq_of_toNat_eq
  rw [toNat_or_eq_add 8 (by omega) (by omega), hhigh, hlow, BitVec.toNat_ofNat]
  omega

/-- The second byte gives the low eight bits, and the high byte stays. -/
theorem vramLowByte_eq_ofNat (v : Byte) (t : BitVec 15) :
    (t &&& 0x7F00) ||| v.setWidth 15 = BitVec.ofNat 15 (t.toNat / 256 * 256 + v.toNat) := by
  have := v.isLt
  have := t.isLt
  have hhigh : (t &&& 0x7F00).toNat = t.toNat / 256 * 256 := by
    rw [BitVec.toNat_and, show (0x7F00 : BitVec 15).toNat = (2 ^ 7 - 1) * 256 by decide, and_highMask]
    omega
  have hlow : (v.setWidth 15).toNat = v.toNat := by
    rw [BitVec.toNat_setWidth, Nat.mod_eq_of_lt (by omega)]
  apply BitVec.eq_of_toNat_eq
  rw [toNat_or_eq_add 8 (by omega) (by omega), hhigh, hlow, BitVec.toNat_ofNat]
  omega

/-! The writes that take two bytes (R644, R646). -/

section
variable {s : State} (v : Byte)

theorem writePpuScroll_first (h : s.ppu.w = false) :
    writePpuScroll s v = s.setPpu { s.ppu with
      fineX := v.extractLsb' 0 3, tramAddr := setCoarseX s.ppu.tramAddr (v.extractLsb' 3 5), w := true } := by
  rw [writePpuScroll, h]
  rfl

theorem writePpuScroll_second (h : s.ppu.w = true) :
    writePpuScroll s v = s.setPpu { s.ppu with
      tramAddr := setCoarseY (setFineY s.ppu.tramAddr (v.extractLsb' 0 3)) (v.extractLsb' 3 5), w := false } := by
  rw [writePpuScroll, h]
  rfl

theorem writePpuAddr_first (h : s.ppu.w = false) :
    writePpuAddr s v = s.setPpu { s.ppu with
      tramAddr := BitVec.ofNat 15 (v.toNat % 64 * 256 + s.ppu.tramAddr.toNat % 256), w := true } := by
  rw [writePpuAddr, h, ← vramHighByte_eq_ofNat]
  rfl

theorem writePpuAddr_second (h : s.ppu.w = true) :
    let t := BitVec.ofNat 15 (s.ppu.tramAddr.toNat / 256 * 256 + v.toNat)
    writePpuAddr s v = s.setPpu { s.ppu with tramAddr := t, vramAddr := t, w := false } := by
  rw [writePpuAddr, h, ← vramLowByte_eq_ofNat]
  rfl
end

/-- Settles O43: each address is its register's write, by the latch where the write takes two bytes; the fields of the
temporary address read back as they were set. -/
theorem ppuRegisterWrites : Obligations.PpuRegisterWrites := by
  intro s v q keepsScroll keepsTables
  refine ⟨⟨_, cpuWrite_0x2000 s v, ?ctrl⟩, cpuWrite_0x2001 s v, cpuWrite_0x2002 s v, cpuWrite_0x2003 s v,
    fun h => ⟨_, (cpuWrite_0x2005 s v).trans (writePpuScroll_first v h), ?first⟩,
    fun h => ⟨_, (cpuWrite_0x2005 s v).trans (writePpuScroll_second v h), ?second⟩,
    fun h => (cpuWrite_0x2006 s v).trans (writePpuAddr_first v h),
    fun h => (cpuWrite_0x2006 s v).trans (writePpuAddr_second v h)⟩
  case ctrl => simp [keepsScroll, q, setNametableX, setNametableY]
  case first => simp [keepsTables, q, setCoarseX]
  case second => simp [keepsTables, q, setCoarseY, setFineY]

/-! The latch (R647). -/

theorem writePpuScroll_w (s : State) (v : Byte) : (writePpuScroll s v).ppu.w = !s.ppu.w := by
  cases h : s.ppu.w with
  | false => rw [writePpuScroll_first v h]; rfl
  | true => rw [writePpuScroll_second v h]; rfl

theorem writePpuAddr_w (s : State) (v : Byte) : (writePpuAddr s v).ppu.w = !s.ppu.w := by
  cases h : s.ppu.w with
  | false => rw [writePpuAddr_first v h]; rfl
  | true => rw [writePpuAddr_second v h]; rfl

/-- Settles O44: both writes toggle the one latch, so that a PPUSCROLL write after a first PPUADDR write is a second one;
coarse X is in the low byte, which the first PPUADDR write keeps. -/
theorem sharedWriteLatch : Obligations.SharedWriteLatch := by
  intro s v u a x y
  rw [cpuWrite_0x2005, cpuWrite_0x2006, cpuRead_0x2002, busReset_eq]
  refine ⟨writePpuScroll_w s v, writePpuAddr_w s v, rfl, rfl, fun h => ?_⟩
  have hw : (writePpuAddr s v).ppu.w = true := by rw [writePpuAddr_w, h]; rfl
  have hcoarse : coarseX (writePpuAddr s v).ppu.tramAddr = coarseX s.ppu.tramAddr := by
    apply BitVec.eq_of_toNat_eq
    rw [writePpuAddr_first v h, coarseX_toNat, coarseX_toNat, State.setPpu_ppu, BitVec.toNat_ofNat]
    omega
  have hfine : (writePpuAddr s v).ppu.fineX = s.ppu.fineX := by rw [writePpuAddr_first v h]; rfl
  rw [cpuWrite_0x2005, writePpuScroll_second u hw]
  simp [setCoarseY, setFineY, hcoarse, hfine]

/-! The two data ports (R640, R643, R646). -/

theorem ppuAddressOf_eq_ofNat (v : BitVec 15) : ppuAddressOf v = BitVec.ofNat 16 (v.toNat % 0x4000) := by
  have := v.isLt
  apply BitVec.eq_of_toNat_eq
  rw [ppuAddressOf, ppuAddress_toNat, BitVec.toNat_setWidth, BitVec.toNat_ofNat]
  omega

theorem add_vramIncrement_eq_ofNat (q : Ppu) :
    q.vramAddr + vramIncrement q = BitVec.ofNat 15 (q.vramAddr.toNat + if q.ctrl.getLsbD 2 then 32 else 1) := by
  unfold vramIncrement
  apply BitVec.eq_of_toNat_eq
  cases q.ctrl.getLsbD 2 <;> simp

/-- A write to the PPU's address space leaves what the increment looks at. -/
theorem ppuWrite_vramAddr (s : State) (a : Word) (v : Byte) :
    (ppuWrite s a v).ppu.vramAddr = s.ppu.vramAddr ∧ vramIncrement (ppuWrite s a v).ppu = vramIncrement s.ppu := by
  simp only [ppuWrite, ppuOwnWrite]
  repeat' split
  all_goals exact ⟨rfl, rfl⟩

/-- Settles O45: the equations of the four accesses, with the 14-bit address and the increment as numbers. -/
theorem ppuDataAndOamDataAccess : Obligations.PpuDataAndOamDataAccess := by
  intro s v q a next
  have ha : a = ppuAddressOf q.vramAddr := (ppuAddressOf_eq_ofNat _).symm
  have hnext : next = q.vramAddr + vramIncrement q := (add_vramIncrement_eq_ofNat q).symm
  rw [cpuWrite_0x2007, cpuWrite_0x2004, cpuRead_0x2007, cpuRead_0x2004, ha, hnext]
  refine ⟨?write, rfl, rfl, Memory.write q.oam q.oamAddr.toNat v, rfl, fun k => Memory.read_write _ _ _ _⟩
  case write =>
    obtain ⟨hvram, hincrement⟩ := ppuWrite_vramAddr s (ppuAddressOf q.vramAddr) v
    rw [writePpuData, advanceVramAddr, hvram, hincrement]

end Sys2Proof.Machine
end

section
/-!
PROOF about the controller ports (R650-R653): reads of a port are reads of its shift register alone.
-/
namespace Sys2Proof.Machine

/-- The address of a port (R651, R652). -/
def padAddress (port : Bool) : Word := if port then 0x4017 else 0x4016

theorem busTarget_padAddress (port : Bool) : busTarget (padAddress port) = .pad port := by
  cases port <;> rfl

theorem padAddress_lt (port : Bool) : (padAddress port).toNat < 0x6000 := by
  cases port <;> decide

theorem cpuWrite_padAddress (s : State) (port : Bool) (v : Byte) :
    cpuWrite s (padAddress port) v = s.setPad port (padWrite (s.pad port) v) := by
  rw [cpuWrite_below s v (padAddress_lt port), busOwnWrite, busTarget_padAddress]

theorem cpuRead_padAddress (s : State) (port : Bool) :
    cpuRead s (padAddress port) = ((padRead (s.pad port)).1, s.setPad port (padRead (s.pad port)).2) := by
  rw [cpuRead_below s (padAddress_lt port), busOwnRead, busTarget_padAddress]

/-- The bytes of `n` reads of a port, in order. -/
def padReads : Nat → Pad → List Byte
  | 0, _ => []
  | n + 1, q => (padRead q).1 :: padReads n (padRead q).2

theorem padReads_zero (q : Pad) : padReads 0 q = [] := rfl

theorem readTimes_padAddress (n : Nat) (s : State) (port : Bool) :
    readTimes n s (padAddress port) = padReads n (s.pad port) := by
  induction n generalizing s with
  | zero => rfl
  | succ n ih => rw [readTimes, padReads, cpuRead_padAddress, ih, State.pad_setPad]

/-- A strobed port's reads all return the top bit of the live byte (R652). -/
theorem padReads_strobed (n : Nat) {q : Pad} (h : q.strobe = true) :
    padReads n q = List.replicate n (q.live >>> 7) := by
  induction n generalizing q with
  | zero => rfl
  | succ n ih =>
    have hread : padRead q = (q.live >>> 7, { q with shift := q.live }) := if_pos h
    rw [padReads, hread, List.replicate_succ]
    exact congrArg _ (ih h)

/-- Without the strobe each read takes the top bit and shifts the register (R652). -/
theorem padReads_succ_shift (n : Nat) {q : Pad} (h : q.strobe = false) :
    padReads (n + 1) q = (q.shift >>> 7) :: padReads n { q with shift := q.shift <<< 1 } := by
  rw [padReads, padRead, h]
  rfl

/-- The top bit of a byte, in bit 0. -/
theorem shiftRight_seven (x : Byte) : x >>> 7 = if x.getLsbD 7 then 1 else 0 := by
  rw [getLsbD_seven]
  by_cases h : 128 ≤ x.toNat <;> simp only [h, decide_true, decide_false, Bool.false_eq_true, if_true, if_false] <;>
    bv_omega

/-- Settles O47: strobed, every read gives bit 7; after the strobe the `k`-th read gives the top bit of the live byte shifted
`k` times, and after eight shifts nothing is left of it. -/
theorem controllerReadsShiftOutTheButtons : Obligations.ControllerReadsShiftOutTheButtons := by
  intro s port
  change (∀ n, readTimes n (cpuWrite s (padAddress port) 1) (padAddress port) = _)
    ∧ readTimes 9 (cpuWrite (cpuWrite s (padAddress port) 1) (padAddress port) 0) (padAddress port) = _
  simp only [readTimes_padAddress, cpuWrite_padAddress, State.pad_setPad]
  refine ⟨fun n => ?_, ?_⟩
  · rw [padReads_strobed n rfl, shiftRight_seven]
    rfl
  · simp [padReads_zero, padReads_succ_shift, padWrite, shiftRight_seven]

end Sys2Proof.Machine
end

section
/-!
PROOFS about mapper 4's IRQ counter and the scanline hook (R673-R675).
-/
namespace Sys2Proof.Machine

section
variable (m : Mapper4)

theorem mapper4Scanline_irqCounter :
    (mapper4Scanline m).irqCounter = if m.irqCounter = 0 then m.irqLatch else m.irqCounter - 1 := rfl

/-- A call raises the line when it leaves 0 and the interrupt is enabled, and never lowers it (R674). -/
theorem mapper4Scanline_irqActive :
    (mapper4Scanline m).irqActive =
      (m.irqActive || (decide ((mapper4Scanline m).irqCounter = 0) && m.irqEnable)) := rfl

theorem mapper4Scanlines_zero : mapper4Scanlines 0 m = m := rfl

theorem mapper4Scanlines_succ (n : Nat) :
    mapper4Scanlines (n + 1) m = mapper4Scanlines n (mapper4Scanline m) := rfl

/-- Down to 0 each call takes one off the count, and it is the call that gets there that raises an enabled line (R674). -/
theorem mapper4Scanlines_countDown (k : Nat) (hk : k ≤ m.irqCounter.toNat) :
    (mapper4Scanlines k m).irqCounter.toNat = m.irqCounter.toNat - k
      ∧ (mapper4Scanlines k m).irqActive =
        (m.irqActive || (m.irqEnable && decide (k ≠ 0 ∧ k = m.irqCounter.toNat))) := by
  induction k generalizing m with
  | zero => simp [mapper4Scanlines_zero]
  | succ k ih =>
    have hne : m.irqCounter ≠ 0 := by bv_omega
    have hstep : (mapper4Scanline m).irqCounter = m.irqCounter - 1 := if_neg hne
    have hcount : (mapper4Scanline m).irqCounter.toNat = m.irqCounter.toNat - 1 := by bv_omega
    have hzero : (mapper4Scanline m).irqCounter = 0 ↔ m.irqCounter.toNat = 1 := by bv_omega
    obtain ⟨hcounter, hactive⟩ := ih (mapper4Scanline m) (by omega)
    rw [mapper4Scanlines_succ, hcounter, hactive, hcount]
    refine ⟨by omega, ?_⟩
    have henable : (mapper4Scanline m).irqEnable = m.irqEnable := rfl
    have hreached : decide (k + 1 ≠ 0 ∧ k + 1 = m.irqCounter.toNat) =
        (decide ((mapper4Scanline m).irqCounter = 0) || decide (k ≠ 0 ∧ k = m.irqCounter.toNat - 1)) := by
      rw [← Bool.decide_or, decide_eq_decide, hzero]
      omega
    rw [mapper4Scanline_irqActive, henable, hreached]
    cases m.irqActive <;> cases m.irqEnable <;> simp

/-- From 0 the first call loads the latch, and the count goes down from there (R674). -/
theorem mapper4Scanlines_fromZero (hzero : m.irqCounter = 0) (k : Nat) (hk : k ≤ m.irqLatch.toNat) :
    (mapper4Scanlines (k + 1) m).irqCounter.toNat = m.irqLatch.toNat - k
      ∧ (mapper4Scanlines (k + 1) m).irqActive =
        (m.irqActive || (m.irqEnable && decide (k = m.irqLatch.toNat))) := by
  have hload : (mapper4Scanline m).irqCounter = m.irqLatch := if_pos hzero
  have hcount := mapper4Scanlines_countDown (mapper4Scanline m) k (by rwa [hload])
  have henable : (mapper4Scanline m).irqEnable = m.irqEnable := rfl
  have hreached : decide (k = m.irqLatch.toNat) =
      (decide (m.irqLatch = 0) || decide (k ≠ 0 ∧ k = m.irqLatch.toNat)) := by
    rw [← Bool.decide_or, decide_eq_decide]
    bv_omega
  rw [mapper4Scanline_irqActive, henable, hload] at hcount
  rw [mapper4Scanlines_succ, hcount.1, hcount.2, hreached]
  refine ⟨rfl, ?_⟩
  cases m.irqActive <;> cases m.irqEnable <;> simp

/-- The count depends on the counter and the latch alone. -/
theorem mapper4Scanlines_irqCounter_congr {m m' : Mapper4} (n : Nat) (hcounter : m'.irqCounter = m.irqCounter)
    (hlatch : m'.irqLatch = m.irqLatch) : (mapper4Scanlines n m').irqCounter = (mapper4Scanlines n m).irqCounter := by
  induction n generalizing m m' with
  | zero => exact hcounter
  | succ n ih =>
    refine ih ?_ hlatch
    rw [mapper4Scanline_irqCounter, mapper4Scanline_irqCounter, hcounter, hlatch]

/-- While the interrupt is disabled no call moves the line (R674). -/
theorem mapper4Scanlines_disabled (n : Nat) (h : m.irqEnable = false) :
    (mapper4Scanlines n m).irqActive = m.irqActive := by
  induction n generalizing m with
  | zero => rfl
  | succ n ih =>
    rw [mapper4Scanlines_succ, ih (mapper4Scanline m) h, mapper4Scanline_irqActive, h, Bool.and_false, Bool.or_false]
end

theorem cartIrqState_mapper4 {c : Cartridge} {m : Mapper4} (h : c.mapper = .mapper4 m) :
    cartIrqState c = m.irqActive := by
  simp only [cartIrqState, h]

/-- Mappers 0 to 3 do nothing on the hook and never raise the line (R673, R675). -/
theorem cart_noIrq {c : Cartridge} (h : ∀ m, c.mapper ≠ .mapper4 m) :
    cartScanline c = c ∧ cartIrqState c = false ∧ cartIrqClear c = c := by
  cases hm : c.mapper with
  | mapper4 m => exact absurd hm (h m)
  | _ => simp only [cartScanline, cartIrqState, cartIrqClear, hm, and_self]

/-- Settles O58: the count down from a held count and from 0, the hook by the mapper, and the disabled counter. -/
theorem scanlineHookAndIrqCounter : Obligations.ScanlineHookAndIrqCounter := by
  refine ⟨fun m hzero henable hdown => ?fromZero, fun m k hk => ?countDown, fun c => ⟨fun m hm => ?mapper4, cart_noIrq⟩,
    fun m n h => ⟨mapper4Scanlines_disabled m n h, mapper4Scanlines_irqCounter_congr n rfl rfl⟩⟩
  case fromZero =>
    intro n
    have count (k : Nat) (hk : k ≤ n) := mapper4Scanlines_fromZero m hzero k hk
    simp only [henable, hdown, Bool.true_and, Bool.false_or] at count
    refine ⟨fun k hk => ⟨(count k hk).1, ?_⟩, fun c hc => ⟨?_, cartIrqState_cartIrqClear c⟩⟩
    · rw [(count k hk).2, decide_eq_true_eq]
    · rw [cartIrqState_mapper4 hc, (count n le_rfl).2, decide_eq_true_eq]
  case countDown =>
    obtain ⟨hcounter, hactive⟩ := mapper4Scanlines_countDown m k hk
    refine ⟨hcounter, fun hpos henable hdown => ?_⟩
    rw [hactive, henable, hdown, Bool.true_and, Bool.false_or, decide_eq_true_eq]
    omega
  case mapper4 =>
    simp only [cartScanline, cartIrqState, cartIrqClear, hm, and_self]

end Sys2Proof.Machine
end

section
/-!
PROOFS about the insertion of a cartridge image (R800, R810-R812).
-/
namespace Sys2Proof.Machine

/-- The checks of R812 other than the mapper's, on the header's bytes. -/
theorem imageValid_iff (image : List Byte) :
    imageValid image = true ↔ 16 ≤ image.length ∧ image.take 4 = [0x4E, 0x45, 0x53, 0x1A]
      ∧ (imageByte image 4).toNat ≠ 0 ∧ declaredLength (parseHeader image) ≤ image.length := by
  have hprg : (parseHeader image).nPrg ≠ 0 ↔ (imageByte image 4).toNat ≠ 0 := by
    change imageByte image 4 ≠ 0 ↔ _
    bv_omega
  simp only [imageValid, Bool.and_eq_true, decide_eq_true_eq, hprg, and_assoc]

/-- Bytes of the image laid out as a store. -/
theorem imageStore_read (image : List Byte) (start : Nat) {count k : Nat} (h : k < count) :
    Memory.read (imageStore image start count) k = image.getD (start + k) 0 := by
  rw [imageStore, storeOfSize_read _ h, List.getD_eq_getElem?_getD, List.getElem?_drop, List.getD_eq_getElem?_getD]
  rfl

/-- The mapper a cartridge is given at load: its identifier, and the values that reset gives it, the static RAM kept (R810,
D26; log 16). -/
theorem newMapper_spec {c : Cartridge} {id : Nat} {sram : Memory} (h : newMapper id c.hwMirror sram = some c.mapper) :
    c.mapper.id = id ∧ cartReset c = c ∧ (HasSram c → cartSram c = sram) := by
  obtain ⟨nPrg, nChr, hw, trainer, prg, chr, mapper⟩ := c
  dsimp only [newMapper] at h
  split at h <;> cases h
  all_goals exact ⟨rfl, rfl, by rintro (⟨m, hm⟩ | ⟨m, hm⟩) <;> cases hm <;> rfl⟩

theorem newMapper_isSome {id : Nat} (hid : id ≤ 4) (hw : HeaderMirror) (sram : Memory) :
    ∃ m, newMapper id hw sram = some m := by
  interval_cases id <;> exact ⟨_, rfl⟩

theorem newMapper_unsupported {id : Nat} (hid : 4 < id) (hw : HeaderMirror) (sram : Memory) :
    newMapper id hw sram = none := by
  unfold newMapper
  split <;> first | rfl | omega

theorem loadCartridge_unsupported {sram image : List Byte}
    (h : imageValid image = false ∨ 4 < (parseHeader image).mapperId) :
    loadCartridge sram image = .error .unsupported := by
  unfold loadCartridge
  by_cases hvalid : imageValid image = true
  · have hid : 4 < (parseHeader image).mapperId := h.resolve_left (by rw [hvalid]; decide)
    rw [if_pos hvalid, newMapper_unsupported hid]
  · exact if_neg hvalid

theorem loadCartridge_ok {sram image : List Byte} {m : Mapper} (hvalid : imageValid image = true)
    (hm : newMapper (parseHeader image).mapperId (parseHeader image).hwMirror (storeOfSize 8192 sram) = some m) :
    loadCartridge sram image = .ok (cartridgeOf image m) := by
  simp only [loadCartridge, hvalid, hm, if_true]

/-- Settles O60: the five conditions are that the checks of R812 fail or the mapper is none of the five; without them the
cartridge is `cartridgeOf` the image with the mapper that `newMapper` gives. -/
theorem cartridgeInsertion : Obligations.CartridgeInsertion := by
  intro sram image s byte trainer nPrg nChr mapper bad
  have hbad : bad ↔ imageValid image = false ∨ 4 < (parseHeader image).mapperId := by
    rw [← Bool.not_eq_true, imageValid_iff]
    change (_ ∨ _ ∨ _ ∨ nPrg = 0 ∨ _)
      ↔ ¬ (_ ∧ _ ∧ nPrg ≠ 0 ∧ 16 + trainer + 16384 * nPrg + 8192 * nChr ≤ _) ∨ 4 < mapper
    simp only [not_and_or, not_le, ne_eq, not_not]
    tauto
  refine ⟨fun h => ?fails, fun h => ?succeeds⟩
  case fails =>
    have herror : insertCartridge sram image s = .error .unsupported := by
      rw [insertCartridge, loadCartridge_unsupported (hbad.mp h)]
    refine ⟨herror, ?_⟩
    rw [hostAct, herror]
  case succeeds =>
    obtain ⟨hvalid, hid⟩ := not_or.mp (mt hbad.mpr h)
    rw [Bool.not_eq_false] at hvalid
    obtain ⟨m, hm⟩ := newMapper_isSome (not_lt.mp hid) (parseHeader image).hwMirror (storeOfSize 8192 sram)
    have hload := loadCartridge_ok hvalid hm
    have hok : insertCartridge sram image s = .ok (s.setCart (some (cartridgeOf image m))) := by
      rw [insertCartridge, hload]
    obtain ⟨hmapper, hreset, hsram⟩ := newMapper_spec (c := cartridgeOf image m) hm
    have hhost : hostAct (.insert sram image) s = .next (s.setCart (some (cartridgeOf image m))) := by
      rw [hostAct, hok]
    refine ⟨cartridgeOf image m, hok, hhost, rfl, rfl, hmapper, ?mirror, ?isTrainer, ?trainer,
      fun k hk => imageStore_read image _ hk, fun k hk => imageStore_read image _ hk, ?chrRam, fun hs k hk => ?static,
      loadCartridge_wf hload, hreset⟩
    case mirror =>
      change (if (byte 6).getLsbD 0 then _ else _) = _ ↔ _
      cases (byte 6).getLsbD 0 <;> simp
    case isTrainer =>
      change (if (byte 6).getLsbD 2 then some _ else none).isSome = _ ↔ _
      cases (byte 6).getLsbD 2 <;> simp
    case trainer =>
      intro t ht k hk
      change (if (byte 6).getLsbD 2 then some (imageStore image 16 512) else none) = some t at ht
      cases hflag : (byte 6).getLsbD 2 <;> rw [hflag] at ht <;> cases ht
      exact imageStore_read image 16 hk
    case chrRam =>
      intro h0 k
      have hnil : (cartridgeOf image m).chr = [] := by
        change imageStore image _ (8192 * nChr) = []
        rw [h0]
        rfl
      rw [hnil, Memory.read_nil]
    case static =>
      rw [hsram hs, storeOfSize_read sram hk]
      rfl

end Sys2Proof.Machine
end

section
/-!
PROOFS about one PPU cycle (R654-R671). Each stage is a change of a few fields of the PPU, given as a function of the PPU
before the cycle; `ppuClock_eq` puts them together, and each statement then looks at its fields.
-/
namespace Sys2Proof.Machine

@[simp] theorem State.setPpu_setPpu (s : State) (q r : Ppu) : (s.setPpu q).setPpu r = s.setPpu r := rfl

/-! The fetch window (R661-R664). -/

/-- The cycle is the one of the fetch window at which action `k` happens (R661). -/
def inPhase (q : Ppu) (k : Nat) : Bool := renderLine q && inFetchWindow q.cycle && decide ((q.cycle - 1) % 8 = k)

/-- A background register after the shift of the fetch window (R662). -/
def shiftedRegister (q : Ppu) (r : Word) : Word :=
  if renderLine q && inFetchWindow q.cycle && renderBackground q then r <<< 1 else r

/-- A background register after the shift and, every eighth cycle, the reload of its low byte (R662, R663). -/
def fetchedRegister (q : Ppu) (r : Word) (low : Byte) : Word :=
  if inPhase q 0 then reloadLow (shiftedRegister q r) low else shiftedRegister q r

/-- What a bit of the next tile's palette number puts in the low byte of a register (R663). -/
def attributeFill (q : Ppu) (k : Nat) : Byte := if q.bgNextAttr.getLsbD k then 0xFF else 0

/-- The PPU after the fetch window. -/
def fetchedPpu (s : State) : Ppu :=
  { s.ppu with
    bgPatLo := fetchedRegister s.ppu s.ppu.bgPatLo s.ppu.bgNextLo
    bgPatHi := fetchedRegister s.ppu s.ppu.bgPatHi s.ppu.bgNextHi
    bgAttLo := fetchedRegister s.ppu s.ppu.bgAttLo (attributeFill s.ppu 0)
    bgAttHi := fetchedRegister s.ppu s.ppu.bgAttHi (attributeFill s.ppu 1)
    bgNextId := if inPhase s.ppu 0 then ppuRead s (tileAddress s.ppu) else s.ppu.bgNextId
    bgNextAttr :=
      if inPhase s.ppu 2 then
        attributeQuadrant s.ppu.vramAddr (ppuRead s (attributeAddress s.ppu.vramAddr))
      else s.ppu.bgNextAttr
    bgNextLo := if inPhase s.ppu 4 then ppuRead s (patternAddress s.ppu) else s.ppu.bgNextLo
    bgNextHi := if inPhase s.ppu 6 then ppuRead s (patternAddress s.ppu + 8) else s.ppu.bgNextHi
    vramAddr := if inPhase s.ppu 7 && rendering s.ppu then nextCoarseX s.ppu.vramAddr else s.ppu.vramAddr }

theorem shiftBackground_eq (q : Ppu) :
    shiftBackground q = { q with
      bgPatLo := if renderBackground q then q.bgPatLo <<< 1 else q.bgPatLo
      bgPatHi := if renderBackground q then q.bgPatHi <<< 1 else q.bgPatHi
      bgAttLo := if renderBackground q then q.bgAttLo <<< 1 else q.bgAttLo
      bgAttHi := if renderBackground q then q.bgAttHi <<< 1 else q.bgAttHi } := by
  unfold shiftBackground
  cases renderBackground q <;> rfl

theorem incrementCoarseX_eq (q : Ppu) :
    incrementCoarseX q = { q with vramAddr := if rendering q then nextCoarseX q.vramAddr else q.vramAddr } := by
  unfold incrementCoarseX
  cases rendering q <;> rfl

theorem fetchWindow_eq (s : State) : fetchWindow s = s.setPpu (fetchedPpu s) := by
  cases hwindow : renderLine s.ppu && inFetchWindow s.ppu.cycle with
  | false =>
    rw [fetchWindow, hwindow]
    simp [fetchedPpu, fetchedRegister, shiftedRegister, inPhase, hwindow]
    rfl
  | true =>
    have hphase (k : Nat) : inPhase s.ppu k = decide ((s.ppu.cycle - 1) % 8 = k) := by
      rw [inPhase, hwindow, Bool.true_and]
    have hlt : (s.ppu.cycle - 1) % 8 < 8 := Nat.mod_lt _ (by decide)
    rw [fetchWindow, hwindow, if_pos rfl, shiftBackground_eq]
    simp only [fetchedPpu, fetchedRegister, shiftedRegister, hphase, hwindow, Bool.true_and]
    dsimp only [State.setPpu_ppu]
    interval_cases (s.ppu.cycle - 1) % 8
    -- The last phase is the coarse-X increment, which alone asks whether rendering is on.
    on_goal 8 =>
      change s.setPpu (incrementCoarseX _) = _
      rw [incrementCoarseX_eq]
      rfl
    all_goals rfl

/-! The VRAM address (R665-R667, R669). -/

/-- The coarse-X increment at its cycles (R661, R665). -/
def coarseXStep (q : Ppu) (v : BitVec 15) : BitVec 15 := if inPhase q 7 && rendering q then nextCoarseX v else v

/-- The Y increment at cycle 256 (R666). -/
def yStep (q : Ppu) (v : BitVec 15) : BitVec 15 :=
  if renderLine q && decide (q.cycle = 256) && rendering q then nextY v else v

/-- The X copy at cycle 257 (R667). -/
def copyXStep (q : Ppu) (v : BitVec 15) : BitVec 15 :=
  if renderLine q && decide (q.cycle = 257) && rendering q then copyX v q.tramAddr else v

/-- The Y copy of the pre-render line (R669). -/
def copyYStep (q : Ppu) (v : BitVec 15) : BitVec 15 :=
  if q.scanline = -1 ∧ 280 ≤ q.cycle ∧ q.cycle ≤ 304 ∧ rendering q = true then copyY v q.tramAddr else v

/-- The VRAM address after the cycle, in the order of the stages (R654). -/
def scrolledAddr (q : Ppu) : BitVec 15 := copyYStep q (copyXStep q (yStep q (coarseXStep q q.vramAddr)))

theorem incrementY_eq (q : Ppu) : incrementY q = { q with vramAddr := yStep q q.vramAddr } := by
  unfold incrementY yStep
  cases renderLine q && decide (q.cycle = 256) && rendering q <;> rfl

/-- The stage is its copy where the reload leaves the registers as they are. -/
theorem reloadAndCopyX_eq {q : Ppu} (h : renderLine q = true → q.cycle = 257 → reloadBackground q = q) :
    reloadAndCopyX q = { q with vramAddr := copyXStep q q.vramAddr } := by
  unfold reloadAndCopyX copyXStep
  cases hat : renderLine q && decide (q.cycle = 257) with
  | false => rfl
  | true =>
    obtain ⟨hline, hcycle⟩ := Bool.and_eq_true_iff.mp hat
    rw [if_pos rfl, h hline (of_decide_eq_true hcycle), Bool.true_and]
    dsimp only
    cases rendering q <;> rfl

theorem copyYOnPreRender_eq (q : Ppu) : copyYOnPreRender q = { q with vramAddr := copyYStep q q.vramAddr } := by
  unfold copyYOnPreRender copyYStep
  split <;> rfl

/-! The reload of cycle 257 is one that the fetch window has just made (R663, R667). -/

theorem reloadLow_toNat (r : Word) (b : Byte) : (reloadLow r b).toNat = r.toNat / 256 * 256 + b.toNat := by
  have := r.isLt
  have := b.isLt
  have hhigh : (r &&& 0xFF00).toNat = r.toNat / 256 * 256 := by
    rw [BitVec.toNat_and, show (0xFF00 : Word).toNat = (2 ^ 8 - 1) * 256 by decide, and_highMask]
    omega
  have hlow : (b.setWidth 16).toNat = b.toNat := by
    rw [BitVec.toNat_setWidth, Nat.mod_eq_of_lt (by omega)]
  rw [reloadLow, toNat_or_eq_add 8 (by omega) (by omega), hhigh, hlow]

theorem reloadLow_reloadLow (r : Word) (b : Byte) : reloadLow (reloadLow r b) b = reloadLow r b := by
  have := b.isLt
  apply BitVec.eq_of_toNat_eq
  rw [reloadLow_toNat, reloadLow_toNat]
  omega

theorem inPhase_unique {q : Ppu} {j k : Nat} (h : inPhase q j = true) (hne : k ≠ j) : inPhase q k = false := by
  simp only [inPhase, Bool.and_eq_true, decide_eq_true_eq] at h
  simp [inPhase, h.2, hne.symm]

theorem reloadBackground_fetchedPpu {s : State} (h : inPhase s.ppu 0 = true) (v : BitVec 15) :
    reloadBackground { fetchedPpu s with vramAddr := v } = { fetchedPpu s with vramAddr := v } := by
  have hne (k : Nat) (hk : k ≠ 0) : inPhase s.ppu k = false := inPhase_unique h hk
  simp [reloadBackground, fetchedPpu, fetchedRegister, attributeFill, h, hne, reloadLow_reloadLow]

theorem inPhase_of_257 {q : Ppu} (hline : renderLine q = true) (hcycle : q.cycle = 257) : inPhase q 0 = true := by
  rw [inPhase, hline, hcycle]
  rfl

/-! The stages between the vertical blank and the scanline hook. -/

/-- The tile id is fetched again at cycles 338 and 340 (R668). -/
def idleFetch (q : Ppu) : Bool := renderLine q && (decide (q.cycle = 338) || decide (q.cycle = 340))

theorem idleFetches_eq (s : State) :
    idleFetches s = s.setPpu { s.ppu with
      bgNextId := if idleFetch s.ppu then ppuRead s (tileAddress s.ppu) else s.ppu.bgNextId } := by
  unfold idleFetches idleFetch
  cases renderLine s.ppu && (decide (s.ppu.cycle = 338) || decide (s.ppu.cycle = 340)) <;> rfl

/-- Before the idle fetches no stage has moved the VRAM address. -/
theorem copyXStep_of_idleFetch {q : Ppu} (h : idleFetch q = true) (v : BitVec 15) :
    copyXStep q (yStep q (coarseXStep q v)) = v := by
  simp only [idleFetch, Bool.and_eq_true, Bool.or_eq_true, decide_eq_true_eq] at h
  obtain ⟨-, hcycle | hcycle⟩ := h <;> simp [copyXStep, yStep, coarseXStep, inPhase, inFetchWindow, hcycle]

/-- The PPU after these stages. -/
def stagedPpu (s : State) : Ppu :=
  { fetchedPpu s with
    bgNextId := if inPhase s.ppu 0 || idleFetch s.ppu then ppuRead s (tileAddress s.ppu) else s.ppu.bgNextId
    vramAddr := scrolledAddr s.ppu }

/-- The stages themselves, from the fetch window to the Y copy (R654). -/
def fetchAndScroll (s : State) : State :=
  let s := fetchWindow s
  let s := s.setPpu (incrementY s.ppu)
  let s := s.setPpu (reloadAndCopyX s.ppu)
  let s := idleFetches s
  s.setPpu (copyYOnPreRender s.ppu)

theorem fetchAndScroll_eq (s : State) : fetchAndScroll s = s.setPpu (stagedPpu s) := by
  set v := copyXStep s.ppu (yStep s.ppu (coarseXStep s.ppu s.ppu.vramAddr)) with hv
  have hincrement : incrementY (fetchedPpu s) =
      { fetchedPpu s with vramAddr := yStep s.ppu (coarseXStep s.ppu s.ppu.vramAddr) } := incrementY_eq _
  have hcopy : reloadAndCopyX (incrementY (fetchedPpu s)) = { fetchedPpu s with vramAddr := v } := by
    rw [hincrement]
    exact reloadAndCopyX_eq fun hline hcycle => reloadBackground_fetchedPpu (inPhase_of_257 hline hcycle) _
  have hidle : idleFetches (s.setPpu { fetchedPpu s with vramAddr := v }) =
      s.setPpu { stagedPpu s with vramAddr := v } := by
    rw [idleFetches_eq]
    change s.setPpu { fetchedPpu s with
      vramAddr := v, bgNextId := if idleFetch s.ppu then ppuRead s (tileAddress { s.ppu with vramAddr := v }) else _ } = _
    cases hid : idleFetch s.ppu with
    | false => rw [stagedPpu, hid, Bool.or_false]; rfl
    | true => rw [hv, copyXStep_of_idleFetch hid, stagedPpu, hid, Bool.or_true]; rfl
  simp only [fetchAndScroll, fetchWindow_eq, State.setPpu_ppu, State.setPpu_setPpu, hcopy, hidle, copyYOnPreRender_eq]
  rfl

/-! The last three stages: the scanline hook, the output pixel and the advance of the raster (R654, R670-R673). -/

/-- The cartridge after the scanline hook (R673). -/
def hookedCart (s : State) : Option Cartridge :=
  if renderLine s.ppu && decide (s.ppu.cycle = 260) && rendering s.ppu then s.cart.map cartScanline else s.cart

theorem scanlineHook_eq (s : State) : scanlineHook s = s.setCart (hookedCart s) := by
  unfold scanlineHook hookedCart
  cases renderLine s.ppu && decide (s.ppu.cycle = 260) && rendering s.ppu <;> rfl

/-- The pixel that is written: the sprite unit's while sprites are rendered, else the background's colour (R670-R672). -/
def outputOf (s : State) : Pixel :=
  if renderSprites s.ppu then .drawn s.draws
  else .colour (colourIndex s (backgroundPixel s.ppu).1 (backgroundPixel s.ppu).2)

/-- The frame buffer after the output. -/
def outputScreen (s : State) : List (Nat × Pixel) :=
  if onScreen s.ppu then screenWrite s.ppu.screen (screenIndex s.ppu) (outputOf s) else s.ppu.screen

/-- The count of draws after the output: the sprite unit's pixel is one. -/
def outputDraws (s : State) : Nat := if onScreen s.ppu && renderSprites s.ppu then s.draws + 1 else s.draws

theorem outputPixel_eq (s : State) :
    outputPixel s = (s.setPpu { s.ppu with screen := outputScreen s }).setDraws (outputDraws s) := by
  unfold outputPixel outputScreen outputDraws outputOf
  cases onScreen s.ppu <;> cases renderSprites s.ppu <;> rfl

theorem advanceRaster_eq (q : Ppu) :
    advanceRaster q = { q with
      cycle := if q.cycle = 340 then 0 else q.cycle + 1
      scanline := if q.cycle = 340 then (if q.scanline = 260 then -1 else q.scanline + 1) else q.scanline
      scanlineComplete := q.scanlineComplete || decide (q.cycle = 340)
      frameComplete := q.frameComplete || decide (q.cycle = 340 ∧ q.scanline = 260) } := by
  have hlast : q.cycle + 1 = 341 ↔ q.cycle = 340 := by omega
  have hbottom : q.scanline + 1 = 261 ↔ q.scanline = 260 := by omega
  simp only [advanceRaster, hlast, hbottom]
  by_cases hcycle : q.cycle = 340
  · by_cases hline : q.scanline = 260 <;> simp [hcycle, hline]
  · simp [hcycle]

/-! The cycle as a whole. -/

/-- The machine when the pixel is output, but for the status and the NMI line, which no later stage looks at. -/
def stagedState (s : State) : State := (s.setPpu (stagedPpu s)).setCart (hookedCart s)

/-- THE PPU CYCLE IN ONE EQUATION (R654): each field as a function of the machine before it. -/
theorem ppuClock_eq (s : State) :
    ppuClock s =
      { s with
        ppu := advanceRaster { stagedPpu s with
          status := (verticalBlank s.ppu).status
          nmi := (verticalBlank s.ppu).nmi
          screen := outputScreen (stagedState s) }
        cart := hookedCart s
        draws := outputDraws (stagedState s) } := by
  have hblank : verticalBlank s.ppu =
      { s.ppu with status := (verticalBlank s.ppu).status, nmi := (verticalBlank s.ppu).nmi } := by
    unfold verticalBlank
    split
    · rfl
    · split <;> rfl
  have hstages : ppuClock s =
      let u := outputPixel (scanlineHook (fetchAndScroll (s.setPpu (verticalBlank s.ppu))))
      u.setPpu (advanceRaster u.ppu) := rfl
  rw [hstages, fetchAndScroll_eq, scanlineHook_eq, outputPixel_eq]
  generalize (verticalBlank s.ppu).status = status, (verticalBlank s.ppu).nmi = nmi at hblank ⊢
  rw [hblank]
  rfl

end Sys2Proof.Machine
end

section
/-!
PROOFS of the statements about one PPU cycle, each from its equation `ppuClock_eq`: the vertical blank, the raster, the VRAM
address and the frame, the background registers and the pixel.
-/
namespace Sys2Proof.Machine

/-! The vertical blank (R655). -/

theorem ppuClock_status (s : State) : (ppuClock s).ppu.status = (verticalBlank s.ppu).status := by
  rw [ppuClock_eq, advanceRaster_eq]

theorem ppuClock_nmi (s : State) : (ppuClock s).ppu.nmi = (verticalBlank s.ppu).nmi := by
  rw [ppuClock_eq, advanceRaster_eq]

/-- Settles O49: the status and the NMI line are those of the vertical-blank stage, by its three cases. -/
theorem vblankAtItsRasterPositions : Obligations.VblankAtItsRasterPositions := by
  intro s
  dsimp only
  rw [ppuClock_status, ppuClock_nmi]
  refine ⟨fun hset => ?_, fun hclear => ?_, fun hother => ?_⟩
  · rw [verticalBlank, if_pos hset]
    exact ⟨rfl, rfl⟩
  · rw [verticalBlank, if_neg (by omega), if_pos hclear]
    exact ⟨rfl, rfl⟩
  · rw [verticalBlank, if_neg (by omega), if_neg (by omega)]
    exact ⟨rfl, rfl⟩

/-! The raster (R654, R656). -/

theorem ppuClock_cycle (s : State) :
    (ppuClock s).ppu.cycle = if s.ppu.cycle = 340 then 0 else s.ppu.cycle + 1 := by
  rw [ppuClock_eq, advanceRaster_eq]
  rfl

theorem ppuClock_scanline (s : State) :
    (ppuClock s).ppu.scanline =
      if s.ppu.cycle = 340 then (if s.ppu.scanline = 260 then -1 else s.ppu.scanline + 1) else s.ppu.scanline := by
  rw [ppuClock_eq, advanceRaster_eq]
  rfl

theorem ppuClock_scanlineComplete (s : State) :
    (ppuClock s).ppu.scanlineComplete = (s.ppu.scanlineComplete || decide (s.ppu.cycle = 340)) := by
  rw [ppuClock_eq, advanceRaster_eq]
  rfl

theorem ppuClock_frameComplete (s : State) :
    (ppuClock s).ppu.frameComplete =
      (s.ppu.frameComplete || decide (s.ppu.cycle = 340 ∧ s.ppu.scanline = 260)) := by
  rw [ppuClock_eq, advanceRaster_eq]
  rfl

theorem rasterWf_iff (q : Ppu) : rasterWf q = true ↔ -1 ≤ q.scanline ∧ q.scanline ≤ 260 ∧ q.cycle ≤ 340 := by
  simp only [rasterWf, Bool.and_eq_true, decide_eq_true_eq, and_assoc]

/-- How many PPU cycles the raster position lies after the frame's first (R79). -/
def rasterIndex (q : Ppu) : Nat := (q.scanline + 1).toNat * 341 + q.cycle

/-- The position is determined by its index. -/
theorem raster_eq_of_rasterIndex_eq {q r : Ppu} (hq : rasterWf q = true) (hr : rasterWf r = true)
    (h : rasterIndex r = rasterIndex q) : r.scanline = q.scanline ∧ r.cycle = q.cycle := by
  rw [rasterWf_iff] at hq hr
  unfold rasterIndex at h
  omega

/-- A PPU cycle moves to the next position, from the last one to the first. -/
theorem ppuClock_raster {s : State} (h : rasterWf s.ppu = true) :
    rasterWf (ppuClock s).ppu = true
      ∧ rasterIndex (ppuClock s).ppu =
        if s.ppu.cycle = 340 ∧ s.ppu.scanline = 260 then 0 else rasterIndex s.ppu + 1 := by
  have hwf := (rasterWf_iff _).mp h
  rw [rasterWf_iff, rasterIndex, rasterIndex, ppuClock_cycle, ppuClock_scanline]
  by_cases hcycle : s.ppu.cycle = 340
  · by_cases hline : s.ppu.scanline = 260
    · simp [hcycle, hline]
    · simp only [hcycle, hline, and_false, if_true, if_false]
      omega
  · simp only [hcycle, false_and, if_false]
    omega

/-- `n` PPU cycles: the index goes round the frame, and a flag is set once its end has been passed (R654, R656). -/
theorem ppuClocks_raster (n : Nat) {s : State} (h : rasterWf s.ppu = true) :
    rasterWf (ppuClocks n s).ppu = true ∧ rasterIndex (ppuClocks n s).ppu = (rasterIndex s.ppu + n) % 89342
      ∧ (ppuClocks n s).ppu.frameComplete = (s.ppu.frameComplete || decide (89342 ≤ rasterIndex s.ppu + n))
      ∧ (ppuClocks n s).ppu.scanlineComplete = (s.ppu.scanlineComplete || decide (341 ≤ s.ppu.cycle + n)) := by
  induction n generalizing s with
  | zero =>
    have hwf := (rasterWf_iff _).mp h
    have hindex : rasterIndex s.ppu < 89342 := by unfold rasterIndex; omega
    have hframe : ¬ 89342 ≤ rasterIndex s.ppu := by omega
    have hline : ¬ 341 ≤ s.ppu.cycle := by omega
    rw [Nat.add_zero, Nat.add_zero, Nat.mod_eq_of_lt hindex, decide_eq_false hframe, decide_eq_false hline, Bool.or_false,
      Bool.or_false]
    exact ⟨h, rfl, rfl, rfl⟩
  | succ n ih =>
    have hwf := (rasterWf_iff _).mp h
    obtain ⟨hnext, hindex⟩ := ppuClock_raster h
    obtain ⟨hn, hin, hfn, hsn⟩ := ih hnext
    have hframe : decide (89342 ≤ rasterIndex s.ppu + (n + 1)) =
        (decide (s.ppu.cycle = 340 ∧ s.ppu.scanline = 260) || decide (89342 ≤ rasterIndex (ppuClock s).ppu + n)) := by
      rw [← Bool.decide_or, decide_eq_decide, hindex]
      unfold rasterIndex
      split <;> omega
    have hline : decide (341 ≤ s.ppu.cycle + (n + 1)) =
        (decide (s.ppu.cycle = 340) || decide (341 ≤ (ppuClock s).ppu.cycle + n)) := by
      rw [← Bool.decide_or, decide_eq_decide, ppuClock_cycle]
      split <;> omega
    rw [hframe, hline, ← Bool.or_assoc, ← Bool.or_assoc, ← ppuClock_frameComplete, ← ppuClock_scanlineComplete]
    refine ⟨hn, hin.trans ?_, hfn, hsn⟩
    rw [hindex]
    unfold rasterIndex
    split <;> omega

/-- Settles O50: a frame is 89342 positions, of which the raster at reset has the first 341 behind it. -/
theorem rasterAdvanceAndFramePeriod : Obligations.RasterAdvanceAndFramePeriod := by
  refine ⟨fun s h => ?period, fun s hline hcycle hframe => ?first, fun s => ?advance⟩
  case period =>
    obtain ⟨hwf, hindex, hframe, hline⟩ := ppuClocks_raster 89342 h
    rw [Nat.add_mod_right] at hindex
    have hbound := (rasterWf_iff _).mp h
    have hsame : rasterIndex (ppuClocks 89342 s).ppu = rasterIndex s.ppu := by
      rw [hindex]
      exact Nat.mod_eq_of_lt (by unfold rasterIndex; omega)
    obtain ⟨hscanline, hcycle⟩ := raster_eq_of_rasterIndex_eq h hwf hsame
    refine ⟨hscanline, hcycle, hframe.trans ?_, hline.trans ?_⟩
    · rw [decide_eq_true (Nat.le_add_left _ _), Bool.or_true]
    · rw [decide_eq_true (by omega), Bool.or_true]
  case first =>
    have hwf : rasterWf s.ppu = true := by
      rw [rasterWf_iff, hline, hcycle]
      decide
    have hindex : rasterIndex s.ppu = 341 := by
      rw [rasterIndex, hline, hcycle]
      rfl
    have hflag (n : Nat) : (ppuClocks n s).ppu.frameComplete = decide (89342 ≤ 341 + n) := by
      obtain ⟨-, -, hframe', -⟩ := ppuClocks_raster n hwf
      rw [hframe', hframe, hindex, Bool.false_or]
    rw [hflag, hflag]
    decide
  case advance =>
    dsimp only
    rw [ppuClock_cycle, ppuClock_scanline, ppuClock_scanlineComplete, ppuClock_frameComplete]
    refine ⟨fun hmore => ?_, fun hlast => ?_, rfl⟩
    · simp [hmore]
    · simp [hlast]

end Sys2Proof.Machine
end

section
/-!
PROOFS of what one PPU cycle does to the VRAM address, to the background registers and to the frame buffer, and of its frame,
from `ppuClock_eq`.
-/
namespace Sys2Proof.Machine

/-! The VRAM address and the frame (R665-R667, R669, R711). -/

theorem renderLine_of_rasterWf {q : Ppu} (h : rasterWf q = true) : renderLine q = decide (q.scanline ≤ 239) := by
  rw [renderLine, decide_eq_true ((rasterWf_iff q).mp h).1, Bool.true_and]

theorem ppuClock_vramAddr (s : State) : (ppuClock s).ppu.vramAddr = scrolledAddr s.ppu := by
  rw [ppuClock_eq, advanceRaster_eq]
  rfl

theorem ppuClock_tramAddr (s : State) : (ppuClock s).ppu.tramAddr = s.ppu.tramAddr := by
  rw [ppuClock_eq, advanceRaster_eq]
  rfl

theorem ppuClock_hookedCart (s : State) : (ppuClock s).cart = hookedCart s := by
  rw [ppuClock_eq]

/-- The cycles of the fetch window with the coarse-X increment (R661, R665). -/
theorem inPhase_seven_iff {q : Ppu} (hline : renderLine q = true) :
    inPhase q 7 = true ↔ q.cycle % 8 = 0 ∧ ((8 ≤ q.cycle ∧ q.cycle ≤ 256) ∨ (328 ≤ q.cycle ∧ q.cycle ≤ 336)) := by
  simp only [inPhase, inFetchWindow, hline, Bool.true_and, Bool.and_eq_true, Bool.or_eq_true, decide_eq_true_eq]
  omega

/-- Off the render lines, and with rendering off, no stage moves the VRAM address. -/
theorem scrolledAddr_off {q : Ppu} (h : rendering q = false ∨ renderLine q = false) : scrolledAddr q = q.vramAddr := by
  have hcopyY : ¬ (q.scanline = -1 ∧ 280 ≤ q.cycle ∧ q.cycle ≤ 304 ∧ rendering q = true) := by
    rintro ⟨hline, -, -, hon⟩
    have : renderLine q = true := by rw [renderLine, hline]; rfl
    simp_all
  obtain h | h := h <;> simp [scrolledAddr, copyYStep, copyXStep, yStep, coarseXStep, inPhase, hcopyY, h]

/-- On a render line the four stages fall on different cycles, but for the two increments of cycle 256. -/
theorem scrolledAddr_on {q : Ppu} (hon : rendering q = true) (hline : renderLine q = true) :
    scrolledAddr q =
      if q.cycle = 256 then nextY (nextCoarseX q.vramAddr)
      else if q.cycle = 257 then copyX q.vramAddr q.tramAddr
      else if q.cycle % 8 = 0 ∧ ((8 ≤ q.cycle ∧ q.cycle ≤ 248) ∨ (328 ≤ q.cycle ∧ q.cycle ≤ 336)) then
        nextCoarseX q.vramAddr
      else if q.scanline = -1 ∧ 280 ≤ q.cycle ∧ q.cycle ≤ 304 then copyY q.vramAddr q.tramAddr
      else q.vramAddr := by
  have hcoarse : (inPhase q 7 && rendering q) = true ↔
      q.cycle % 8 = 0 ∧ ((8 ≤ q.cycle ∧ q.cycle ≤ 256) ∨ (328 ≤ q.cycle ∧ q.cycle ≤ 336)) := by
    rw [hon, Bool.and_true, inPhase_seven_iff hline]
  simp only [scrolledAddr, copyYStep, copyXStep, yStep, coarseXStep, hcoarse]
  simp only [hline, hon, Bool.true_and, Bool.and_true, decide_eq_true_eq, and_true]
  by_cases h256 : q.cycle = 256
  · simp [h256]
  · by_cases h257 : q.cycle = 257
    · simp [h257]
    · by_cases hx : q.cycle % 8 = 0 ∧ ((8 ≤ q.cycle ∧ q.cycle ≤ 248) ∨ (328 ≤ q.cycle ∧ q.cycle ≤ 336))
      · have hx' : q.cycle % 8 = 0 ∧ ((8 ≤ q.cycle ∧ q.cycle ≤ 256) ∨ (328 ≤ q.cycle ∧ q.cycle ≤ 336)) := by omega
        have hy : ¬ (q.scanline = -1 ∧ 280 ≤ q.cycle ∧ q.cycle ≤ 304) := by omega
        rw [if_pos hx', if_neg hy, if_neg h257, if_neg h256, if_neg h256, if_neg h257, if_pos hx]
      · have hx' : ¬ (q.cycle % 8 = 0 ∧ ((8 ≤ q.cycle ∧ q.cycle ≤ 256) ∨ (328 ≤ q.cycle ∧ q.cycle ≤ 336))) := by omega
        rw [if_neg hx', if_neg h257, if_neg h256, if_neg h256, if_neg h257, if_neg hx]

/-- The registers that only the CPU writes. -/
theorem ppuClock_registers (s : State) :
    (ppuClock s).ppu.ctrl = s.ppu.ctrl ∧ (ppuClock s).ppu.mask = s.ppu.mask ∧ (ppuClock s).ppu.fineX = s.ppu.fineX
      ∧ (ppuClock s).ppu.w = s.ppu.w ∧ (ppuClock s).ppu.dataBuffer = s.ppu.dataBuffer
      ∧ (ppuClock s).ppu.oamAddr = s.ppu.oamAddr := by
  rw [ppuClock_eq, advanceRaster_eq]
  exact ⟨rfl, rfl, rfl, rfl, rfl, rfl⟩

/-- A cartridge with the same stores has at most another mapper state. -/
theorem SameStores.eq_withMapper {c d : Cartridge} (h : SameStores c d) : d = { c with mapper := d.mapper } := by
  obtain ⟨hPrg, hChr, hMirror, hTrainer, hprg, hchr⟩ := h
  rw [← hPrg, ← hChr, ← hMirror, ← hTrainer, ← hprg, ← hchr]

/-- Settles O52: the address by the stages that move it, the hook by its cycle, and every other field as it was. -/
theorem vramAddressHookAndFramePerPpuCycle : Obligations.VramAddressHookAndFramePerPpuCycle := by
  refine ⟨fun s h => ?scroll, fun s => ?frame⟩
  case scroll =>
    intro q t on c
    have hline := renderLine_of_rasterWf h
    have hon : on = (rendering q && renderLine q) := by rw [hline]
    refine ⟨(ppuClock_vramAddr s).trans ?_, ppuClock_tramAddr s, (ppuClock_hookedCart s).trans ?_⟩
    · cases hr : on with
      | false =>
        rw [if_pos rfl]
        exact scrolledAddr_off (Bool.and_eq_false_iff.mp (hon.symm.trans hr))
      | true =>
        obtain ⟨hrender, hrl⟩ := Bool.and_eq_true_iff.mp (hon.symm.trans hr)
        exact scrolledAddr_on hrender hrl
    · rw [hookedCart, hon, Bool.and_comm (rendering q), Bool.and_right_comm]
  case frame =>
    have e := ppuClock_effects s
    obtain ⟨hctrl, hmask, hfineX, hw, hbuffer, hoamAddr⟩ := ppuClock_registers s
    refine ⟨e.cpu, e.ram, e.master, e.dma, e.pad0, e.pad1, e.oam, e.nt, e.pal, e.pat, hctrl, hmask, ppuClock_tramAddr s,
      hfineX, hw, hbuffer, hoamAddr, fun c hc => ?_⟩
    obtain ⟨d, hd, hsame, -⟩ := e.cart c hc
    exact ⟨d.mapper, hd.trans (congrArg some hsame.eq_withMapper)⟩

end Sys2Proof.Machine
end

section
/-!
PROOFS of what one PPU cycle does to the background registers and to the frame buffer, from `ppuClock_eq`: the fetch window's
conditions and addresses as numbers, and the bit that fine X selects.
-/
namespace Sys2Proof.Machine

/-! The addresses of the fetches as numbers (R661, R664, R668). -/

section
variable (q : Ppu) (v : BitVec 15)

theorem tileAddress_eq_ofNat : tileAddress q = BitVec.ofNat 16 (0x2000 + q.vramAddr.toNat % 0x1000) := by
  have := q.vramAddr.isLt
  have hlow : ((q.vramAddr.setWidth 16) &&& 0x0FFF).toNat = q.vramAddr.toNat % 0x1000 := by
    rw [BitVec.toNat_and, BitVec.toNat_setWidth, Nat.mod_eq_of_lt (by omega)]
    exact Nat.and_two_pow_sub_one_eq_mod q.vramAddr.toNat 12
  apply BitVec.eq_of_toNat_eq
  rw [tileAddress, toNat_or_eq_add 13 (by decide) (by omega), hlow, BitVec.toNat_ofNat]
  change 0x2000 + _ = _
  omega

theorem patternAddress_eq_ofNat :
    patternAddress q =
      BitVec.ofNat 16 ((if q.ctrl.getLsbD 4 then 0x1000 else 0) + 16 * q.bgNextId.toNat + q.vramAddr.toNat / 4096) := by
  have hid : (q.bgNextId.setWidth 16 <<< 4).toNat = 16 * q.bgNextId.toNat := by
    have := q.bgNextId.isLt
    rw [BitVec.toNat_shiftLeft, BitVec.toNat_setWidth, Nat.shiftLeft_eq]
    omega
  have hfine : ((fineY q.vramAddr).setWidth 16).toNat = q.vramAddr.toNat / 4096 := by
    have := q.vramAddr.isLt
    rw [BitVec.toNat_setWidth, fineY_toNat]
    omega
  apply BitVec.eq_of_toNat_eq
  rw [patternAddress, backgroundBase, BitVec.toNat_add, BitVec.toNat_add, hid, hfine, BitVec.toNat_ofNat]
  cases q.ctrl.getLsbD 4 <;> simp

theorem patternAddress_add_eight_eq_ofNat :
    patternAddress q + 8 =
      BitVec.ofNat 16 ((if q.ctrl.getLsbD 4 then 0x1000 else 0) + 16 * q.bgNextId.toNat + q.vramAddr.toNat / 4096 + 8) := by
  rw [patternAddress_eq_ofNat, BitVec.ofNat_add _ 8]
  rfl

theorem attributeAddress_eq_ofNat :
    attributeAddress v = BitVec.ofNat 16
      (0x23C0 + v.toNat / 1024 % 4 * 1024 + v.toNat / 128 % 8 * 8 + v.toNat / 4 % 8) := by
  set ny : Word := (nametableY v).setWidth 16 <<< 11 with hny
  set nx : Word := (nametableX v).setWidth 16 <<< 10 with hnx
  set row : Word := (coarseY v >>> 2).setWidth 16 <<< 3 with hrow
  set column : Word := (coarseX v >>> 2).setWidth 16 with hcolumn
  have ordered : attributeAddress v = 0x2000 ||| ny ||| nx ||| 0x03C0 ||| row ||| column := by
    change 0x2000 ||| 0x03C0 ||| ny ||| nx ||| row ||| column = _
    ac_rfl
  have eny : ny.toNat = v.toNat / 2048 % 2 * 2048 := by
    rw [hny, BitVec.toNat_shiftLeft, BitVec.toNat_setWidth, nametableY_toNat, Nat.shiftLeft_eq]
    omega
  have enx : nx.toNat = v.toNat / 1024 % 2 * 1024 := by
    rw [hnx, BitVec.toNat_shiftLeft, BitVec.toNat_setWidth, nametableX_toNat, Nat.shiftLeft_eq]
    omega
  have erow : row.toNat = v.toNat / 128 % 8 * 8 := by
    rw [hrow, BitVec.toNat_shiftLeft, BitVec.toNat_setWidth, BitVec.toNat_ushiftRight, coarseY_toNat,
      Nat.shiftRight_eq_div_pow, Nat.shiftLeft_eq]
    omega
  have ecolumn : column.toNat = v.toNat / 4 % 8 := by
    rw [hcolumn, BitVec.toNat_setWidth, BitVec.toNat_ushiftRight, coarseX_toNat, Nat.shiftRight_eq_div_pow]
    omega
  have base : (0x2000 : Word).toNat = 0x2000 ∧ (0x03C0 : Word).toNat = 0x03C0 := ⟨rfl, rfl⟩
  have e1 := toNat_or_eq_add 12 (x := (0x2000 : Word)) (y := ny) (by decide) (by omega)
  have e2 := toNat_or_eq_add 11 (x := 0x2000 ||| ny) (y := nx) (by omega) (by omega)
  have e3 := toNat_or_eq_add 10 (x := 0x2000 ||| ny ||| nx) (y := 0x03C0) (by omega) (by decide)
  have e4 := toNat_or_eq_add 6 (x := 0x2000 ||| ny ||| nx ||| 0x03C0) (y := row) (by omega) (by omega)
  have e5 := toNat_or_eq_add 3 (x := 0x2000 ||| ny ||| nx ||| 0x03C0 ||| row) (y := column) (by omega) (by omega)
  apply BitVec.eq_of_toNat_eq
  have tables : v.toNat / 1024 % 4 * 1024 = v.toNat / 2048 % 2 * 2048 + v.toNat / 1024 % 2 * 1024 := by
    rw [show v.toNat / 2048 = v.toNat / 1024 / 2 from (Nat.div_div_eq_div_mul _ 1024 2).symm]
    omega
  rw [ordered, e5, e4, e3, e2, e1, eny, enx, erow, ecolumn, base.1, base.2, BitVec.toNat_ofNat]
  omega

/-- The quadrant is the one of coarse Y's and coarse X's second bit (R664). -/
theorem attributeQuadrant_eq (a : Byte) :
    attributeQuadrant v a = (a >>> (4 * (v.toNat / 64 % 2) + 2 * (v.toNat / 2 % 2))) &&& 3 := by
  have hy : (coarseY v).getLsbD 1 = decide (v.toNat / 64 % 2 = 1) := by
    rw [BitVec.getLsbD, coarseY_toNat, Nat.testBit_eq_decide_div_mod_eq, decide_eq_decide]
    omega
  have hx : (coarseX v).getLsbD 1 = decide (v.toNat / 2 % 2 = 1) := by
    rw [BitVec.getLsbD, coarseX_toNat, Nat.testBit_eq_decide_div_mod_eq, decide_eq_decide]
    omega
  rw [attributeQuadrant, hy, hx]
  obtain hy' | hy' := Nat.mod_two_eq_zero_or_one (v.toNat / 64) <;>
    obtain hx' | hx' := Nat.mod_two_eq_zero_or_one (v.toNat / 2) <;> simp [hy', hx']
end

/-! The conditions of the fetch window (R661). -/

theorem inFetchWindow_eq (c : Nat) :
    inFetchWindow c = (decide (2 ≤ c ∧ c ≤ 257) || decide (321 ≤ c ∧ c ≤ 337)) := by
  simp only [inFetchWindow, Bool.decide_and]

theorem reloadLow_eq_ofNat (r : Word) (b : Byte) : reloadLow r b = BitVec.ofNat 16 (r.toNat / 256 * 256 + b.toNat) := by
  rw [← reloadLow_toNat, BitVec.ofNat_toNat, BitVec.setWidth_eq]

/-! The pixel (R670-R672). -/

/-- Fine X selects one bit of a shift register (R670). -/
theorem muxBit_eq (q : Ppu) (r : Word) : muxBit q r = r.getLsbD (15 - q.fineX.toNat) := by
  have := q.fineX.isLt
  have hmask : (0x8000 : Word) >>> q.fineX.toNat = BitVec.twoPow 16 (15 - q.fineX.toNat) := by
    generalize q.fineX.toNat = n at *
    interval_cases n <;> rfl
  rw [muxBit, Bool.eq_iff_iff, decide_eq_true_eq]
  exact and_ne_zero_iff_getLsbD hmask (by omega) r

/-- The palettes of the background are the entries below 16, which the mirrored ones do not reach (R203, R671). -/
theorem paletteIndex_background : ∀ k : Nat, k < 16 → paletteIndex (0x3F00 + BitVec.ofNat 16 k) = k := by
  decide

theorem colourIndex_eq (s : State) {pixel palette : Nat} (h : 4 * palette + pixel < 16) :
    colourIndex s pixel palette = (Memory.read s.ppu.pal (4 * palette + pixel)).setWidth 6 := by
  have hrange : 0x3F00 ≤ (0x3F00 + BitVec.ofNat 16 (4 * palette + pixel) : Word).toNat % 0x4000 := by
    rw [BitVec.toNat_add, BitVec.toNat_ofNat]
    change 0x3F00 ≤ (0x3F00 + (4 * palette + pixel) % 2 ^ 16) % 2 ^ 16 % 0x4000
    omega
  rw [colourIndex, ppuRead_palette s hrange, paletteIndex_background _ h]

/-! The fields after the cycle. -/

/-- The background registers after the cycle. The next-tile fields are the fetches of the window, and the idle ones. -/
theorem ppuClock_background (s : State) :
    (ppuClock s).ppu.bgPatLo = fetchedRegister s.ppu s.ppu.bgPatLo s.ppu.bgNextLo
      ∧ (ppuClock s).ppu.bgPatHi = fetchedRegister s.ppu s.ppu.bgPatHi s.ppu.bgNextHi
      ∧ (ppuClock s).ppu.bgAttLo = fetchedRegister s.ppu s.ppu.bgAttLo (attributeFill s.ppu 0)
      ∧ (ppuClock s).ppu.bgAttHi = fetchedRegister s.ppu s.ppu.bgAttHi (attributeFill s.ppu 1)
      ∧ (ppuClock s).ppu.bgNextId =
        (if inPhase s.ppu 0 || idleFetch s.ppu then ppuRead s (tileAddress s.ppu) else s.ppu.bgNextId)
      ∧ (ppuClock s).ppu.bgNextAttr =
        (if inPhase s.ppu 2 then
          attributeQuadrant s.ppu.vramAddr (ppuRead s (attributeAddress s.ppu.vramAddr))
        else s.ppu.bgNextAttr)
      ∧ (ppuClock s).ppu.bgNextLo = (if inPhase s.ppu 4 then ppuRead s (patternAddress s.ppu) else s.ppu.bgNextLo)
      ∧ (ppuClock s).ppu.bgNextHi =
        (if inPhase s.ppu 6 then ppuRead s (patternAddress s.ppu + 8) else s.ppu.bgNextHi) := by
  rw [ppuClock_eq, advanceRaster_eq]
  exact ⟨rfl, rfl, rfl, rfl, rfl, rfl, rfl, rfl⟩

theorem ppuClock_screen (s : State) : (ppuClock s).ppu.screen = outputScreen (stagedState s) := by
  rw [ppuClock_eq, advanceRaster_eq]

theorem ppuClock_draws (s : State) : (ppuClock s).draws = outputDraws (stagedState s) := by
  rw [ppuClock_eq]

/-- The raster position and PPUMASK when the pixel is output are those before the cycle. -/
theorem onScreen_stagedState (s : State) : onScreen (stagedState s).ppu = onScreen s.ppu := rfl

theorem onScreen_iff (q : Ppu) :
    onScreen q = true ↔ 0 ≤ q.scanline ∧ q.scanline ≤ 239 ∧ 1 ≤ q.cycle ∧ q.cycle ≤ 256 := by
  simp only [onScreen, Bool.and_eq_true, decide_eq_true_eq]
  tauto

/-- A background register's bit at the fine-X position, 0 while the background is not rendered (R670). -/
def backgroundBit (q : Ppu) (r : Word) : Nat := if q.mask.getLsbD 3 && r.getLsbD (15 - q.fineX.toNat) then 1 else 0

theorem backgroundBit_le (q : Ppu) (r : Word) : backgroundBit q r ≤ 1 := by
  unfold backgroundBit
  split <;> decide

theorem backgroundPixel_eq (q : Ppu) :
    backgroundPixel q =
      (2 * backgroundBit q q.bgPatHi + backgroundBit q q.bgPatLo,
        2 * backgroundBit q q.bgAttHi + backgroundBit q q.bgAttLo) := by
  have hbit (r : Word) : backgroundBit q r = (q.mask.getLsbD 3 && muxBit q r).toNat := by
    rw [backgroundBit, muxBit_eq]
    cases q.mask.getLsbD 3 && r.getLsbD (15 - q.fineX.toNat) <;> rfl
  rw [backgroundPixel, renderBackground, hbit, hbit, hbit, hbit]
  cases q.mask.getLsbD 3 <;> rfl

/-- The background pixel that is output is one of the registers after the cycle. -/
theorem backgroundPixel_stagedState (s : State) :
    backgroundPixel (stagedState s).ppu =
      (2 * backgroundBit s.ppu (ppuClock s).ppu.bgPatHi + backgroundBit s.ppu (ppuClock s).ppu.bgPatLo,
        2 * backgroundBit s.ppu (ppuClock s).ppu.bgAttHi + backgroundBit s.ppu (ppuClock s).ppu.bgAttLo) := by
  obtain ⟨hPatLo, hPatHi, hAttLo, hAttHi, -⟩ := ppuClock_background s
  rw [hPatLo, hPatHi, hAttLo, hAttHi]
  exact backgroundPixel_eq _

/-- Settles O53: the registers by the conditions and addresses of the fetch window, and the frame buffer by one write of the
pixel on the screen and none off it. -/
theorem backgroundRegistersAndPixels : Obligations.BackgroundRegistersAndPixels := by
  refine ⟨fun s h => ?registers, fun s h => ?off, fun s h0 h239 h1 h256 => ?on⟩
  case registers =>
    intro q r c line window at_ next fill v tile attrAt quadrant pattern
    obtain ⟨hPatLo, hPatHi, hAttLo, hAttHi, hNextId, hNextAttr, hNextLo, hNextHi⟩ := ppuClock_background s
    have hwindow : (renderLine q && inFetchWindow c) = window := by
      rw [renderLine_of_rasterWf h, inFetchWindow_eq]
    have hphase (k : Nat) : inPhase q k = at_ k := by rw [inPhase, hwindow]
    have hnext (w : Word) (low : Byte) : fetchedRegister q w low = next w low := by
      rw [fetchedRegister, hphase, reloadLow_eq_ofNat, shiftedRegister, hwindow]
      rfl
    have hidle : idleFetch q = (line && (decide (c = 338) || decide (c = 340))) := by
      rw [idleFetch, renderLine_of_rasterWf h]
    rw [hphase, hidle, tileAddress_eq_ofNat] at hNextId
    rw [hphase, attributeAddress_eq_ofNat, attributeQuadrant_eq] at hNextAttr
    rw [hphase, patternAddress_eq_ofNat] at hNextLo
    rw [hphase, patternAddress_add_eight_eq_ofNat] at hNextHi
    exact ⟨hPatLo.trans (hnext _ _), hPatHi.trans (hnext _ _), hAttLo.trans (hnext _ _), hAttHi.trans (hnext _ _),
      hNextId, hNextAttr, hNextLo, hNextHi⟩
  case off =>
    have hoff : onScreen (stagedState s).ppu = false := by
      rw [onScreen_stagedState, ← Bool.not_eq_true, onScreen_iff]
      omega
    rw [ppuClock_screen, ppuClock_draws, outputScreen, outputDraws, hoff]
    exact ⟨rfl, rfl⟩
  case on =>
    intro q r k bit palette pixel j
    have hon : onScreen (stagedState s).ppu = true := (onScreen_iff s.ppu).mpr ⟨h0, h239, h1, h256⟩
    have hpixel : backgroundPixel (stagedState s).ppu = (pixel, palette) := backgroundPixel_stagedState s
    have hentry : 4 * palette + pixel < 16 := by
      have hbit (w : Word) : bit w ≤ 1 := backgroundBit_le q w
      have := hbit r.bgAttHi
      have := hbit r.bgAttLo
      have := hbit r.bgPatHi
      have := hbit r.bgPatLo
      omega
    have houtput : outputOf (stagedState s) =
        if q.mask.getLsbD 4 then .drawn s.draws
        else .colour ((Memory.read q.pal (4 * palette + pixel)).setWidth 6) := by
      rw [outputOf, hpixel, colourIndex_eq _ hentry]
      rfl
    rw [ppuClock_screen, outputScreen, if_pos hon, houtput]
    by_cases hj : j = k
    · rw [if_pos hj, hj]
      exact screenRead_write_same _ k _
    · rw [if_neg hj]
      exact screenRead_write_ne _ _ hj

end Sys2Proof.Machine
end
